-- ==== Sys2Proof/Word.lean ====
section
/-! DEFINITION. The word types of the engine: every value the spec treats as bits (00_scope.md R12, R13). -/

namespace Sys2Proof

/-- A `u8` (R12): a byte of a stream, of a block or of a passphrase. -/
abbrev Byte := BitVec 8

/-- A `u32` (R12): a register, a key word, a half of a block. All arithmetic on it wraps (R13). -/
abbrev Word := BitVec 32

/-- A `u64` (R12): the length register LEN (10_state.md R25) and the host's checksum (45 R212). -/
abbrev Quad := BitVec 64

end Sys2Proof
end

