-- ==== Sys2Proof/Syntax.lean ====
section
/-! DEFINITION. The syntax of what a host can ask of the engine: one constructor of `Instr` per row of
spec/opcode_table.json, the two forms in which a transaction reaches the port (30_encoding.md R80, R85), the events of
the port, and the reasons a decoder rejects. In every file of the model, "40 R109" is rule R109 of the file of spec/
whose name begins with 40. -/

namespace Sys2Proof

/-- The rows of the opcode table. The first eleven are the command words of format CMD (R80); an instruction of that
format is a write of its word to CMD (R31, R106). The others are bus transactions of format BUS (R85). The free bits of a
row's descriptor or word are the constructor's arguments, so that no bit of an encoding is dropped. -/
inductive Instr where
  /-- NOP, CMD = 0x00000000 (40 R109). -/
  | nop
  /-- KEY_CLEAR, CMD = 0x00000001 (41 R142). -/
  | keyClear
  /-- KEY_FOLD of the passphrase byte `imm` = CMD[15:8] (41 R143, 30 R81). -/
  | keyFold (imm : Byte)
  /-- KEY_PASS, CMD = 0x00000003 (41 R144). -/
  | keyPass
  /-- KEY_RAW, CMD = 0x00000004 (41 R145). -/
  | keyRaw
  /-- ENC_BLOCK, CMD = 0x00000010 (42 R165). -/
  | encBlock
  /-- DEC_BLOCK, CMD = 0x00000011 (42 R166). -/
  | decBlock
  /-- ENC_BUF, CMD = 0x00000020 (44 R191). -/
  | encBuf
  /-- DEC_BUF, CMD = 0x00000021 (44 R194). -/
  | decBuf
  /-- ENC_STREAM, CMD = 0x00000022 (46 R223). -/
  | encStream
  /-- DEC_STREAM, CMD = 0x00000023 (46 R226). -/
  | decStream
  /-- Read of ID, descriptor 0x4000 (40 R100). -/
  | rdId
  /-- Read of CFG, descriptor 0x4004 (40 R100). -/
  | rdCfg
  /-- Read of CTRL, descriptor 0x4008 (40 R100). -/
  | rdCtrl
  /-- Read of STATUS, descriptor 0x400C (40 R100). -/
  | rdStatus
  /-- Read of CMD, descriptor 0x4010 (40 R100). -/
  | rdCmd
  /-- Read of ROUNDS, descriptor 0x4014 (40 R100). -/
  | rdRounds
  /-- Read of LEN_LO, descriptor 0x4018 (40 R100). -/
  | rdLenLo
  /-- Read of LEN_HI, descriptor 0x401C (40 R100). -/
  | rdLenHi
  /-- Read of KEY_A, descriptor 0x4020 (40 R100). -/
  | rdKeyA
  /-- Read of KEY_B, descriptor 0x4024 (40 R100). -/
  | rdKeyB
  /-- Read of KEY_C, descriptor 0x4028 (40 R100). -/
  | rdKeyC
  /-- Read of KEY_D, descriptor 0x402C (40 R100). -/
  | rdKeyD
  /-- Read of BLK_Y, descriptor 0x4030 (40 R100). -/
  | rdBlkY
  /-- Read of BLK_Z, descriptor 0x4034 (40 R100). -/
  | rdBlkZ
  /-- Read of FIFO_STAT, descriptor 0x4038 (40 R100). -/
  | rdFifoStat
  /-- Read of IN_CNT, descriptor 0x403C (40 R100). -/
  | rdInCnt
  /-- Read of OUT_CNT, descriptor 0x4040 (40 R100). -/
  | rdOutCnt
  /-- Read of DIN, descriptor 0x4044 (40 R100). -/
  | rdDin
  /-- Read of DOUT, descriptor 0x4048 (40 R105). -/
  | rdDout
  /-- Write of ID, descriptor 0xC000 (40 R112). -/
  | wrId (data : Word)
  /-- Write of CFG, descriptor 0xC004 (40 R112). -/
  | wrCfg (data : Word)
  /-- Write of CTRL, descriptor 0xC008 (40 R102). -/
  | wrCtrl (data : Word)
  /-- Write of STATUS, descriptor 0xC00C (40 R103). -/
  | wrStatus (data : Word)
  /-- Write of CMD, descriptor 0xC010 (40 R106). -/
  | wrCmd (word : Word)
  /-- Write of ROUNDS, descriptor 0xC014 (40 R101). -/
  | wrRounds (data : Word)
  /-- Write of LEN_LO, descriptor 0xC018 (40 R101). -/
  | wrLenLo (data : Word)
  /-- Write of LEN_HI, descriptor 0xC01C (40 R101). -/
  | wrLenHi (data : Word)
  /-- Write of KEY_A, descriptor 0xC020 (40 R101). -/
  | wrKeyA (data : Word)
  /-- Write of KEY_B, descriptor 0xC024 (40 R101). -/
  | wrKeyB (data : Word)
  /-- Write of KEY_C, descriptor 0xC028 (40 R101). -/
  | wrKeyC (data : Word)
  /-- Write of KEY_D, descriptor 0xC02C (40 R101). -/
  | wrKeyD (data : Word)
  /-- Write of BLK_Y, descriptor 0xC030 (40 R101). -/
  | wrBlkY (data : Word)
  /-- Write of BLK_Z, descriptor 0xC034 (40 R101). -/
  | wrBlkZ (data : Word)
  /-- Write of FIFO_STAT, descriptor 0xC038 (40 R112). -/
  | wrFifoStat (data : Word)
  /-- Write of IN_CNT, descriptor 0xC03C (40 R112). -/
  | wrInCnt (data : Word)
  /-- Write of OUT_CNT, descriptor 0xC040 (40 R112). -/
  | wrOutCnt (data : Word)
  /-- Write of DIN, descriptor 0xC044 (40 R104). -/
  | wrDin (data : Word)
  /-- Write of DOUT, descriptor 0xC048 (40 R112). -/
  | wrDout (data : Word)
  /-- Aligned 4-byte read of a reserved offset 0x04C..0x04C (10 R45). -/
  | rdReserved04c04c
  /-- Aligned 4-byte read of a reserved offset 0x050..0x05C (10 R45). -/
  | rdReserved05005c (off : BitVec 12)
  /-- Aligned 4-byte read of a reserved offset 0x060..0x07C (10 R45). -/
  | rdReserved06007c (off : BitVec 12)
  /-- Aligned 4-byte read of a reserved offset 0x080..0x0FC (10 R45). -/
  | rdReserved0800fc (off : BitVec 12)
  /-- Aligned 4-byte write of a reserved offset 0x04C..0x04C (10 R45, 40 R112). -/
  | wrReserved04c04c (data : Word)
  /-- Aligned 4-byte write of a reserved offset 0x050..0x05C (10 R45, 40 R112). -/
  | wrReserved05005c (off : BitVec 12) (data : Word)
  /-- Aligned 4-byte write of a reserved offset 0x060..0x07C (10 R45, 40 R112). -/
  | wrReserved06007c (off : BitVec 12) (data : Word)
  /-- Aligned 4-byte write of a reserved offset 0x080..0x0FC (10 R45, 40 R112). -/
  | wrReserved0800fc (off : BitVec 12) (data : Word)
  /-- A 1-byte transaction, SIZE = 00 (20 R62). -/
  | buserrSize1byte (write : Bool) (bit12 : Bool) (off : BitVec 12)
  /-- A 2-byte transaction, SIZE = 01 (20 R62). -/
  | buserrSize2byte (write : Bool) (bit12 : Bool) (off : BitVec 12)
  /-- An 8-byte transaction, SIZE = 11 (20 R62). -/
  | buserrSize8byte (write : Bool) (bit12 : Bool) (off : BitVec 12)
  /-- A 4-byte transaction at an offset with OFF[1:0] = 01 (20 R62). -/
  | buserrMisaligned1 (write : Bool) (bit12 : Bool) (off : BitVec 12)
  /-- A 4-byte transaction at an offset with OFF[1:0] = 10 (20 R62). -/
  | buserrMisaligned2 (write : Bool) (bit12 : Bool) (off : BitVec 12)
  /-- A 4-byte transaction at an offset with OFF[1:0] = 11 (20 R62). -/
  | buserrMisaligned3 (write : Bool) (bit12 : Bool) (off : BitVec 12)
deriving DecidableEq, Repr

/-- One transaction as it stands at the engine's port. -/
inductive Access where
  /-- A command word presented to CMD: the data of one CMD write (format CMD, R80; 20_memory.md R74). -/
  | command (word : Word)
  /-- A bus transaction: its 16-bit descriptor and, for a write, its 32-bit data word (format BUS, R85). A read carries
  no data, so `data` is not looked at then. -/
  | bus (desc : BitVec 16) (data : Word)
deriving DecidableEq, Repr

/-- What can happen next at the port (60_exceptions.md R249): a bus transaction, or a turn of the engine. -/
inductive PortEvent where
  /-- The host's transaction. -/
  | host (a : Access)
  /-- The engine sequencer's turn: it takes its step if one is enabled (40 R113). -/
  | engine
deriving DecidableEq, Repr

/-- Why the decoder names no row of the opcode table. -/
inductive DecodeError where
  /-- The command word is not legal (R83, R84). It is still executed: as a CMD write that finishes ILLEGAL_CMD (40 R108). -/
  | illegalCommand (word : Word)
  /-- The offset is outside the register window: "not the engine's transaction" (R86). -/
  | outsideWindow (off : BitVec 12)
  /-- Bit 12 of the descriptor is set in an aligned 4-byte descriptor: R85 has that bit 0. -/
  | reservedDescriptorBit (desc : BitVec 16)
deriving DecidableEq, Repr

end Sys2Proof
end

