-- ==== Sys2Proof/WellFormed.lean ====
section
/-! DEFINITION. Which terms of `Instr` are instructions: the offset a row carries must lie where the row's mask of
spec/opcode_table.json lets it (10_state.md R45, 20_memory.md R62, 30_encoding.md R85). -/

namespace Sys2Proof

/-- `off` is a multiple of 4 in `lo..hi`. -/
def reservedOffset (lo hi : Nat) (off : BitVec 12) : Bool :=
  lo ≤ off.toNat && off.toNat ≤ hi && off.toNat % 4 == 0

/-- The well-formed instructions. -/
def Instr.wellFormed : Instr → Bool
  | .nop => true
  | .keyClear => true
  | .keyFold _ => true
  | .keyPass => true
  | .keyRaw => true
  | .encBlock => true
  | .decBlock => true
  | .encBuf => true
  | .decBuf => true
  | .encStream => true
  | .decStream => true
  | .rdId => true
  | .rdCfg => true
  | .rdCtrl => true
  | .rdStatus => true
  | .rdCmd => true
  | .rdRounds => true
  | .rdLenLo => true
  | .rdLenHi => true
  | .rdKeyA => true
  | .rdKeyB => true
  | .rdKeyC => true
  | .rdKeyD => true
  | .rdBlkY => true
  | .rdBlkZ => true
  | .rdFifoStat => true
  | .rdInCnt => true
  | .rdOutCnt => true
  | .rdDin => true
  | .rdDout => true
  | .wrId _ => true
  | .wrCfg _ => true
  | .wrCtrl _ => true
  | .wrStatus _ => true
  | .wrCmd _ => true
  | .wrRounds _ => true
  | .wrLenLo _ => true
  | .wrLenHi _ => true
  | .wrKeyA _ => true
  | .wrKeyB _ => true
  | .wrKeyC _ => true
  | .wrKeyD _ => true
  | .wrBlkY _ => true
  | .wrBlkZ _ => true
  | .wrFifoStat _ => true
  | .wrInCnt _ => true
  | .wrOutCnt _ => true
  | .wrDin _ => true
  | .wrDout _ => true
  | .rdReserved04c04c => true
  | .rdReserved05005c off => reservedOffset 0x050 0x05C off
  | .rdReserved06007c off => reservedOffset 0x060 0x07C off
  | .rdReserved0800fc off => reservedOffset 0x080 0x0FC off
  | .wrReserved04c04c _ => true
  | .wrReserved05005c off _ => reservedOffset 0x050 0x05C off
  | .wrReserved06007c off _ => reservedOffset 0x060 0x07C off
  | .wrReserved0800fc off _ => reservedOffset 0x080 0x0FC off
  | .buserrSize1byte _ _ _ => true
  | .buserrSize2byte _ _ _ => true
  | .buserrSize8byte _ _ _ => true
  | .buserrMisaligned1 _ _ off => off.toNat % 4 == 1
  | .buserrMisaligned2 _ _ off => off.toNat % 4 == 2
  | .buserrMisaligned3 _ _ off => off.toNat % 4 == 3

end Sys2Proof
end

