-- ==== Sys2Proof/Decode.lean ====
section
/-! DEFINITION. The decoder and the encoder of the two formats (30_encoding.md R80-R86). The decoder is total and rejects
by name. -/

namespace Sys2Proof

/-! ### The fields of a command word (R80) -/

/-- OP = CMD[7:0] (R80). -/
def cmdOp (w : Word) : Byte := w.extractLsb' 0 8

/-- IMM8 = CMD[15:8], used without extension (R80, R81). -/
def cmdImm (w : Word) : Byte := w.extractLsb' 8 8

/-- RES = CMD[31:16] (R80). -/
def cmdRes (w : Word) : BitVec 16 := w.extractLsb' 16 16

/-- The eleven opcodes of R82. -/
def opcodes : List Byte := [0x00, 0x01, 0x02, 0x03, 0x04, 0x10, 0x11, 0x20, 0x21, 0x22, 0x23]

/-- `legal(w)` (R83). -/
def legal (w : Word) : Bool :=
  cmdRes w == 0 && opcodes.contains (cmdOp w) && (cmdOp w == 0x02 || cmdImm w == 0)

/-- The word of KEY_FOLD: `0x00000002 | imm << 8` (R83, 41 R143). -/
def keyFoldWord (imm : Byte) : Word := 0x00000002#32 ||| (imm.setWidth 32 <<< 8)

/-- The instruction a command word stands for (R82, R83); every other word is illegal (R84). -/
def decodeCommand (w : Word) : Except DecodeError Instr :=
  if cmdRes w ≠ 0 then .error (.illegalCommand w)
  else if cmdOp w = 0x02 then .ok (.keyFold (cmdImm w))
  else if cmdImm w ≠ 0 then .error (.illegalCommand w)
  else match (cmdOp w).toNat with
    | 0x00 => .ok .nop
    | 0x01 => .ok .keyClear
    | 0x03 => .ok .keyPass
    | 0x04 => .ok .keyRaw
    | 0x10 => .ok .encBlock
    | 0x11 => .ok .decBlock
    | 0x20 => .ok .encBuf
    | 0x21 => .ok .decBuf
    | 0x22 => .ok .encStream
    | 0x23 => .ok .decStream
    | _ => .error (.illegalCommand w)

/-! ### The fields of a bus descriptor (R85) -/

/-- W, bit 15: a write (R85). -/
def descWrite (d : BitVec 16) : Bool := d.getLsbD 15

/-- SIZE, bits 14:13 (R85). -/
def descSize (d : BitVec 16) : BitVec 2 := d.extractLsb' 13 2

/-- Bit 12, "reserved, 0" (R85). -/
def descBit12 (d : BitVec 16) : Bool := d.getLsbD 12

/-- OFF, bits 11:0 (R85). -/
def descOff (d : BitVec 16) : BitVec 12 := d.extractLsb' 0 12

/-- The descriptor with the four fields of R85. -/
def descriptor (write : Bool) (size : BitVec 2) (bit12 : Bool) (off : BitVec 12) : BitVec 16 :=
  (BitVec.ofBool write).setWidth 16 <<< 15 ||| size.setWidth 16 <<< 13 ||| (BitVec.ofBool bit12).setWidth 16 <<< 12
    ||| off.setWidth 16

/-- "A read of offset o is `0x4000 | o`" (R85). -/
def readDescriptor (off : BitVec 12) : BitVec 16 := 0x4000#16 ||| off.setWidth 16

/-- "a write is `0xC000 | o`" (R85). -/
def writeDescriptor (off : BitVec 12) : BitVec 16 := 0xC000#16 ||| off.setWidth 16

/-- The row of an aligned 4-byte read at an offset of the window (R86, 10 R23, 10 R45). -/
def decodeRead (off : BitVec 12) : Instr :=
  match off.toNat with
  | 0x000 => .rdId
  | 0x004 => .rdCfg
  | 0x008 => .rdCtrl
  | 0x00C => .rdStatus
  | 0x010 => .rdCmd
  | 0x014 => .rdRounds
  | 0x018 => .rdLenLo
  | 0x01C => .rdLenHi
  | 0x020 => .rdKeyA
  | 0x024 => .rdKeyB
  | 0x028 => .rdKeyC
  | 0x02C => .rdKeyD
  | 0x030 => .rdBlkY
  | 0x034 => .rdBlkZ
  | 0x038 => .rdFifoStat
  | 0x03C => .rdInCnt
  | 0x040 => .rdOutCnt
  | 0x044 => .rdDin
  | 0x048 => .rdDout
  | 0x04C => .rdReserved04c04c
  | _ =>
    if off.toNat < 0x060 then .rdReserved05005c off
    else if off.toNat < 0x080 then .rdReserved06007c off
    else .rdReserved0800fc off

/-- The row of an aligned 4-byte write at an offset of the window (R86, 10 R23, 10 R45). -/
def decodeWrite (off : BitVec 12) (data : Word) : Instr :=
  match off.toNat with
  | 0x000 => .wrId data
  | 0x004 => .wrCfg data
  | 0x008 => .wrCtrl data
  | 0x00C => .wrStatus data
  | 0x010 => .wrCmd data
  | 0x014 => .wrRounds data
  | 0x018 => .wrLenLo data
  | 0x01C => .wrLenHi data
  | 0x020 => .wrKeyA data
  | 0x024 => .wrKeyB data
  | 0x028 => .wrKeyC data
  | 0x02C => .wrKeyD data
  | 0x030 => .wrBlkY data
  | 0x034 => .wrBlkZ data
  | 0x038 => .wrFifoStat data
  | 0x03C => .wrInCnt data
  | 0x040 => .wrOutCnt data
  | 0x044 => .wrDin data
  | 0x048 => .wrDout data
  | 0x04C => .wrReserved04c04c data
  | _ =>
    if off.toNat < 0x060 then .wrReserved05005c off data
    else if off.toNat < 0x080 then .wrReserved06007c off data
    else .wrReserved0800fc off data

/-- An aligned 4-byte transaction: outside the window it is not the engine's (R86); bit 12 is 0 in a descriptor (R85). -/
def decodeRegister (d : BitVec 16) (data : Word) : Except DecodeError Instr :=
  if descBit12 d then .error (.reservedDescriptorBit d)
  else if 0x100 ≤ (descOff d).toNat then .error (.outsideWindow (descOff d))
  else if descWrite d then .ok (decodeWrite (descOff d) data)
  else .ok (decodeRead (descOff d))

/-- A 4-byte transaction: misaligned, it is a BusError row whatever the other fields hold (R86 first line, 20 R62). -/
def decodeFourByte (d : BitVec 16) (data : Word) : Except DecodeError Instr :=
  match (descOff d).toNat % 4 with
  | 0 => decodeRegister d data
  | 1 => .ok (.buserrMisaligned1 (descWrite d) (descBit12 d) (descOff d))
  | 2 => .ok (.buserrMisaligned2 (descWrite d) (descBit12 d) (descOff d))
  | _ => .ok (.buserrMisaligned3 (descWrite d) (descBit12 d) (descOff d))

/-- Decoding a descriptor: "apply the first line that matches" (R86). -/
def decodeBus (d : BitVec 16) (data : Word) : Except DecodeError Instr :=
  match (descSize d).toNat with
  | 0 => .ok (.buserrSize1byte (descWrite d) (descBit12 d) (descOff d))
  | 1 => .ok (.buserrSize2byte (descWrite d) (descBit12 d) (descOff d))
  | 2 => decodeFourByte d data
  | _ => .ok (.buserrSize8byte (descWrite d) (descBit12 d) (descOff d))

/-- The decoder, over both formats. -/
def decode : Access → Except DecodeError Instr
  | .command w => decodeCommand w
  | .bus d data => decodeBus d data

/-! ### The encoder -/

/-- The words of an instruction (R80, R82, R85). A read and a BusError row have no data word: it is written 0. -/
def encode : Instr → Access
  | .nop => .command 0x00000000#32
  | .keyClear => .command 0x00000001#32
  | .keyFold imm => .command (keyFoldWord imm)
  | .keyPass => .command 0x00000003#32
  | .keyRaw => .command 0x00000004#32
  | .encBlock => .command 0x00000010#32
  | .decBlock => .command 0x00000011#32
  | .encBuf => .command 0x00000020#32
  | .decBuf => .command 0x00000021#32
  | .encStream => .command 0x00000022#32
  | .decStream => .command 0x00000023#32
  | .rdId => .bus (readDescriptor 0x000#12) 0#32
  | .rdCfg => .bus (readDescriptor 0x004#12) 0#32
  | .rdCtrl => .bus (readDescriptor 0x008#12) 0#32
  | .rdStatus => .bus (readDescriptor 0x00C#12) 0#32
  | .rdCmd => .bus (readDescriptor 0x010#12) 0#32
  | .rdRounds => .bus (readDescriptor 0x014#12) 0#32
  | .rdLenLo => .bus (readDescriptor 0x018#12) 0#32
  | .rdLenHi => .bus (readDescriptor 0x01C#12) 0#32
  | .rdKeyA => .bus (readDescriptor 0x020#12) 0#32
  | .rdKeyB => .bus (readDescriptor 0x024#12) 0#32
  | .rdKeyC => .bus (readDescriptor 0x028#12) 0#32
  | .rdKeyD => .bus (readDescriptor 0x02C#12) 0#32
  | .rdBlkY => .bus (readDescriptor 0x030#12) 0#32
  | .rdBlkZ => .bus (readDescriptor 0x034#12) 0#32
  | .rdFifoStat => .bus (readDescriptor 0x038#12) 0#32
  | .rdInCnt => .bus (readDescriptor 0x03C#12) 0#32
  | .rdOutCnt => .bus (readDescriptor 0x040#12) 0#32
  | .rdDin => .bus (readDescriptor 0x044#12) 0#32
  | .rdDout => .bus (readDescriptor 0x048#12) 0#32
  | .wrId data => .bus (writeDescriptor 0x000#12) data
  | .wrCfg data => .bus (writeDescriptor 0x004#12) data
  | .wrCtrl data => .bus (writeDescriptor 0x008#12) data
  | .wrStatus data => .bus (writeDescriptor 0x00C#12) data
  | .wrCmd data => .bus (writeDescriptor 0x010#12) data
  | .wrRounds data => .bus (writeDescriptor 0x014#12) data
  | .wrLenLo data => .bus (writeDescriptor 0x018#12) data
  | .wrLenHi data => .bus (writeDescriptor 0x01C#12) data
  | .wrKeyA data => .bus (writeDescriptor 0x020#12) data
  | .wrKeyB data => .bus (writeDescriptor 0x024#12) data
  | .wrKeyC data => .bus (writeDescriptor 0x028#12) data
  | .wrKeyD data => .bus (writeDescriptor 0x02C#12) data
  | .wrBlkY data => .bus (writeDescriptor 0x030#12) data
  | .wrBlkZ data => .bus (writeDescriptor 0x034#12) data
  | .wrFifoStat data => .bus (writeDescriptor 0x038#12) data
  | .wrInCnt data => .bus (writeDescriptor 0x03C#12) data
  | .wrOutCnt data => .bus (writeDescriptor 0x040#12) data
  | .wrDin data => .bus (writeDescriptor 0x044#12) data
  | .wrDout data => .bus (writeDescriptor 0x048#12) data
  | .rdReserved04c04c => .bus (readDescriptor 0x04C#12) 0#32
  | .rdReserved05005c off => .bus (readDescriptor off) 0#32
  | .rdReserved06007c off => .bus (readDescriptor off) 0#32
  | .rdReserved0800fc off => .bus (readDescriptor off) 0#32
  | .wrReserved04c04c data => .bus (writeDescriptor 0x04C#12) data
  | .wrReserved05005c off data => .bus (writeDescriptor off) data
  | .wrReserved06007c off data => .bus (writeDescriptor off) data
  | .wrReserved0800fc off data => .bus (writeDescriptor off) data
  | .buserrSize1byte write bit12 off => .bus (descriptor write 0b00#2 bit12 off) 0#32
  | .buserrSize2byte write bit12 off => .bus (descriptor write 0b01#2 bit12 off) 0#32
  | .buserrSize8byte write bit12 off => .bus (descriptor write 0b11#2 bit12 off) 0#32
  | .buserrMisaligned1 write bit12 off => .bus (descriptor write 0b10#2 bit12 off) 0#32
  | .buserrMisaligned2 write bit12 off => .bus (descriptor write 0b10#2 bit12 off) 0#32
  | .buserrMisaligned3 write bit12 off => .bus (descriptor write 0b10#2 bit12 off) 0#32

/-! ### The table's numbering of bits -/

/-- The transaction whose bits are `w`, bit 0 being bit 0 of the first word: up to 16 bits a descriptor whose data word is
0, up to 32 bits a command word, beyond that a descriptor (bits 15:0) and its data word (bits 47:16). Bits from `nbits`
on are 0 (DESIGN CHOICE, log 14). -/
def tableAccess (nbits w : Nat) : Access :=
  let bits := w % 2 ^ nbits
  if nbits ≤ 16 then .bus (BitVec.ofNat 16 bits) 0#32
  else if nbits ≤ 32 then .command (BitVec.ofNat 32 bits)
  else .bus (BitVec.ofNat 16 bits) (BitVec.ofNat 32 (bits / 2 ^ 16))

/-- The instruction the decoder reads from the bits `w`. -/
def decodeTableWord (nbits w : Nat) : Option Instr :=
  match decode (tableAccess nbits w) with
  | .ok i => some i
  | .error _ => none

end Sys2Proof
end

