-- ==== Sys2Proof/Config.lean ====
section
/-! DEFINITION. The open parameters of the engine (00_scope.md R10: "A model takes these as arguments"). -/

namespace Sys2Proof

/-- The open parameters of R10. No step changes them. They are carried in `State.params`, so that a statement about
every state is a statement about every legal choice of them (DESIGN CHOICE, log 4). -/
structure Params where
  /-- `IN_DEPTH`, the capacity of the input FIFO in entries (R10, R37). -/
  inDepth : Nat
  /-- `OUT_DEPTH`, the capacity of the output FIFO in bytes (R10, R38). -/
  outDepth : Nat
  /-- `TEA_BASE`, the bus address of offset 0x000 of the register window (R10, R67). -/
  teaBase : Nat
  /-- `TEA_IRQ`: the platform's interrupt number for the IRQ line (R10, R247). -/
  teaIrq : Nat
  /-- `TEA_IRQ`: whether the platform's interrupt controller latches the line (R10, R247). -/
  teaIrqLatched : Bool
deriving DecidableEq, Repr

/-- The legal ranges of R10: `IN_DEPTH` 1..255, `OUT_DEPTH` 8..255, `TEA_BASE` 256-byte aligned. -/
structure Params.Legal (p : Params) : Prop where
  inDepth_pos : 1 ≤ p.inDepth
  inDepth_le : p.inDepth ≤ 255
  outDepth_ge : 8 ≤ p.outDepth
  outDepth_le : p.outDepth ≤ 255
  teaBase_aligned : p.teaBase % 256 = 0

/-- The parameters `State.reset` carries: R10's defaults 16 and 16; for `TEA_BASE` and `TEA_IRQ`, which R10 leaves OPEN
without a default, the value 0 and "not latched" (DESIGN CHOICE, unsafe, log 4). -/
def Params.default : Params :=
  { inDepth := 16, outDepth := 16, teaBase := 0, teaIrq := 0, teaIrqLatched := false }

end Sys2Proof
end

