-- ==== Sys2Proof/Machine/State.lean ====
section
/-! DEFINITION. The state of the machine (10_state.md R21), what it is at reset (R46, 70 R270), and the reasons a step can
stop. -/

namespace Sys2Proof.Machine

open Sys2Proof

/-- The key register file KEY[0..3] = KEY_A..KEY_D (10 R33). -/
structure Key where
  /-- KEY_A = KEY[0]. -/
  a : Word
  /-- KEY_B = KEY[1]. -/
  b : Word
  /-- KEY_C = KEY[2]. -/
  c : Word
  /-- KEY_D = KEY[3]. -/
  d : Word
deriving DecidableEq, Repr

/-- An entry of the input FIFO (10 R21, R37). -/
inductive InEntry where
  /-- One byte of the source. -/
  | byte (b : Byte)
  /-- The End marker: the source has no more bytes. -/
  | endMark
deriving DecidableEq, Repr

/-- The commands that have a run (10 R21). -/
inductive Op where
  | keyPass | keyRaw | encBlock | decBlock | encBuf | decBuf | encStream | decStream
deriving DecidableEq, Repr

/-- The position of a run's work (10 R21, R40). -/
structure Ctx where
  /-- The bytes waiting to be processed. -/
  acc : List Byte
  /-- `some n`: n more input bytes are to be consumed; `none`: consume until End. -/
  rem : Option Quad
  /-- True until the first block of a decrypt run has been processed. -/
  first : Bool
  /-- The four passphrase accumulators of KEY_PASS. -/
  kacc : Key
deriving DecidableEq, Repr

/-- The sequencer (10 R21, R39). -/
inductive Seq where
  | idle
  | run (op : Op) (ctx : Ctx)
deriving DecidableEq, Repr

/-- The error codes a command finishes with (60 R241). Codes 7..15 are never produced. -/
inductive ErrCode where
  | none | illegalCmd | badLen | badFill | shortInput | partialBlock | aborted
deriving DecidableEq, Repr

/-- The whole engine state: "Nothing else is state" (10 R21). -/
structure Engine where
  /-- KEY_A..KEY_D (R33). -/
  key : Key
  /-- ROUNDS (R24). -/
  rounds : Word
  /-- LEN_HI:LEN_LO (R25). -/
  len : Quad
  /-- BLK_Y (R26). -/
  blkY : Word
  /-- BLK_Z (R26). -/
  blkZ : Word
  /-- CTRL.IE (R29). -/
  ie : Bool
  /-- STATUS.DONE (R30). -/
  done : Bool
  /-- STATUS.OK (R30). -/
  ok : Bool
  /-- STATUS.ERR (R30, 60 R241). -/
  err : BitVec 4
  /-- STATUS.REJ (R30). -/
  rej : Bool
  /-- STATUS.OVF (R30). -/
  ovf : Bool
  /-- STATUS.OP (R30). -/
  lastOp : Byte
  /-- IN_CNT (R36). -/
  inCnt : Word
  /-- OUT_CNT (R36). -/
  outCnt : Word
  /-- The input FIFO, head first (R37). -/
  inq : List InEntry
  /-- The output FIFO, head first (R38). -/
  outq : List Byte
  /-- The sequencer (R39). -/
  seq : Seq
deriving DecidableEq, Repr

/-- The machine: the engine, its open parameters, and the host's side of the port. -/
structure State where
  /-- The engine's state (R21). -/
  engine : Engine
  /-- The open parameters (00 R10); no step changes them (log 4). -/
  params : Params
  /-- The host variable `v` that a read's value goes to (30 R87; log 5). -/
  v : Word
  /-- What happens next at the port, in order: the host's transactions and the engine's turns (60 R249; the model's own
  field, DESIGN CHOICE, logs 1 and 2). -/
  port : List PortEvent
deriving DecidableEq, Repr

/-- The reasons the machine stops with a fault. -/
inductive Fault where
  /-- BusError(addr), raised by a transaction that is not 4 bytes wide or not 4-byte aligned (20 R62, 60 R244; the
  BUSERR rows). `addr` is its bus address, TEA_BASE plus the offset. It changes no engine state. Safe: the hardware goes
  on with the state the transaction found, the model says no more about that run (log 6). -/
  | busError (addr : Nat)
deriving DecidableEq, Repr

/-- The reasons a step answers nothing. The engine itself refuses nothing (60 R245); these are about what is no
transaction of the engine. -/
inductive Refusal where
  /-- An instruction without a meaning. No arm of `exec` raises it. Safe. -/
  | notModelled (mnemonic : String)
  /-- A 4-byte aligned transaction at an offset of 0x100 or more, raised by `step`: "outside the window, not the engine's
  transaction (the platform's concern)" (30 R86). Safe (log 9). -/
  | outsideWindow (off : BitVec 12)
  /-- An aligned 4-byte descriptor whose reserved bit 12 is set, raised by `step`: no descriptor of R85. Safe (log 10). -/
  | reservedDescriptorBit (desc : BitVec 16)
deriving DecidableEq, Repr

/-- The all-zero key (10 R33, R46). -/
def Key.zero : Key := { a := 0, b := 0, c := 0, d := 0 }

/-- The engine after power-on reset and after CTRL.SRST: "every piece of state takes its value in R46" (10 R46, 70 R270,
R271). -/
def Engine.reset : Engine :=
  { key := Key.zero, rounds := 32, len := 0, blkY := 0, blkZ := 0, ie := false, done := false, ok := false, err := 0,
    rej := false, ovf := false, lastOp := 0, inCnt := 0, outCnt := 0, inq := [], outq := [], seq := .idle }

/-- The machine right after power-on reset: "A model's initial state is exactly R46" (70 R270). The parameters are R10's
defaults (log 4), the host variable is 0 (DESIGN CHOICE, log 5), and the host has issued nothing yet (log 1). -/
def State.reset : State :=
  { engine := Engine.reset, params := Params.default, v := 0, port := [] }

end Sys2Proof.Machine
end

