-- ==== Sys2Proof/Machine/Operands.lean ====
section
/-! DEFINITION. The operand forms: the bytes of a word and the words of a block (20_memory.md R60, R61; 00_scope.md R14),
the entry a DIN word offers (10 R41), the action bits of a CTRL word (10 R29), the halves of LEN (10 R25). -/

namespace Sys2Proof.Machine

open Sys2Proof

/-- `BE32(b0,b1,b2,b3)` (00 R14). -/
def be32 (b0 b1 b2 b3 : Byte) : Word :=
  b0.setWidth 32 <<< 24 ||| b1.setWidth 32 <<< 16 ||| b2.setWidth 32 <<< 8 ||| b3.setWidth 32

/-- `LE32(b0,b1,b2,b3)` (00 R14). -/
def le32 (b0 b1 b2 b3 : Byte) : Word :=
  b3.setWidth 32 <<< 24 ||| b2.setWidth 32 <<< 16 ||| b1.setWidth 32 <<< 8 ||| b0.setWidth 32

/-- `bytesBE32(w) = [w[31:24], w[23:16], w[15:8], w[7:0]]` (00 R14). -/
def bytesBE32 (w : Word) : List Byte :=
  [w.extractLsb' 24 8, w.extractLsb' 16 8, w.extractLsb' 8 8, w.extractLsb' 0 8]

/-- Byte `i` of a byte list. The rules read only bytes that are there; past the end the model reads 0 (log 11). -/
def byteAt (l : List Byte) (i : Nat) : Byte := l.getD i 0

/-- `y = BE32(p0,p1,p2,p3)` of a block (20 R60). -/
def blockY (p : List Byte) : Word := be32 (byteAt p 0) (byteAt p 1) (byteAt p 2) (byteAt p 3)

/-- `z = BE32(p4,p5,p6,p7)` of a block (20 R60). -/
def blockZ (p : List Byte) : Word := be32 (byteAt p 4) (byteAt p 5) (byteAt p 6) (byteAt p 7)

/-- The byte view of a block: `bytesBE32(y) ++ bytesBE32(z)` (20 R60). -/
def blockBytes (y z : Word) : List Byte := bytesBE32 y ++ bytesBE32 z

/-- `chunks8(q)`: the consecutive 8-byte blocks of `q`, whole blocks only (44 R190, 46 R225). -/
def chunks8 : List Byte → List (List Byte)
  | b0 :: b1 :: b2 :: b3 :: b4 :: b5 :: b6 :: b7 :: rest => [b0, b1, b2, b3, b4, b5, b6, b7] :: chunks8 rest
  | _ => []

/-- The entry a DIN word offers: bit 8 is END, bits 7:0 are DATA, bits 31:9 are ignored (10 R41, 40 R104). -/
def dinEntry (d : Word) : InEntry :=
  if d.getLsbD 8 then .endMark else .byte (d.extractLsb' 0 8)

/-- CTRL bit 0, IE (10 R29). -/
def ctrlIe (d : Word) : Bool := d.getLsbD 0

/-- CTRL bit 1, SRST (10 R29). -/
def ctrlSrst (d : Word) : Bool := d.getLsbD 1

/-- CTRL bit 2, ABORT (10 R29). -/
def ctrlAbort (d : Word) : Bool := d.getLsbD 2

/-- CTRL bit 3, FLUSH_IN (10 R29). -/
def ctrlFlushIn (d : Word) : Bool := d.getLsbD 3

/-- CTRL bit 4, FLUSH_OUT (10 R29). -/
def ctrlFlushOut (d : Word) : Bool := d.getLsbD 4

/-- LEN_LO: bits 31:0 of the length (10 R25). -/
def lenLo (n : Quad) : Word := n.extractLsb' 0 32

/-- LEN_HI: bits 63:32 of the length (10 R25). -/
def lenHi (n : Quad) : Word := n.extractLsb' 32 32

/-- `len = LEN_HI << 32 | LEN_LO` (10 R25). -/
def lenOf (hi lo : Word) : Quad := hi.setWidth 64 <<< 32 ||| lo.setWidth 64

/-- The opcode of a command that has a run (30 R82). -/
def Op.code : Op → Byte
  | .keyPass => 0x03
  | .keyRaw => 0x04
  | .encBlock => 0x10
  | .decBlock => 0x11
  | .encBuf => 0x20
  | .decBuf => 0x21
  | .encStream => 0x22
  | .decStream => 0x23

end Sys2Proof.Machine
end

