-- ==== Sys2Proof/Machine/Flags.lean ====
section
/-! DEFINITION. The flags and the registers computed from the state: STATUS (10 R30, R44), CTRL (R29), CFG (R28),
FIFO_STAT (R35), ID (R27), the IRQ line (R43), the error codes (60 R241). The engine has no condition codes (R44). -/

namespace Sys2Proof.Machine

open Sys2Proof

/-- STATUS.BUSY: "1 exactly when seq ≠ Idle" (10 R30). -/
def Engine.busy (e : Engine) : Bool :=
  match e.seq with
  | .idle => false
  | .run _ _ => true

/-- The interrupt output: `IRQ = ie ∧ done` (10 R43). -/
def Engine.irq (e : Engine) : Bool := e.ie && e.done

/-- The number under which the platform's interrupt controller sees the line while it is high (60 R247, TEA_IRQ). -/
def State.assertedInterrupt (s : State) : Option Nat :=
  if s.engine.irq then some s.params.teaIrq else none

/-- The code of an error (60 R241). -/
def ErrCode.bits : ErrCode → BitVec 4
  | .none => 0
  | .illegalCmd => 1
  | .badLen => 2
  | .badFill => 3
  | .shortInput => 4
  | .partialBlock => 5
  | .aborted => 6

/-- One flag as the lowest bit of a register word. -/
def flagBit (b : Bool) : Word := (BitVec.ofBool b).setWidth 32

/-- ID reads 0x54454131, "TEA1" (00 R2, 10 R27). -/
def idWord : Word := 0x54454131

/-- CFG (10 R28). -/
def cfgWord (p : Params) : Word :=
  (BitVec.ofNat 8 p.inDepth).setWidth 32 ||| (BitVec.ofNat 8 p.outDepth).setWidth 32 <<< 8

/-- CTRL: `zext_32(ie)`; the action bits read 0 (10 R29, 40 R100). -/
def ctrlWord (e : Engine) : Word := flagBit e.ie

/-- STATUS: `busy | done<<1 | ok<<2 | err<<4 | rej<<8 | ovf<<9 | lastOp<<16` (10 R30, 40 R100). -/
def statusWord (e : Engine) : Word :=
  flagBit e.busy ||| flagBit e.done <<< 1 ||| flagBit e.ok <<< 2 ||| e.err.setWidth 32 <<< 4
    ||| flagBit e.rej <<< 8 ||| flagBit e.ovf <<< 9 ||| e.lastOp.setWidth 32 <<< 16

/-- IN_FULL: `len(inq) = IN_DEPTH` (10 R35). -/
def inFull (p : Params) (e : Engine) : Bool := e.inq.length == p.inDepth

/-- OUT_EMPTY: `len(outq) = 0` (10 R35). -/
def outEmpty (e : Engine) : Bool := e.outq.length == 0

/-- FIFO_STAT (10 R35). -/
def fifoStatWord (p : Params) (e : Engine) : Word :=
  (BitVec.ofNat 8 e.inq.length).setWidth 32 ||| (BitVec.ofNat 8 e.outq.length).setWidth 32 <<< 8
    ||| flagBit (inFull p e) <<< 16 ||| flagBit (outEmpty e) <<< 17

/-- What a STATUS write clears: DONE, REJ, OVF where bits 1, 8, 9 are 1; every other bit is ignored (10 R30, 40 R103). -/
def Engine.clearFlags (d : Word) (e : Engine) : Engine :=
  { e with
    done := if d.getLsbD 1 then false else e.done
    rej := if d.getLsbD 8 then false else e.rej
    ovf := if d.getLsbD 9 then false else e.ovf }

end Sys2Proof.Machine
end

