-- ==== Sys2Proof/Machine/Ops.lean ====
section
/-! DEFINITION. The operations the meanings share: the FIFO helpers of 40 R114, completion (`finish`, 40 R110), the start
of a command (40 R107), the busy check (40 R101, R106), a register read and an ignored write (40 R100, R112), the CTRL
actions (40 R117, R118), and the one fault (60 R244). -/

namespace Sys2Proof.Machine

open Sys2Proof

/-- What an instruction answers. -/
abbrev Result := Host.Outcome State Fault Refusal

/-! ### The engine's operations -/

/-- `finish(okv, e)`: every command ends through it (40 R110). It is the engine's nearest thing to taking an exception
(60 R251): DONE rises, and with it IRQ when IE = 1. It touches no FIFO and no counter. -/
def Engine.finish (okv : Bool) (code : ErrCode) (e : Engine) : Engine :=
  { e with seq := .idle, done := true, ok := okv, err := if okv then 0 else code.bits }

/-- The first lines of `accept(w)`: the result of the last command is cleared, OP is taken, the counters start at 0
(40 R107). -/
def Engine.accepted (op : Byte) (e : Engine) : Engine :=
  { e with done := false, ok := false, err := 0, lastOp := op, inCnt := 0, outCnt := 0 }

/-- A "start": `seq <- Run op ctx0` (40 R107). -/
def Engine.start (op : Op) (ctx : Ctx) (e : Engine) : Engine := { e with seq := .run op ctx }

/-- `popIn()`: the head entry leaves the input FIFO; a byte counts in IN_CNT, End does not (40 R114, 10 R36). Its
precondition is a non-empty FIFO; without one it does nothing. -/
def Engine.popIn (e : Engine) : Engine :=
  match e.inq with
  | .byte _ :: rest => { e with inq := rest, inCnt := e.inCnt + 1 }
  | .endMark :: rest => { e with inq := rest }
  | [] => e

/-- `room(k) = len(outq) + k ≤ OUT_DEPTH` (40 R114). -/
def room (p : Params) (e : Engine) (k : Nat) : Bool := decide (e.outq.length + k ≤ p.outDepth)

/-- `pushOut(l)`: the bytes join the output FIFO and count in OUT_CNT (40 R114, 10 R36). -/
def Engine.pushOut (l : List Byte) (e : Engine) : Engine :=
  { e with outq := e.outq ++ l, outCnt := e.outCnt + BitVec.ofNat 32 l.length }

/-- A DIN write: the entry joins the input FIFO, or is dropped with OVF when the FIFO is full (40 R104). -/
def Engine.pushIn (p : Params) (entry : InEntry) (e : Engine) : Engine :=
  if e.inq.length < p.inDepth then { e with inq := e.inq ++ [entry] } else { e with ovf := true }

/-- `abort()`: a running command finishes ABORTED, nothing is committed; an idle engine is left alone (40 R117). -/
def Engine.abort (e : Engine) : Engine := if e.busy then e.finish false .aborted else e

/-- FLUSH_IN (40 R118). -/
def Engine.flushIn (e : Engine) : Engine := { e with inq := [] }

/-- FLUSH_OUT (40 R118). -/
def Engine.flushOut (e : Engine) : Engine := { e with outq := [] }

/-- A write to CTRL (40 R102; the order of 60 R250 item 2): SRST first and alone; else ABORT, FLUSH_IN, FLUSH_OUT, IE. -/
def Engine.control (d : Word) (e : Engine) : Engine :=
  if ctrlSrst d then Engine.reset
  else
    let e := if ctrlAbort d then e.abort else e
    let e := if ctrlFlushIn d then e.flushIn else e
    let e := if ctrlFlushOut d then e.flushOut else e
    { e with ie := ctrlIe d }

/-! ### The machine's operations -/

/-- The machine with another engine state. -/
def State.setEngine (s : State) (e : Engine) : State := { s with engine := e }

/-- The machine with another value in the host variable (30 R87). -/
def State.setV (s : State) (w : Word) : State := { s with v := w }

/-- A transaction that changes only the engine. -/
def updateEngine (f : Engine → Engine) (s : State) : Result := .next (s.setEngine (f s.engine))

/-- A read: its value goes to the host, and no engine state changes (40 R100, 20 R66). -/
def answerRead (value : Word) (s : State) : Result := .next (s.setV value)

/-- A write that is ignored (40 R112, 10 R45). -/
def ignoreWrite (s : State) : Result := .next s

/-- A write that an engine at rest takes and a busy one turns away with REJ (40 R101, R106; 10 R32). -/
def unlessBusy (f : Engine → Engine) (s : State) : Result :=
  updateEngine (fun e => if e.busy then { e with rej := true } else f e) s

/-- A command word with opcode `op` written to CMD (40 R106): busy comes before everything (60 R250 item 3); else it is
accepted, and `body` is its arm of `accept` (40 R107). -/
def presentCommand (op : Byte) (body : Engine → Engine) (s : State) : Result :=
  unlessBusy (fun e => body (e.accepted op)) s

/-- A read of DOUT pops one byte: `0x100 | b`, or 0 when there is none (40 R105, 10 R42). -/
def popDout (s : State) : Result :=
  match s.engine.outq with
  | b :: rest => .next ((s.setEngine { s.engine with outq := rest }).setV (0x100 ||| b.setWidth 32))
  | [] => .next (s.setV 0)

/-- `raise BusError(addr)`: "the bus transaction ends with an error response and changes no engine state" (00 R16,
20 R62, 60 R244). "A model makes it a fault outcome of the transaction". -/
def raiseBusError (off : BitVec 12) (s : State) : Result := .fault (.busError (s.params.teaBase + off.toNat))

/-- The instruction the port runs for a transaction: the decoded row. A command word that is no row is still a CMD write
of that word: it "finishes at once with finish(false, ILLEGAL_CMD)" (30 R84, 40 R108; DEDUCED, log 7). What is no
transaction of the engine is refused by name (30 R86, R85). -/
def fetchInstr (a : Access) : Except Refusal Instr :=
  match decode a with
  | .ok i => .ok i
  | .error (.illegalCommand w) => .ok (.wrCmd w)
  | .error (.outsideWindow off) => .error (.outsideWindow off)
  | .error (.reservedDescriptorBit d) => .error (.reservedDescriptorBit d)

end Sys2Proof.Machine
end

