-- ==== Sys2Proof/Machine/BusErrors.lean ====
section
/-! DEFINITION. The malformed transactions: the engine's only fault (20 R62, 60 R244; 40 R119: "BusError (R62), which is a
fault on that transaction and changes no state"). -/

namespace Sys2Proof.Machine

open Sys2Proof

/-- A 1-byte transaction: BusError (20 R62, 60 R244). -/
def execBuserrSize1byte (_write _bit12 : Bool) (off : BitVec 12) (s : State) : Result := raiseBusError off s

/-- A 2-byte transaction: BusError (20 R62, 60 R244). -/
def execBuserrSize2byte (_write _bit12 : Bool) (off : BitVec 12) (s : State) : Result := raiseBusError off s

/-- An 8-byte transaction: BusError (20 R62, 60 R244). -/
def execBuserrSize8byte (_write _bit12 : Bool) (off : BitVec 12) (s : State) : Result := raiseBusError off s

/-- A 4-byte transaction at an offset that is 1 modulo 4: BusError (20 R62, 60 R244). -/
def execBuserrMisaligned1 (_write _bit12 : Bool) (off : BitVec 12) (s : State) : Result := raiseBusError off s

/-- A 4-byte transaction at an offset that is 2 modulo 4: BusError (20 R62, 60 R244). -/
def execBuserrMisaligned2 (_write _bit12 : Bool) (off : BitVec 12) (s : State) : Result := raiseBusError off s

/-- A 4-byte transaction at an offset that is 3 modulo 4: BusError (20 R62, 60 R244). -/
def execBuserrMisaligned3 (_write _bit12 : Bool) (off : BitVec 12) (s : State) : Result := raiseBusError off s

end Sys2Proof.Machine
end

