-- ==== Sys2Proof/Machine/BusReads.lean ====
section
/-! DEFINITION. The reads of the register window (40 R100, R105; 10 R45). A read returns the current value at any time, busy
or not, and only a DOUT read has a side effect (20 R66). -/

namespace Sys2Proof.Machine

open Sys2Proof

/-- Read of ID (40 R100, 10 R27). -/
def execRdId (s : State) : Result := answerRead idWord s

/-- Read of CFG (40 R100, 10 R28). -/
def execRdCfg (s : State) : Result := answerRead (cfgWord s.params) s

/-- Read of CTRL (40 R100, 10 R29). -/
def execRdCtrl (s : State) : Result := answerRead (ctrlWord s.engine) s

/-- Read of STATUS (40 R100, 10 R30). -/
def execRdStatus (s : State) : Result := answerRead (statusWord s.engine) s

/-- Read of CMD (40 R100, 10 R31; reads return 0). -/
def execRdCmd (s : State) : Result := answerRead 0 s

/-- Read of ROUNDS (40 R100, 10 R24). -/
def execRdRounds (s : State) : Result := answerRead s.engine.rounds s

/-- Read of LEN_LO (40 R100, 10 R25). -/
def execRdLenLo (s : State) : Result := answerRead (lenLo s.engine.len) s

/-- Read of LEN_HI (40 R100, 10 R25). -/
def execRdLenHi (s : State) : Result := answerRead (lenHi s.engine.len) s

/-- Read of KEY_A (40 R100, 10 R33, R34). -/
def execRdKeyA (s : State) : Result := answerRead s.engine.key.a s

/-- Read of KEY_B (40 R100, 10 R33, R34). -/
def execRdKeyB (s : State) : Result := answerRead s.engine.key.b s

/-- Read of KEY_C (40 R100, 10 R33, R34). -/
def execRdKeyC (s : State) : Result := answerRead s.engine.key.c s

/-- Read of KEY_D (40 R100, 10 R33, R34). -/
def execRdKeyD (s : State) : Result := answerRead s.engine.key.d s

/-- Read of BLK_Y (40 R100, 10 R26). -/
def execRdBlkY (s : State) : Result := answerRead s.engine.blkY s

/-- Read of BLK_Z (40 R100, 10 R26). -/
def execRdBlkZ (s : State) : Result := answerRead s.engine.blkZ s

/-- Read of FIFO_STAT (40 R100, 10 R35). -/
def execRdFifoStat (s : State) : Result := answerRead (fifoStatWord s.params s.engine) s

/-- Read of IN_CNT (40 R100, 10 R36). -/
def execRdInCnt (s : State) : Result := answerRead s.engine.inCnt s

/-- Read of OUT_CNT (40 R100, 10 R36). -/
def execRdOutCnt (s : State) : Result := answerRead s.engine.outCnt s

/-- Read of DIN (40 R100, 10 R41; reads return 0). -/
def execRdDin (s : State) : Result := answerRead 0 s

/-- Read of DOUT: it pops (40 R105, 10 R42). -/
def execRdDout (s : State) : Result := popDout s

/-- Read of a reserved offset 0x04C..0x04C: it reads 0 (10 R45, 40 R100). -/
def execRdReserved04c04c (s : State) : Result := answerRead 0 s

/-- Read of a reserved offset 0x050..0x05C: it reads 0 (10 R45, 40 R100). -/
def execRdReserved05005c (_off : BitVec 12) (s : State) : Result := answerRead 0 s

/-- Read of a reserved offset 0x060..0x07C: it reads 0 (10 R45, 40 R100). -/
def execRdReserved06007c (_off : BitVec 12) (s : State) : Result := answerRead 0 s

/-- Read of a reserved offset 0x080..0x0FC: it reads 0 (10 R45, 40 R100). -/
def execRdReserved0800fc (_off : BitVec 12) (s : State) : Result := answerRead 0 s

end Sys2Proof.Machine
end

