-- ==== Sys2Proof/Machine/BusWrites.lean ====
section
/-! DEFINITION. The writes of the register window but CMD (40 R101-R104, R112; 10 R45). -/

namespace Sys2Proof.Machine

open Sys2Proof

/-- Write of ID: ignored (40 R112). -/
def execWrId (_data : Word) (s : State) : Result := ignoreWrite s

/-- Write of CFG: ignored (40 R112). -/
def execWrCfg (_data : Word) (s : State) : Result := ignoreWrite s

/-- Write of CTRL (40 R102, R117, R118; 70 R271). It is taken while busy too. -/
def execWrCtrl (data : Word) (s : State) : Result := updateEngine (Engine.control data) s

/-- Write of STATUS (40 R103): the acknowledgement of 60 R252. -/
def execWrStatus (data : Word) (s : State) : Result := updateEngine (Engine.clearFlags data) s

/-- Write of the config register ROUNDS (40 R101, 10 R24, R32). -/
def execWrRounds (data : Word) (s : State) : Result := unlessBusy (fun e => { e with rounds := data }) s

/-- Write of the config register LEN_LO (40 R101, 10 R25, R32). -/
def execWrLenLo (data : Word) (s : State) : Result := unlessBusy (fun e => { e with len := lenOf (lenHi e.len) data }) s

/-- Write of the config register LEN_HI (40 R101, 10 R25, R32). -/
def execWrLenHi (data : Word) (s : State) : Result := unlessBusy (fun e => { e with len := lenOf data (lenLo e.len) }) s

/-- Write of the config register KEY_A (40 R101, 10 R33, R32). -/
def execWrKeyA (data : Word) (s : State) : Result := unlessBusy (fun e => { e with key := { e.key with a := data } }) s

/-- Write of the config register KEY_B (40 R101, 10 R33, R32). -/
def execWrKeyB (data : Word) (s : State) : Result := unlessBusy (fun e => { e with key := { e.key with b := data } }) s

/-- Write of the config register KEY_C (40 R101, 10 R33, R32). -/
def execWrKeyC (data : Word) (s : State) : Result := unlessBusy (fun e => { e with key := { e.key with c := data } }) s

/-- Write of the config register KEY_D (40 R101, 10 R33, R32). -/
def execWrKeyD (data : Word) (s : State) : Result := unlessBusy (fun e => { e with key := { e.key with d := data } }) s

/-- Write of the config register BLK_Y (40 R101, 10 R26, R32). -/
def execWrBlkY (data : Word) (s : State) : Result := unlessBusy (fun e => { e with blkY := data }) s

/-- Write of the config register BLK_Z (40 R101, 10 R26, R32). -/
def execWrBlkZ (data : Word) (s : State) : Result := unlessBusy (fun e => { e with blkZ := data }) s

/-- Write of FIFO_STAT: ignored (40 R112). -/
def execWrFifoStat (_data : Word) (s : State) : Result := ignoreWrite s

/-- Write of IN_CNT: ignored (40 R112). -/
def execWrInCnt (_data : Word) (s : State) : Result := ignoreWrite s

/-- Write of OUT_CNT: ignored (40 R112). -/
def execWrOutCnt (_data : Word) (s : State) : Result := ignoreWrite s

/-- Write of DIN (40 R104). -/
def execWrDin (data : Word) (s : State) : Result := updateEngine (Engine.pushIn s.params (dinEntry data)) s

/-- Write of DOUT: ignored (40 R112). It does not pop. -/
def execWrDout (_data : Word) (s : State) : Result := ignoreWrite s

/-- Write of a reserved offset 0x04C..0x04C: ignored (10 R45, 40 R112). -/
def execWrReserved04c04c (_data : Word) (s : State) : Result := ignoreWrite s

/-- Write of a reserved offset 0x050..0x05C: ignored (10 R45, 40 R112). -/
def execWrReserved05005c (_off : BitVec 12) (_data : Word) (s : State) : Result := ignoreWrite s

/-- Write of a reserved offset 0x060..0x07C: ignored (10 R45, 40 R112). -/
def execWrReserved06007c (_off : BitVec 12) (_data : Word) (s : State) : Result := ignoreWrite s

/-- Write of a reserved offset 0x080..0x0FC: ignored (10 R45, 40 R112). -/
def execWrReserved0800fc (_off : BitVec 12) (_data : Word) (s : State) : Result := ignoreWrite s

end Sys2Proof.Machine
end

