-- ==== Sys2Proof/Machine/KeyScheduler.lean ====
section
/-! DEFINITION. The key scheduler (41_key_scheduler.md): the fold, the two key constructors, KEY_CLEAR, KEY_FOLD, KEY_PASS,
KEY_RAW and the two step rules. -/

namespace Sys2Proof.Machine

open Sys2Proof

/-- `fold(k, x)` (41 R140): each word times 7, 15, 31, 63 plus the zero-extended byte, modulo 2^32. -/
def fold (k : Key) (x : Byte) : Key :=
  { a := k.a * 7 + x.setWidth 32
    b := k.b * 15 + x.setWidth 32
    c := k.c * 31 + x.setWidth 32
    d := k.d * 63 + x.setWidth 32 }

/-- `derive(p) = foldl fold (0,0,0,0) p` (41 R141). -/
def derive (p : List Byte) : Key := p.foldl fold Key.zero

/-- `fromRaw(r)`: four little-endian words of 16 bytes (41 R141, 20 R61). -/
def fromRaw (r : List Byte) : Key :=
  { a := le32 (byteAt r 0) (byteAt r 1) (byteAt r 2) (byteAt r 3)
    b := le32 (byteAt r 4) (byteAt r 5) (byteAt r 6) (byteAt r 7)
    c := le32 (byteAt r 8) (byteAt r 9) (byteAt r 10) (byteAt r 11)
    d := le32 (byteAt r 12) (byteAt r 13) (byteAt r 14) (byteAt r 15) }

/-- KEY_CLEAR in `accept` (41 R142). -/
def acceptKeyClear (e : Engine) : Engine := { e with key := Key.zero }.finish true .none

/-- KEY_FOLD in `accept` (41 R143). -/
def acceptKeyFold (imm : Byte) (e : Engine) : Engine := { e with key := fold e.key imm }.finish true .none

/-- The start of KEY_PASS (41 R144): the accumulators start at 0 whatever KEY holds. -/
def acceptKeyPass (e : Engine) : Engine :=
  e.start .keyPass { acc := [], rem := some e.len, first := false, kacc := Key.zero }

/-- The start of KEY_RAW (41 R145). -/
def acceptKeyRaw (e : Engine) : Engine :=
  e.start .keyRaw { acc := [], rem := some 16, first := false, kacc := Key.zero }

/-- The KEY_PASS engine step (41 R146). -/
def keyPassStep (ctx : Ctx) (e : Engine) : Option Engine :=
  match ctx.rem with
  | none => none
  | some n =>
    if n = 0 then some ({ e with key := ctx.kacc }.finish true .none)
    else match e.inq with
      | .byte x :: _ => some (e.popIn.start .keyPass { ctx with kacc := fold ctx.kacc x, rem := some (n - 1) })
      | .endMark :: _ => some (e.popIn.finish false .shortInput)
      | [] => none

/-- The KEY_RAW engine step (41 R147). -/
def keyRawStep (ctx : Ctx) (e : Engine) : Option Engine :=
  if ctx.acc.length = 16 then some ({ e with key := fromRaw ctx.acc }.finish true .none)
  else match e.inq with
    | .byte x :: _ => some (e.popIn.start .keyRaw { ctx with acc := ctx.acc ++ [x] })
    | .endMark :: _ => some (e.popIn.finish false .shortInput)
    | [] => none

/-- KEY_CLEAR (41 R142, 40 R106, R107). -/
def execKeyClear (s : State) : Result := presentCommand 0x01 acceptKeyClear s

/-- KEY_FOLD (41 R143, 40 R106, R107). -/
def execKeyFold (imm : Byte) (s : State) : Result := presentCommand 0x02 (acceptKeyFold imm) s

/-- KEY_PASS (41 R144, 40 R106, R107). -/
def execKeyPass (s : State) : Result := presentCommand 0x03 acceptKeyPass s

/-- KEY_RAW (41 R145, 40 R106, R107). -/
def execKeyRaw (s : State) : Result := presentCommand 0x04 acceptKeyRaw s

end Sys2Proof.Machine
end

