-- ==== Sys2Proof/Machine/BlockCipher.lean ====
section
/-! DEFINITION. The block cipher (42_block_cipher.md): the round function, the word-level and byte-level transforms,
ENC_BLOCK, DEC_BLOCK and their step rule. -/

namespace Sys2Proof.Machine

open Sys2Proof

/-- `DELTA = 0x9E3779B9` (42 R160). -/
def delta : Word := 0x9E3779B9

/-- `F(v, s, k0, k1) = ((v << 4) + k0) ^ (v + s) ^ ((v >> 5) + k1)`, with a logical right shift (42 R161). -/
def mix (v sum k0 k1 : Word) : Word := ((v <<< 4) + k0) ^^^ (v + sum) ^^^ ((v >>> 5) + k1)

/-- The rounds of `encipher` from the sum reached so far: "repeat r times" (42 R162). -/
def encRounds (k : Key) : Nat → Word → Word → Word → Word × Word
  | 0, _, y, z => (y, z)
  | r + 1, sum, y, z =>
    let sum := sum + delta
    let y := y + mix z sum k.a k.b
    let z := z + mix y sum k.c k.d
    encRounds k r sum y z

/-- `encipher(y, z, k, r)` (42 R162). -/
def encipher (y z : Word) (k : Key) (r : Word) : Word × Word := encRounds k r.toNat 0 y z

/-- The rounds of `decipher` from the sum reached so far (42 R163). -/
def decRounds (k : Key) : Nat → Word → Word → Word → Word × Word
  | 0, _, y, z => (y, z)
  | r + 1, sum, y, z =>
    let z := z - mix y sum k.c k.d
    let y := y - mix z sum k.a k.b
    decRounds k r (sum - delta) y z

/-- `decipher(y, z, k, r)`, with `sum = DELTA * r` at the start (42 R163). -/
def decipher (y z : Word) (k : Key) (r : Word) : Word × Word := decRounds k r.toNat (delta * r) y z

/-- `encryptBlock(p, k, r)` (42 R164). -/
def encryptBlock (p : List Byte) (k : Key) (r : Word) : List Byte :=
  let w := encipher (blockY p) (blockZ p) k r
  blockBytes w.1 w.2

/-- `decryptBlock(p, k, r)` (42 R164). -/
def decryptBlock (p : List Byte) (k : Key) (r : Word) : List Byte :=
  let w := decipher (blockY p) (blockZ p) k r
  blockBytes w.1 w.2

/-- The initial context of ENC_BLOCK and DEC_BLOCK (42 R165, R166). -/
def blockCtx : Ctx := { acc := [], rem := some 0, first := false, kacc := Key.zero }

/-- The start of ENC_BLOCK (42 R165). -/
def acceptEncBlock (e : Engine) : Engine := e.start .encBlock blockCtx

/-- The start of DEC_BLOCK (42 R166). -/
def acceptDecBlock (e : Engine) : Engine := e.start .decBlock blockCtx

/-- The write of a block result into BLK_Y and BLK_Z (10 R26). -/
def Engine.setBlk (w : Word × Word) (e : Engine) : Engine := { e with blkY := w.1, blkZ := w.2 }

/-- The ENC_BLOCK engine step (42 R167): always enabled. -/
def encBlockStep (e : Engine) : Option Engine :=
  some ((e.setBlk (encipher e.blkY e.blkZ e.key e.rounds)).finish true .none)

/-- The DEC_BLOCK engine step (42 R167): always enabled. -/
def decBlockStep (e : Engine) : Option Engine :=
  some ((e.setBlk (decipher e.blkY e.blkZ e.key e.rounds)).finish true .none)

/-- ENC_BLOCK (42 R165, 40 R106, R107). -/
def execEncBlock (s : State) : Result := presentCommand 0x10 acceptEncBlock s

/-- DEC_BLOCK (42 R166, 40 R106, R107). -/
def execDecBlock (s : State) : Result := presentCommand 0x11 acceptDecBlock s

end Sys2Proof.Machine
end

