-- ==== Sys2Proof/Machine/Framer.lean ====
section
/-! DEFINITION. The padding framer (43_framer.md). -/

namespace Sys2Proof.Machine

open Sys2Proof

/-- `fill(n) = 8 - (n mod 8)`, in 1..8 (43 R180). -/
def fill (n : Nat) : Nat := 8 - n % 8

/-- `header(n)`: the fill marker and `fill(n) - 1` zero bytes (43 R181; the zeros are the spec's decision D8). -/
def header (n : Nat) : List Byte := BitVec.ofNat 8 (fill n) :: List.replicate (fill n - 1) 0

/-- `pad(p) = header(len p) ++ p` (43 R181). -/
def pad (p : List Byte) : List Byte := header p.length ++ p

/-- The fill marker of a decrypted first block, read as an unsigned byte (43 R183). -/
def fillMarker (q : List Byte) : Nat := (byteAt q 0).toNat

/-- `unpad(q)` (43 R184): a marker above 8 is BAD_FILL, else the content starts after it. -/
def unpad (q : List Byte) : Except ErrCode (List Byte) :=
  if fillMarker q > 8 then .error .badFill else .ok (q.drop (fillMarker q))

end Sys2Proof.Machine
end

