-- ==== Sys2Proof/Machine/BufferCodec.lean ====
section
/-! DEFINITION. The buffer codec (44_buffer_codec.md): the output functions, ENC_BUF, DEC_BUF, and the encrypt and decrypt
step rules that the stream commands share. -/

namespace Sys2Proof.Machine

open Sys2Proof

/-- Every whole block of `q` encrypted, joined in order (44 R190). -/
def encBlocks (q : List Byte) (k : Key) (r : Word) : List Byte := ((chunks8 q).map (encryptBlock · k r)).flatten

/-- Every whole block of `q` decrypted, joined in order (44 R190). -/
def decBlocks (q : List Byte) (k : Key) (r : Word) : List Byte := ((chunks8 q).map (decryptBlock · k r)).flatten

/-- `encBuf(p, k, r)` (44 R190). -/
def encBuf (p : List Byte) (k : Key) (r : Word) : List Byte :=
  if p.isEmpty then [] else encBlocks (pad p) k r

/-- `decBuf(c, k, r)` (44 R190). -/
def decBuf (c : List Byte) (k : Key) (r : Word) : Except ErrCode (List Byte) :=
  if c.length = 0 ∨ c.length % 8 ≠ 0 then .error .badLen else unpad (decBlocks c k r)

/-- The initial context of an encrypt run of `n` bytes: the header waits in `acc` (44 R191, 46 R223). -/
def encCtx (n : Quad) : Ctx := { acc := header n.toNat, rem := some n, first := false, kacc := Key.zero }

/-- The initial context of a decrypt run (44 R194, 46 R226). -/
def decCtx (rem : Option Quad) : Ctx := { acc := [], rem := rem, first := true, kacc := Key.zero }

/-- The start of ENC_BUF (44 R191): LEN = 0 finishes at once. -/
def acceptEncBuf (e : Engine) : Engine :=
  if e.len = 0 then e.finish true .none else e.start .encBuf (encCtx e.len)

/-- The start of DEC_BUF (44 R194): LEN = 0 or LEN mod 8 ≠ 0 finishes BAD_LEN at once. -/
def acceptDecBuf (e : Engine) : Engine :=
  if e.len = 0 ∨ e.len.toNat % 8 ≠ 0 then e.finish false .badLen else e.start .decBuf (decCtx (some e.len))

/-- The encrypt engine step (44 R192), for `op` ENC_BUF or ENC_STREAM. -/
def encryptStep (p : Params) (op : Op) (ctx : Ctx) (e : Engine) : Option Engine :=
  match ctx.rem with
  | none => none
  | some n =>
    if ctx.acc.length = 8 then
      if room p e 8 then some ((e.pushOut (encryptBlock ctx.acc e.key e.rounds)).start op { ctx with acc := [] })
      else none
    else if n = 0 then
      if ctx.acc.isEmpty then some (e.finish true .none) else some (e.finish false .partialBlock)
    else match e.inq with
      | .byte x :: _ => some (e.popIn.start op { ctx with acc := ctx.acc ++ [x], rem := some (n - 1) })
      | .endMark :: _ => some (e.popIn.finish false .shortInput)
      | [] => none

/-- The first lines of 44 R195, for the first full block of a decrypt run: the fill check comes before room is needed. -/
def decryptFirst (p : Params) (op : Op) (ctx : Ctx) (e : Engine) : Option Engine :=
  let q := decryptBlock ctx.acc e.key e.rounds
  if fillMarker q > 8 then some (e.finish false .badFill)
  else if room p e (8 - fillMarker q) then
    some ((e.pushOut (q.drop (fillMarker q))).start op { ctx with acc := [], first := false })
  else none

/-- The next lines of 44 R195, for a later full block. -/
def decryptLater (p : Params) (op : Op) (ctx : Ctx) (e : Engine) : Option Engine :=
  if room p e 8 then some ((e.pushOut (decryptBlock ctx.acc e.key e.rounds)).start op { ctx with acc := [] })
  else none

/-- The End line of 44 R195: SHORT_INPUT for DEC_BUF; for DEC_STREAM, OK at a block boundary and PARTIAL_BLOCK inside a
block. -/
def decryptEnd (op : Op) (ctx : Ctx) (e : Engine) : Engine :=
  if op = .decBuf then e.popIn.finish false .shortInput
  else if ctx.acc.isEmpty then e.popIn.finish true .none
  else e.popIn.finish false .partialBlock

/-- The decrypt engine step (44 R195), for `op` DEC_BUF or DEC_STREAM. -/
def decryptStep (p : Params) (op : Op) (ctx : Ctx) (e : Engine) : Option Engine :=
  if ctx.acc.length = 8 then
    if ctx.first then decryptFirst p op ctx e else decryptLater p op ctx e
  else if ctx.rem = some 0 then some (e.finish true .none)
  else match e.inq with
    | .byte x :: _ => some (e.popIn.start op { ctx with acc := ctx.acc ++ [x], rem := ctx.rem.map (· - 1) })
    | .endMark :: _ => some (decryptEnd op ctx e)
    | [] => none

/-- ENC_BUF (44 R191, 40 R106, R107). -/
def execEncBuf (s : State) : Result := presentCommand 0x20 acceptEncBuf s

/-- DEC_BUF (44 R194, 40 R106, R107). -/
def execDecBuf (s : State) : Result := presentCommand 0x21 acceptDecBuf s

end Sys2Proof.Machine
end

