-- ==== Sys2Proof/Machine/StreamCodec.lean ====
section
/-! DEFINITION. The stream codec (46_stream_codec.md): the output functions, ENC_STREAM, DEC_STREAM. Their engine steps are
the encrypt and decrypt steps of 44 R192 and R195. -/

namespace Sys2Proof.Machine

open Sys2Proof

/-- `encStream(p, k, r)` (46 R224). -/
def encStream (p : List Byte) (k : Key) (r : Word) : List Byte := encBlocks (pad p) k r

/-- `decStream(c, k, r)` (46 R225): the status a run over the bytes `c` before End finishes with (`.none` is OK), and the
bytes it pushes. -/
def decStream (c : List Byte) (k : Key) (r : Word) : ErrCode × List Byte :=
  let q := decBlocks c k r
  if c.isEmpty then (.none, [])
  else if 8 ≤ c.length ∧ fillMarker q > 8 then (.badFill, [])
  else
    let out := if 8 ≤ c.length then q.drop (fillMarker q) else []
    if c.length % 8 ≠ 0 then (.partialBlock, out) else (.none, out)

/-- The start of ENC_STREAM (46 R223): for every LEN, 0 included. -/
def acceptEncStream (e : Engine) : Engine := e.start .encStream (encCtx e.len)

/-- The start of DEC_STREAM (46 R226): LEN is ignored. -/
def acceptDecStream (e : Engine) : Engine := e.start .decStream (decCtx none)

/-- ENC_STREAM (46 R223, 40 R106, R107). -/
def execEncStream (s : State) : Result := presentCommand 0x22 acceptEncStream s

/-- DEC_STREAM (46 R226, 40 R106, R107). -/
def execDecStream (s : State) : Result := presentCommand 0x23 acceptDecStream s

end Sys2Proof.Machine
end

