-- ==== Sys2Proof/Machine/Control.lean ====
section
/-! DEFINITION. Command acceptance (40 R106-R109): NOP, the CMD write of any word, and the engine step relation (40 R113). -/

namespace Sys2Proof.Machine

open Sys2Proof

/-- NOP in `accept` (40 R109). -/
def acceptNop (e : Engine) : Engine := e.finish true .none

/-- An illegal word in `accept` (40 R108): it changes nothing but the status. -/
def acceptIllegal (e : Engine) : Engine := e.finish false .illegalCmd

/-- The arms of `accept(w)` for a legal word (40 R107). -/
def acceptLegal (w : Word) : Engine → Engine :=
  match (cmdOp w).toNat with
  | 0x00 => acceptNop
  | 0x01 => acceptKeyClear
  | 0x02 => acceptKeyFold (cmdImm w)
  | 0x03 => acceptKeyPass
  | 0x04 => acceptKeyRaw
  | 0x10 => acceptEncBlock
  | 0x11 => acceptDecBlock
  | 0x20 => acceptEncBuf
  | 0x21 => acceptDecBuf
  | 0x22 => acceptEncStream
  | 0x23 => acceptDecStream
  | _ => acceptIllegal

/-- `accept(w)` after its first lines (40 R107): legality comes before the op. -/
def acceptWord (w : Word) : Engine → Engine := if legal w then acceptLegal w else acceptIllegal

/-- NOP (40 R109, R106, R107). -/
def execNop (s : State) : Result := presentCommand 0x00 acceptNop s

/-- A write of any word to CMD (40 R106, R107, R108). -/
def execWrCmd (word : Word) (s : State) : Result := presentCommand (cmdOp word) (acceptWord word) s

/-- The engine step relation (40 R113): `none` means waiting or idle. -/
def engineStep (p : Params) (e : Engine) : Option Engine :=
  match e.seq with
  | .idle => none
  | .run .keyPass ctx => keyPassStep ctx e
  | .run .keyRaw ctx => keyRawStep ctx e
  | .run .encBlock _ => encBlockStep e
  | .run .decBlock _ => decBlockStep e
  | .run .encBuf ctx => encryptStep p .encBuf ctx e
  | .run .encStream ctx => encryptStep p .encStream ctx e
  | .run .decBuf ctx => decryptStep p .decBuf ctx e
  | .run .decStream ctx => decryptStep p .decStream ctx e

/-- The engine's turn: it takes its step, or, while idle or waiting, nothing happens (40 R113, R115; log 3). -/
def engineTurn (s : State) : State :=
  match engineStep s.params s.engine with
  | some e => s.setEngine e
  | none => s

end Sys2Proof.Machine
end

