-- ==== Sys2Proof/Machine/Dispatch.lean ====
section
/-! DEFINITION. The meaning of every instruction of the opcode table, one arm per constructor. -/

namespace Sys2Proof.Machine

open Sys2Proof

def exec (i : Instr) (s : State) : Host.Outcome State Fault Refusal :=
  match i with
  | .nop => Sys2Proof.Machine.execNop s
  | .keyClear => Sys2Proof.Machine.execKeyClear s
  | .keyFold imm => Sys2Proof.Machine.execKeyFold imm s
  | .keyPass => Sys2Proof.Machine.execKeyPass s
  | .keyRaw => Sys2Proof.Machine.execKeyRaw s
  | .encBlock => Sys2Proof.Machine.execEncBlock s
  | .decBlock => Sys2Proof.Machine.execDecBlock s
  | .encBuf => Sys2Proof.Machine.execEncBuf s
  | .decBuf => Sys2Proof.Machine.execDecBuf s
  | .encStream => Sys2Proof.Machine.execEncStream s
  | .decStream => Sys2Proof.Machine.execDecStream s
  | .rdId => Sys2Proof.Machine.execRdId s
  | .rdCfg => Sys2Proof.Machine.execRdCfg s
  | .rdCtrl => Sys2Proof.Machine.execRdCtrl s
  | .rdStatus => Sys2Proof.Machine.execRdStatus s
  | .rdCmd => Sys2Proof.Machine.execRdCmd s
  | .rdRounds => Sys2Proof.Machine.execRdRounds s
  | .rdLenLo => Sys2Proof.Machine.execRdLenLo s
  | .rdLenHi => Sys2Proof.Machine.execRdLenHi s
  | .rdKeyA => Sys2Proof.Machine.execRdKeyA s
  | .rdKeyB => Sys2Proof.Machine.execRdKeyB s
  | .rdKeyC => Sys2Proof.Machine.execRdKeyC s
  | .rdKeyD => Sys2Proof.Machine.execRdKeyD s
  | .rdBlkY => Sys2Proof.Machine.execRdBlkY s
  | .rdBlkZ => Sys2Proof.Machine.execRdBlkZ s
  | .rdFifoStat => Sys2Proof.Machine.execRdFifoStat s
  | .rdInCnt => Sys2Proof.Machine.execRdInCnt s
  | .rdOutCnt => Sys2Proof.Machine.execRdOutCnt s
  | .rdDin => Sys2Proof.Machine.execRdDin s
  | .rdDout => Sys2Proof.Machine.execRdDout s
  | .wrId data => Sys2Proof.Machine.execWrId data s
  | .wrCfg data => Sys2Proof.Machine.execWrCfg data s
  | .wrCtrl data => Sys2Proof.Machine.execWrCtrl data s
  | .wrStatus data => Sys2Proof.Machine.execWrStatus data s
  | .wrCmd word => Sys2Proof.Machine.execWrCmd word s
  | .wrRounds data => Sys2Proof.Machine.execWrRounds data s
  | .wrLenLo data => Sys2Proof.Machine.execWrLenLo data s
  | .wrLenHi data => Sys2Proof.Machine.execWrLenHi data s
  | .wrKeyA data => Sys2Proof.Machine.execWrKeyA data s
  | .wrKeyB data => Sys2Proof.Machine.execWrKeyB data s
  | .wrKeyC data => Sys2Proof.Machine.execWrKeyC data s
  | .wrKeyD data => Sys2Proof.Machine.execWrKeyD data s
  | .wrBlkY data => Sys2Proof.Machine.execWrBlkY data s
  | .wrBlkZ data => Sys2Proof.Machine.execWrBlkZ data s
  | .wrFifoStat data => Sys2Proof.Machine.execWrFifoStat data s
  | .wrInCnt data => Sys2Proof.Machine.execWrInCnt data s
  | .wrOutCnt data => Sys2Proof.Machine.execWrOutCnt data s
  | .wrDin data => Sys2Proof.Machine.execWrDin data s
  | .wrDout data => Sys2Proof.Machine.execWrDout data s
  | .rdReserved04c04c => Sys2Proof.Machine.execRdReserved04c04c s
  | .rdReserved05005c off => Sys2Proof.Machine.execRdReserved05005c off s
  | .rdReserved06007c off => Sys2Proof.Machine.execRdReserved06007c off s
  | .rdReserved0800fc off => Sys2Proof.Machine.execRdReserved0800fc off s
  | .wrReserved04c04c data => Sys2Proof.Machine.execWrReserved04c04c data s
  | .wrReserved05005c off data => Sys2Proof.Machine.execWrReserved05005c off data s
  | .wrReserved06007c off data => Sys2Proof.Machine.execWrReserved06007c off data s
  | .wrReserved0800fc off data => Sys2Proof.Machine.execWrReserved0800fc off data s
  | .buserrSize1byte write bit12 off => Sys2Proof.Machine.execBuserrSize1byte write bit12 off s
  | .buserrSize2byte write bit12 off => Sys2Proof.Machine.execBuserrSize2byte write bit12 off s
  | .buserrSize8byte write bit12 off => Sys2Proof.Machine.execBuserrSize8byte write bit12 off s
  | .buserrMisaligned1 write bit12 off => Sys2Proof.Machine.execBuserrMisaligned1 write bit12 off s
  | .buserrMisaligned2 write bit12 off => Sys2Proof.Machine.execBuserrMisaligned2 write bit12 off s
  | .buserrMisaligned3 write bit12 off => Sys2Proof.Machine.execBuserrMisaligned3 write bit12 off s

end Sys2Proof.Machine
end

