-- ==== Sys2Proof/Machine/Step.lean ====
section
/-! DEFINITION. One step of the machine: the next event at its port (60 R249), and how an instruction is put there. -/

namespace Sys2Proof.Machine

open Sys2Proof

/-- One atomic step (00 R18, 20 R65, 60 R249). A host transaction at the head of the port is decoded and executed; an
engine turn, or an empty port, is the engine's (log 2). -/
def step (s : State) : Host.Outcome State Fault Refusal :=
  match s.port with
  | .host a :: rest =>
    match fetchInstr a with
    | .ok i => exec i { s with port := rest }
    | .error r => .refused r
  | .engine :: rest => .next (engineTurn { s with port := rest })
  | [] => .next (engineTurn s)

/-- The state in which the host has issued the transaction `a` as the next event at the port. -/
def State.issue (s : State) (a : Access) : State := { s with port := .host a :: s.port }

/-- The state in which the transaction with the bits `w` is the next event at the port (log 1). -/
def State.withFetchWord (s : State) (nbits w : Nat) : State :=
  s.issue (tableAccess nbits w)

end Sys2Proof.Machine
end

