-- ==== Sys2Proof/Machine/Runs.lean ====
section
/-! DEFINITION. Runs: several enabled engine steps in a row (70 R282 counts them), several instructions in a row, several
events at the port with the bytes the host pops and the entries it pushes, and the weak fairness of 40 R115. -/

namespace Sys2Proof.Machine

open Sys2Proof

/-- `k` enabled engine steps in a row, no transaction between them; `none` if one of them is not enabled (40 R113). -/
def engineRun (p : Params) : Nat → Engine → Option Engine
  | 0, e => some e
  | k + 1, e =>
    match engineStep p e with
    | some e => engineRun p k e
    | none => none

/-- Instructions executed one after the other, no engine step between them. -/
def execAll : List Instr → State → Result
  | [], s => .next s
  | i :: is, s =>
    match exec i s with
    | .next t => execAll is t
    | .fault r => .fault r
    | .refused r => .refused r

/-! ### Events at the port (60 R249) -/

/-- The event `ev` happens next: it is put at the head of the port, and the step takes it off again. -/
def takeEvent (ev : PortEvent) (s : State) : Result := step { s with port := ev :: s.port }

/-- The bytes a read at `off` that returned `v` gives the host: DATA of a DOUT read with VALID = 1 (10 R42). -/
def poppedBy (off : BitVec 12) (v : Word) : List Byte :=
  if off = 0x048 ∧ v.getLsbD 8 then [v.extractLsb' 0 8] else []

/-- The bytes the host has popped with the event `ev`, after which the state is `t`. -/
def poppedAt (ev : PortEvent) (t : State) : List Byte :=
  match ev with
  | .host (.bus d _) => if d = readDescriptor 0x048 then poppedBy 0x048 t.v else []
  | .host (.command _) | .engine => []

/-- The events `evs` one after the other: the state after them, and the bytes the host has popped with them, in order. -/
def runEvents : List PortEvent → State → Host.Outcome (State × List Byte) Fault Refusal
  | [], s => .next (s, [])
  | ev :: evs, s =>
    match takeEvent ev s with
    | .next t =>
      match runEvents evs t with
      | .next (u, popped) => .next (u, poppedAt ev t ++ popped)
      | .fault r => .fault r
      | .refused r => .refused r
    | .fault r => .fault r
    | .refused r => .refused r

/-- The word a transaction writes to the register at `off`, if it writes there (30 R85; 40 R106 for a command word). -/
def writtenTo (off : BitVec 12) : Access → Option Word
  | .bus d w => if d = writeDescriptor off then some w else none
  | .command w => if off = 0x010 then some w else none

/-- The transaction reads the register at `off` (30 R85). -/
def readsFrom (off : BitVec 12) : Access → Bool
  | .bus d _ => d == readDescriptor off
  | .command _ => false

/-- The entries the events write to DIN, in order (10 R41). -/
def pushedEntries (evs : List PortEvent) : List InEntry :=
  evs.filterMap fun
    | .host a => (writtenTo 0x044 a).map dinEntry
    | .engine => none

/-- The event is a transfer: a turn of the engine, a DIN write, or a read of any register. "The pattern of DIN writes, DOUT
reads and waits" (46 R229) is a list of transfers. -/
def isTransfer : PortEvent → Bool
  | .engine => true
  | .host (.bus d _) => !descWrite d || d == writeDescriptor 0x044
  | .host (.command _) => false

/-- The event is a poll: a turn of the engine, or a read of a register other than DOUT, which has no side effect (20 R66). -/
def isPoll : PortEvent → Bool
  | .engine => true
  | .host (.bus d _) => !descWrite d && d != readDescriptor 0x048
  | .host (.command _) => false

/-! ### Weak fairness (40 R115) -/

/-- The engine has an enabled step (40 R113). -/
def State.engineEnabled (s : State) : Prop := ∃ e, engineStep s.params s.engine = some e

/-- "An engine step that stays enabled is eventually taken (weak fairness)" (40 R115): from no point on does a step stay
enabled for ever without being taken. -/
def WeaklyFair (enabled taken : Nat → Prop) : Prop :=
  ∀ n, (∀ m, n ≤ m → enabled m) → ∃ m, n ≤ m ∧ taken m

/-- An execution without end: `states n` is the state before `events n`, and the event leads to `states (n + 1)`. A fault or
a refusal has no place in it ("no BusError recorded", 60 R244). -/
structure Execution (states : Nat → State) (events : Nat → PortEvent) : Prop where
  /-- Each event leads to the next state. -/
  takes : ∀ n, takeEvent (events n) (states n) = .next (states (n + 1))
  /-- The fairness assumption of the observation (40 R115). -/
  fair : WeaklyFair (fun n => (states n).engineEnabled) (fun n => events n = .engine)

end Sys2Proof.Machine
end

