-- ==== Sys2Proof/Machine/HostAsm.lean ====
section
/-! DEFINITION. The host assembly of 30 R87 and R88: host software that drives the engine. The branches run on the host; a
`WR` or an `RD` is one transaction at the port. Labels are resolved to statement numbers (DESIGN CHOICE, log 16). -/

namespace Sys2Proof.Machine

open Sys2Proof

/-- A statement of the host assembly (30 R87). A branch target is the number of a statement, from 0. -/
inductive HostStmt where
  /-- `WR <reg>, <imm32>`: a 4-byte write. -/
  | wr (off : BitVec 12) (imm : Word)
  /-- `RD <reg>`: a 4-byte read, whose value goes to the host variable `v`. -/
  | rd (off : BitVec 12)
  /-- `BEQ <mask>, <value>, <label>`: taken when `(v & mask) == value`. -/
  | beq (mask value : Word) (target : Nat)
  /-- `BNE <mask>, <value>, <label>`: taken when `(v & mask) != value`. -/
  | bne (mask value : Word) (target : Nat)
  /-- `HALT`: end of program. -/
  | halt
deriving DecidableEq, Repr

/-- A host program: its statements, and, where it has a source and a sink that can fail, the number of the statement at
which the host goes on when one of them does (45 R217; 60 R240 (d)). -/
structure HostProgram where
  stmts : List HostStmt
  onFailure : Option Nat
deriving DecidableEq, Repr

/-- Which collaborator of a stream wrapper has failed (60 R240 (d)). -/
inductive IoFailure where
  /-- A read of the source. -/
  | source
  /-- A write of the sink. -/
  | sink
deriving DecidableEq, Repr

/-- A host that runs a program over the machine. -/
structure HostRun where
  /-- The machine. -/
  state : State
  /-- The next statement's number. -/
  pc : Nat
  /-- The host has halted. -/
  halted : Bool
  /-- The bytes its DOUT reads popped with VALID = 1, in order. -/
  popped : List Byte
  /-- The bytes it has given to its sink: those popped before the sink failed. What a sink holds after a failed write the
  spec does not say; that the byte whose write failed counts as given is the model's (DESIGN CHOICE, log 17). -/
  sink : List Byte
  /-- Its source or its sink has failed. -/
  failure : Option IoFailure
deriving DecidableEq, Repr

/-- A host program at its first statement. -/
def HostRun.init (s : State) : HostRun :=
  { state := s, pc := 0, halted := false, popped := [], sink := [], failure := none }

/-- The host gets the bytes `bytes` from a DOUT read: it gives them to its sink, unless the sink has failed. -/
def HostRun.receive (bytes : List Byte) (h : HostRun) : HostRun :=
  { h with
    popped := h.popped ++ bytes
    sink := if h.failure = some .sink then h.sink else h.sink ++ bytes }

/-- The transaction at the port, taken as the next event (20 R65). It reaches the engine at once: the host property
HOST_IO_ORDERED, which 20 R71 leaves OPEN, is taken to hold (DESIGN CHOICE, log 12). -/
def transact (a : Access) (s : State) : Result := takeEvent (.host a) s

/-- A `WR` (30 R85, R87). -/
def writeReg (off : BitVec 12) (imm : Word) (s : State) : Result := transact (.bus (writeDescriptor off) imm) s

/-- An `RD` (30 R85, R87). -/
def readReg (off : BitVec 12) (s : State) : Result := transact (.bus (readDescriptor off) 0) s

/-- The host's move: one statement of its program (30 R87). Past the last statement the host has halted. Each `WR` and `RD`
reaches the engine once, in program order, none merged, split, repeated or speculated: the host programs of this model are
those of a host for which HOST_IO_ORDERED holds, the premise that 20 R71 leaves OPEN (DESIGN CHOICE, log 12). -/
def hostMove (prog : List HostStmt) (h : HostRun) : Host.Outcome HostRun Fault Refusal :=
  if h.halted then .next h
  else match prog[h.pc]? with
    | none => .next { h with halted := true }
    | some .halt => .next { h with halted := true }
    | some (.beq mask value target) =>
      .next { h with pc := if h.state.v &&& mask = value then target else h.pc + 1 }
    | some (.bne mask value target) =>
      .next { h with pc := if h.state.v &&& mask ≠ value then target else h.pc + 1 }
    | some (.wr off imm) =>
      match writeReg off imm h.state with
      | .next s => .next { h with state := s, pc := h.pc + 1 }
      | .fault r => .fault r
      | .refused r => .refused r
    | some (.rd off) =>
      match readReg off h.state with
      | .next s => .next ({ h with state := s, pc := h.pc + 1 }.receive (poppedBy off s.v))
      | .fault r => .fault r
      | .refused r => .refused r

/-- The engine's move beside a host program (60 R249). -/
def engineMove (h : HostRun) : HostRun := { h with state := engineTurn h.state }

/-- The host's source or sink fails: the host goes on at its failure statement, once, if its program has one (45 R217). -/
def failureMove (prog : HostProgram) (failure : IoFailure) (h : HostRun) : HostRun :=
  if h.halted || h.failure.isSome then h
  else match prog.onFailure with
    | some target => { h with pc := target, failure := some failure }
    | none => h

/-- What can happen next beside a host program. -/
inductive HostTurn where
  /-- The host takes the next statement of its program. -/
  | host
  /-- The engine sequencer's turn (60 R249). -/
  | engine
  /-- A read of the source or a write of the sink fails (60 R240 (d)). -/
  | ioFailure (failure : IoFailure)
deriving DecidableEq, Repr

/-- One turn of a host program and the engine. -/
def takeTurn (prog : HostProgram) (turn : HostTurn) (h : HostRun) : Host.Outcome HostRun Fault Refusal :=
  match turn with
  | .host => hostMove prog.stmts h
  | .engine => .next (engineMove h)
  | .ioFailure failure => .next (failureMove prog failure h)

/-- A host program and the engine under the first turns of a schedule (60 R249). -/
def runSchedule (prog : HostProgram) : List HostTurn → HostRun → Host.Outcome HostRun Fault Refusal
  | [], h => .next h
  | turn :: rest, h =>
    match takeTurn prog turn h with
    | .next h => runSchedule prog rest h
    | .fault r => .fault r
    | .refused r => .refused r

/-- A schedule of a host program without end, `turns`, under which the run goes through `runs`. It is weakly fair (40 R115):
a host that polls for ever does not keep an enabled engine step from being taken. -/
structure HostExecution (prog : HostProgram) (runs : Nat → HostRun) (turns : Nat → HostTurn) : Prop where
  /-- Each turn leads to the next run. -/
  takes : ∀ n, takeTurn prog (turns n) (runs n) = .next (runs (n + 1))
  /-- The fairness assumption of the observation (40 R115). -/
  fair : WeaklyFair (fun n => (runs n).state.engineEnabled) (fun n => turns n = .engine)

/-! ### The pseudo-instructions (30 R88) -/

/-- `CMD <mnemonic>`: `WR CMD, <OP>`. -/
def asmCmd (op : Byte) : List HostStmt := [.wr 0x010 (op.setWidth 32)]

/-- `KEY_FOLD <imm8>`: `WR CMD, 0x02 | imm8<<8`. -/
def asmKeyFold (imm : Byte) : List HostStmt := [.wr 0x010 (0x02 ||| imm.setWidth 32 <<< 8)]

/-- `PUSH <b>`: `WR DIN, <b>`. -/
def asmPush (b : Byte) : List HostStmt := [.wr 0x044 (b.setWidth 32)]

/-- `PUSHEND`: `WR DIN, 0x100`. -/
def asmPushEnd : List HostStmt := [.wr 0x044 0x100]

/-- `POP`: `RD DOUT`. -/
def asmPop : List HostStmt := [.rd 0x048]

/-- `SETLEN <n>`: `WR LEN_LO, n mod 2^32` then `WR LEN_HI, n div 2^32`. -/
def asmSetLen (n : Quad) : List HostStmt := [.wr 0x018 (lenLo n), .wr 0x01C (lenHi n)]

/-- `SETKEY <a>,<b>,<c>,<d>`. -/
def asmSetKey (k : Key) : List HostStmt := [.wr 0x020 k.a, .wr 0x024 k.b, .wr 0x028 k.c, .wr 0x02C k.d]

/-- `WAITDONE` at statement number `here`: `L: RD STATUS` then `BEQ 0x2, 0x0, L`. -/
def asmWaitDone (here : Nat) : List HostStmt := [.rd 0x00C, .beq 0x2 0x0 here]

/-- `ACK`: `WR STATUS, 0x302`. -/
def asmAck : List HostStmt := [.wr 0x00C 0x302]

/-- `ABORT`: `WR CTRL, 0x4`. -/
def asmAbort : List HostStmt := [.wr 0x008 0x4]

/-- `SRST`: `WR CTRL, 0x2`. -/
def asmSrst : List HostStmt := [.wr 0x008 0x2]

/-- `FLUSH`: `WR CTRL, 0x18`. -/
def asmFlush : List HostStmt := [.wr 0x008 0x18]

end Sys2Proof.Machine
end

