-- ==== Sys2Proof/Machine/HostLayer.lean ====
section
/-! DEFINITION. The host layer (45_host_string_codec.md): "host software that runs on the engine, not the engine itself".
The results of the public operations as functions, the transaction sequences of 45 R211, R214, R215, R217, R218 as host
programs, and what a run of such a program returns. -/

namespace Sys2Proof.Machine

open Sys2Proof

/-! ### Byte wrappers (45 R211) -/

/-- The result of `encryptBytes(p, key, rounds)` (45 R211). -/
def encryptBytes (p : List Byte) (k : Key) (r : Word := 32) : List Byte := encBuf p k r

/-- The result of `decryptBytes(c, key, rounds)`: "empty on failure" (45 R211). -/
def decryptBytes (c : List Byte) (k : Key) (r : Word := 32) : List Byte :=
  match decBuf c k r with
  | .ok x => x
  | .error _ => []

/-! ### String codec (45 R212-R215) -/

/-- `hash(s) = foldl (h, x => h*31 + zext_64(x)) 0 s`, modulo 2^64 (45 R212). -/
def checksum (s : List Byte) : Quad := s.foldl (fun h x => h * 31 + x.setWidth 64) 0

/-- `bytesBE64(h)` (45 R213). -/
def bytesBE64 (h : Quad) : List Byte := bytesBE32 (lenHi h) ++ bytesBE32 (lenLo h)

/-- `BE64` of 8 bytes, the inverse of `bytesBE64` (45 R213, R215). -/
def be64 (b : List Byte) : Quad := lenOf (blockY b) (blockZ b)

/-- `encryptString(text, key, rounds)` (45 R214). -/
def encryptString (t : List Byte) (k : Key) (r : Word := 32) : List Byte := encryptBytes (bytesBE64 (checksum t) ++ t) k r

/-- What `decryptString` makes of the decrypted bytes `x` (45 R215): the text and ok; the text of a failure is empty. -/
def checkString (x : List Byte) : List Byte × Bool :=
  if x.length < 8 then ([], false)
  else if checksum (x.drop 8) ≠ be64 (x.take 8) then ([], false)
  else (x.drop 8, true)

/-- `decryptString(ciphertext, key, rounds) -> (text, ok)` (45 R215). -/
def decryptString (c : List Byte) (k : Key) (r : Word := 32) : List Byte × Bool := checkString (decryptBytes c k r)

/-! ### The parts of the host programs (45 R210) -/

/-- "It loads KEY and ROUNDS before the command" (45 R210): 5 statements. -/
def asmLoad (k : Key) (r : Word) : List HostStmt := asmSetKey k ++ [.wr 0x014 r]

/-- A DIN write at statement number `here` under the protocol of 45 R210: while FIFO_STAT.IN_FULL the host pops, so that no
entry is dropped and the run does not wait for room; when the command has ended meanwhile (DONE), it goes to `drainAt`
instead, where it would only wait for ever (DESIGN CHOICE, log 16). 7 statements. -/
def asmChecked (here drainAt : Nat) (write : List HostStmt) : List HostStmt :=
  [.rd 0x038, .beq 0x10000 0x0 (here + 6), .rd 0x048, .rd 0x00C, .beq 0x2 0x0 here, .beq 0x0 0x0 drainAt] ++ write

/-- `PUSH` of each byte under the protocol, the first at statement number `here`. -/
def asmPushAll (here drainAt : Nat) : List Byte → List HostStmt
  | [] => []
  | b :: bs => asmChecked here drainAt (asmPush b) ++ asmPushAll (here + 7) drainAt bs

/-- "drain; WAITDONE" at statement number `here` (45 R210): pop until VALID = 0, look at DONE, pop again, and read the
command's STATUS. When OK = 0, FLUSH_IN takes out the entries the command left (45 R211, 70 R277 duty 4; it writes IE = 0,
as `FLUSH` does, 30 R88). 10 statements. -/
def asmDrain (here : Nat) : List HostStmt :=
  [.rd 0x048, .bne 0x100 0x0 here, .rd 0x00C, .beq 0x2 0x0 here,
   .rd 0x048, .bne 0x100 0x0 (here + 4), .rd 0x00C, .beq 0x4 0x4 (here + 9), .wr 0x008 0x8, .halt]

/-- "A source or sink I/O failure is handled by `ABORT`" (45 R217), at statement number `here`: the run ends ABORTED; the host
still drains the output until VALID = 0 (45 R210, 70 R277 duty 2), reads STATUS, and flushes the entries the run left (70 R277
duty 4). -/
def asmOnFailure (here : Nat) : List HostStmt :=
  asmAbort ++ [.rd 0x048, .bne 0x100 0x0 (here + 1), .rd 0x00C, .wr 0x008 0x8, .halt]

/-- A buffer command over the bytes `p`: KEY and ROUNDS, SETLEN, CMD, the pushes, drain and wait. -/
def asmBuffer (op : Byte) (p : List Byte) (k : Key) (r : Word) : HostProgram :=
  let drainAt := 8 + 7 * p.length
  { stmts := asmLoad k r ++ asmSetLen (BitVec.ofNat 64 p.length) ++ asmCmd op ++ asmPushAll 8 drainAt p ++ asmDrain drainAt
    onFailure := none }

/-! ### The host programs -/

/-- The host program of `encryptBytes` (45 R211). -/
def encryptBytesProgram (p : List Byte) (k : Key) (r : Word := 32) : HostProgram := asmBuffer 0x20 p k r

/-- The host program of `decryptBytes` (45 R211). -/
def decryptBytesProgram (c : List Byte) (k : Key) (r : Word := 32) : HostProgram := asmBuffer 0x21 c k r

/-- The host program of `encryptString` (45 R214). -/
def encryptStringProgram (t : List Byte) (k : Key) (r : Word := 32) : HostProgram :=
  encryptBytesProgram (bytesBE64 (checksum t) ++ t) k r

/-- The host program of `decryptString` (45 R215). -/
def decryptStringProgram (c : List Byte) (k : Key) (r : Word := 32) : HostProgram := decryptBytesProgram c k r

/-- The host program of `encryptStream` over a source of `total` promised bytes that yields `p`: at most `total` bytes are
pushed, then End if the source ends early (45 R217). -/
def encryptStreamProgram (total : Quad) (p : List Byte) (k : Key) (r : Word := 32) : HostProgram :=
  let q := p.take total.toNat
  let pushed := 8 + 7 * q.length
  let early := decide (q.length < total.toNat)
  let drainAt := if early then pushed + 7 else pushed
  { stmts := asmLoad k r ++ asmSetLen total ++ asmCmd 0x22 ++ asmPushAll 8 drainAt q
      ++ (if early then asmChecked pushed drainAt asmPushEnd else []) ++ asmDrain drainAt
      ++ asmOnFailure (drainAt + 10)
    onFailure := some (drainAt + 10) }

/-- `encryptStream` over a source `p` of unknown length: "the caller counts bytes first, a full pre-read, before encryption
begins" (45 R217, 70 R280). -/
def encryptCountedStreamProgram (p : List Byte) (k : Key) (r : Word := 32) : HostProgram :=
  encryptStreamProgram (BitVec.ofNat 64 p.length) p k r

/-- The host program of `decryptStream` (45 R218). -/
def decryptStreamProgram (c : List Byte) (k : Key) (r : Word := 32) : HostProgram :=
  let pushed := 6 + 7 * c.length
  let drainAt := pushed + 7
  { stmts := asmLoad k r ++ asmCmd 0x23 ++ asmPushAll 6 drainAt c ++ asmChecked pushed drainAt asmPushEnd
      ++ asmDrain drainAt ++ asmOnFailure (drainAt + 10)
    onFailure := some (drainAt + 10) }

/-! ### What a run returns; nothing before it has halted -/

/-- STATUS.OK in the STATUS value that the programs above read last (10 R30). -/
def HostRun.statusOk (h : HostRun) : Bool := h.state.v.getLsbD 2

/-- "return the drained bytes" of `encryptBytes` (45 R211). -/
def HostRun.encryptedBytes (h : HostRun) : Option (List Byte) := if h.halted then some h.popped else none

/-- `return (STATUS.OK == 1) ? drained bytes : []` of `decryptBytes` (45 R211): empty on BAD_LEN, BAD_FILL, SHORT_INPUT and
ABORTED. -/
def HostRun.decryptedBytes (h : HostRun) : Option (List Byte) :=
  if h.halted then some (if h.statusOk then h.popped else []) else none

/-- The text and ok of `decryptString` (45 R215). -/
def HostRun.decryptedString (h : HostRun) : Option (List Byte × Bool) := h.decryptedBytes.map checkString

/-- `ok = STATUS.OK` of `encryptStream` and `decryptStream` (45 R217, R218), whose output is `HostRun.sink`; and false when
the source or the sink failed, even when the failure came after the run had finished (DESIGN CHOICE, log 17). -/
def HostRun.streamOk (h : HostRun) : Option Bool := if h.halted then some (h.statusOk && h.failure.isNone) else none

end Sys2Proof.Machine
end

