-- ==== Sys2Proof/Safety.lean ====
section
/-! DEFINITION. What counts as a good state and a good run, in the terms the statements use: the invariants of 10 R47 and
R40, the result table of 60 R242, the two waits of 40 R113, the launch premise and the end of a command (70 R275, R276),
and the output a run is still to push (46 R229). -/

namespace Sys2Proof.Machine

open Sys2Proof

/-- ENC_BUF or ENC_STREAM. -/
def Op.encrypts : Op → Bool
  | .encBuf | .encStream => true
  | .keyPass | .keyRaw | .encBlock | .decBlock | .decBuf | .decStream => false

/-- DEC_BUF or DEC_STREAM. -/
def Op.decrypts : Op → Bool
  | .decBuf | .decStream => true
  | .keyPass | .keyRaw | .encBlock | .decBlock | .encBuf | .encStream => false

/-- "Every reachable state satisfies all of the following" (10 R47), clause by clause. -/
structure Engine.Inv (p : Params) (e : Engine) : Prop where
  /-- `len(inq) ≤ IN_DEPTH`. -/
  inq_le : e.inq.length ≤ p.inDepth
  /-- `len(outq) ≤ OUT_DEPTH`. -/
  outq_le : e.outq.length ≤ p.outDepth
  /-- BUSY = 1 exactly when `seq ≠ Idle`. -/
  busy_iff : e.busy = true ↔ e.seq ≠ .idle
  /-- `done ∧ busy` is false. -/
  not_done_busy : ¬(e.done = true ∧ e.busy = true)
  /-- `ok` implies `err = 0`. -/
  ok_err : e.ok = true → e.err = 0
  /-- In a run of a codec op, `len(ctx.acc) ≤ 8`. -/
  acc_codec : ∀ op ctx, e.seq = .run op ctx → op.encrypts || op.decrypts → ctx.acc.length ≤ 8
  /-- In `Run KEY_RAW`, `len(ctx.acc) ≤ 16`. -/
  acc_raw : ∀ ctx, e.seq = .run .keyRaw ctx → ctx.acc.length ≤ 16
  /-- In `Run DEC_BUF`, `ctx.rem = some n` with `(n + len(ctx.acc)) mod 8 = 0`. -/
  rem_decBuf : ∀ ctx, e.seq = .run .decBuf ctx → ∃ n, ctx.rem = some n ∧ (n.toNat + ctx.acc.length) % 8 = 0
  /-- In a run of an encrypt op, `(len(ctx.acc) + ctx.rem) mod 8 = 0`. -/
  rem_encrypt : ∀ op ctx, e.seq = .run op ctx → op.encrypts → ∃ n, ctx.rem = some n ∧ (ctx.acc.length + n.toNat) % 8 = 0

/-- R47 of the machine. -/
def State.Inv (s : State) : Prop := s.engine.Inv s.params

/-- What the fields of `ctx` hold in a run of `op` (10 R40; 41 R144, R145; 42 R165; 44 R191, R194; 46 R223, R226). -/
def Ctx.Shape (ctx : Ctx) : Op → Prop
  | .keyPass => ctx.acc = [] ∧ ctx.rem ≠ none
  | .keyRaw => ctx.acc.length ≤ 16 ∧ ctx.rem = some 16
  | .encBlock | .decBlock => ctx.acc = [] ∧ ctx.rem = some 0
  | .encBuf | .encStream => ctx.acc.length ≤ 8 ∧ ctx.rem ≠ none ∧ ctx.first = false
  | .decBuf => ctx.acc.length ≤ 8 ∧ ctx.rem ≠ none
  | .decStream => ctx.acc.length ≤ 8 ∧ ctx.rem = none

/-- The context of a run has the shape of its op. -/
def Engine.RunShape (e : Engine) : Prop := ∀ op ctx, e.seq = .run op ctx → ctx.Shape op

/-- The error codes a command with the opcode `op` can finish with: the columns of 60 R242. The codes 0 (no error) and 1
(ILLEGAL_CMD, "any word") are open to all. -/
def errAllowed (op : Byte) (code : BitVec 4) : Bool :=
  match code.toNat with
  | 0 | 1 => true
  | 2 => op == 0x21
  | 3 => op == 0x21 || op == 0x23
  | 4 => op == 0x03 || op == 0x04 || op == 0x20 || op == 0x21 || op == 0x22
  | 5 => op == 0x23
  | 6 => [0x03, 0x04, 0x10, 0x11, 0x20, 0x21, 0x22, 0x23].contains op
  | _ => false

/-- The status agrees with the result table (60 R241, R242; 70 R278 (b)). -/
structure Engine.ResultTable (e : Engine) : Prop where
  /-- During a run OP is the running command's opcode, and OK and ERR read 0. -/
  running : ∀ op ctx, e.seq = .run op ctx → e.lastOp = op.code ∧ e.ok = false ∧ e.err = 0
  /-- ERR is a code the command can finish with. -/
  allowed : errAllowed e.lastOp e.err = true
  /-- Only one of the eleven opcodes finishes OK. -/
  ok_opcode : e.ok = true → e.lastOp ∈ opcodes
  /-- ERR = 0 exactly when OK = 1 after a finish. -/
  ok_iff : e.done = true → (e.ok = true ↔ e.err = 0)

/-- The next step of the engine must take an input entry (40 R113, "input wait"). -/
def needsInput (e : Engine) : Prop :=
  match e.seq with
  | .idle => False
  | .run .keyPass ctx => ctx.rem ≠ some 0
  | .run .keyRaw ctx => ctx.acc.length ≠ 16
  | .run .encBlock _ | .run .decBlock _ => False
  | .run .encBuf ctx | .run .encStream ctx => ctx.acc.length ≠ 8 ∧ ctx.rem ≠ some 0
  | .run .decBuf ctx | .run .decStream ctx => ctx.acc.length ≠ 8 ∧ ctx.rem ≠ some 0

/-- The next step of the engine must push `k` bytes (40 R113, "output wait"). -/
def mustPush (e : Engine) (k : Nat) : Prop :=
  match e.seq with
  | .idle | .run .keyPass _ | .run .keyRaw _ | .run .encBlock _ | .run .decBlock _ => False
  | .run .encBuf ctx | .run .encStream ctx => ctx.acc.length = 8 ∧ k = 8
  | .run .decBuf ctx | .run .decStream ctx =>
    ctx.acc.length = 8 ∧
      if ctx.first then
        fillMarker (decryptBlock ctx.acc e.key e.rounds) ≤ 8 ∧
          k = 8 - fillMarker (decryptBlock ctx.acc e.key e.rounds)
      else k = 8

/-- `cleanEntry(s)`, where `entries` are the entries the host means for the command (70 R275). -/
def State.cleanEntry (s : State) (entries : List InEntry) : Prop :=
  s.engine.seq = .idle ∧ s.engine.inq = entries ∧ s.engine.outq = [] ∧ s.engine.rej = false ∧ s.engine.ovf = false

/-- A command has finished: "the engine is in Idle with DONE = 1" (70 R276; the end by a reset is in
`CommandUse.endedBy`). -/
def State.finished (s : State) : Prop := s.engine.seq = .idle ∧ s.engine.done = true

/-- The run waits for room in the output FIFO (40 R113, "output wait"). -/
def State.outputWaits (s : State) : Prop :=
  ∃ k, mustPush s.engine k ∧ ¬s.engine.outq.length + k ≤ s.params.outDepth

/-- The states the machine can be in after any number of steps from power-on reset, whatever the parameters and whatever
the port brings (70 R270). -/
inductive Reachable : State → Prop where
  | reset (p : Params) (v : Word) (port : List PortEvent) (legal : p.Legal) :
      Reachable { engine := Engine.reset, params := p, v := v, port := port }
  | step (s t : State) (r : Reachable s) (h : step s = .next t) : Reachable t

/-- The bytes of the input FIFO before its first End. -/
def bytesBeforeEnd : List InEntry → List Byte
  | .byte b :: rest => b :: bytesBeforeEnd rest
  | .endMark :: _ => []
  | [] => []

/-- The bytes a run is still to consume, as far as they are in the input FIFO (10 R40). -/
def pendingInput (rem : Option Quad) (inq : List InEntry) : List Byte :=
  match rem with
  | some n => (bytesBeforeEnd inq).take n.toNat
  | none => bytesBeforeEnd inq

/-- The content of decrypted blocks of which the first one is (`first`) or is not the first of the run (43 R184, R185). -/
def decContent (first : Bool) (q : List Byte) : List Byte :=
  if first then
    if q.isEmpty then [] else if fillMarker q > 8 then [] else q.drop (fillMarker q)
  else q

/-- The output the running codec command is still to push for the input it holds: the pending bytes and the entries in the
FIFO, in whole blocks (46 R229; empty for every other state). -/
def futureOutput (e : Engine) : List Byte :=
  match e.seq with
  | .run .encBuf ctx | .run .encStream ctx => encBlocks (ctx.acc ++ pendingInput ctx.rem e.inq) e.key e.rounds
  | .run .decBuf ctx | .run .decStream ctx =>
    decContent ctx.first (decBlocks (ctx.acc ++ pendingInput ctx.rem e.inq) e.key e.rounds)
  | .run .keyPass _ | .run .keyRaw _ | .run .encBlock _ | .run .decBlock _ | .idle => []

end Sys2Proof.Machine
end

