-- ==== Sys2Proof/Certificates/Slice0/Obligations.lean ====
section
/-! DEFINITION. The statements about the machine, for the provers. Each one's docstring says which rule of spec/ it
formalises. An equation `exec i s = .next t` is also the statement of what `i` leaves unchanged: every field of `t` that
is not written there is the field of `s`. The hardware has no memory (20 R67, R69), so no statement speaks of one. -/

open Sys2Proof Sys2Proof.Machine

/-! ### The reads -/

/-- ID reads 0x54454131 at all times, CFG reads the FIFO depths in its two low bytes and 0 above; writes to both are
ignored (10 R27, R28). -/
def Obligations.IdAndCfgReadFixedValuesAndIgnoreWrites : Prop :=
  ∀ s : State,
    exec .rdId s = .next { s with v := 0x54454131#32 } ∧
    (s.params.Legal → ∃ w : Word, exec .rdCfg s = .next { s with v := w } ∧
      (w.extractLsb' 0 8).toNat = s.params.inDepth ∧ (w.extractLsb' 8 8).toNat = s.params.outDepth ∧
      w.extractLsb' 16 16 = 0) ∧
    (∀ d, exec (.wrId d) s = .next s) ∧ (∀ d, exec (.wrCfg d) s = .next s)

/-- The reads of the registers that hold a stored value, of CTRL, and of the write-only CMD and DIN, which return 0
(40 R100; 10 R24, R25, R26, R29, R31, R33, R36, R41). Only the host variable changes. -/
def Obligations.PlainReadsReturnTheRegister : Prop :=
  ∀ s : State,
    exec .rdRounds s = .next { s with v := s.engine.rounds } ∧
    exec .rdLenLo s = .next { s with v := s.engine.len.setWidth 32 } ∧
    exec .rdLenHi s = .next { s with v := (s.engine.len >>> 32).setWidth 32 } ∧
    exec .rdKeyA s = .next { s with v := s.engine.key.a } ∧
    exec .rdKeyB s = .next { s with v := s.engine.key.b } ∧
    exec .rdKeyC s = .next { s with v := s.engine.key.c } ∧
    exec .rdKeyD s = .next { s with v := s.engine.key.d } ∧
    exec .rdBlkY s = .next { s with v := s.engine.blkY } ∧
    exec .rdBlkZ s = .next { s with v := s.engine.blkZ } ∧
    exec .rdInCnt s = .next { s with v := s.engine.inCnt } ∧
    exec .rdOutCnt s = .next { s with v := s.engine.outCnt } ∧
    exec .rdCtrl s = .next { s with v := if s.engine.ie then 1#32 else 0#32 } ∧
    exec .rdCmd s = .next { s with v := 0#32 } ∧
    exec .rdDin s = .next { s with v := 0#32 }

/-- A STATUS read returns each flag in the bits R30 gives it, reserved bits 0, and changes nothing else (10 R30, 40 R100). -/
def Obligations.StatusReadShowsEveryFlagInItsBits : Prop :=
  ∀ s : State, ∃ w : Word, exec .rdStatus s = .next { s with v := w } ∧
    (w.getLsbD 0 = true ↔ s.engine.seq ≠ .idle) ∧ w.getLsbD 1 = s.engine.done ∧ w.getLsbD 2 = s.engine.ok ∧
    w.getLsbD 3 = false ∧ w.extractLsb' 4 4 = s.engine.err ∧ w.getLsbD 8 = s.engine.rej ∧
    w.getLsbD 9 = s.engine.ovf ∧ w.extractLsb' 10 6 = 0 ∧ w.extractLsb' 16 8 = s.engine.lastOp ∧
    w.extractLsb' 24 8 = 0

/-- FIFO_STAT shows the levels, IN_FULL and OUT_EMPTY in the bits R35 gives them, reads 0x00020000 after reset, and ignores
writes (10 R35). The levels fit their fields in every state that keeps R47's bounds. -/
def Obligations.FifoStatShowsTheFifoLevels : Prop :=
  (∀ s : State, s.params.Legal → s.Inv → ∃ w : Word, exec .rdFifoStat s = .next { s with v := w } ∧
    (w.extractLsb' 0 8).toNat = s.engine.inq.length ∧ (w.extractLsb' 8 8).toNat = s.engine.outq.length ∧
    (w.getLsbD 16 = true ↔ s.engine.inq.length = s.params.inDepth) ∧
    (w.getLsbD 17 = true ↔ s.engine.outq.length = 0) ∧ w.extractLsb' 18 14 = 0) ∧
  exec .rdFifoStat State.reset = .next { State.reset with v := 0x00020000#32 } ∧
  ∀ s d, exec (.wrFifoStat d) s = .next s

/-- A DOUT read pops the head of the output FIFO and returns it with VALID, or returns 0 and pops nothing (40 R105). -/
def Obligations.DoutReadPopsOneByteOrReturnsZero : Prop :=
  (∀ (s : State) (b : Byte) (rest : List Byte), s.engine.outq = b :: rest →
    exec .rdDout s =
      .next { s with engine := { s.engine with outq := rest }, v := 0x100#32 ||| b.setWidth 32 }) ∧
  (∀ s : State, s.engine.outq = [] → exec .rdDout s = .next { s with v := 0x00000000#32 }) ∧
  decode (.bus 0x4048#16 0#32) = .ok .rdDout

/-- The reserved offsets 0x04C to 0x0FC read as zero and ignore writes, at every aligned offset (10 R45, 30 R86): through the
port, and for each of the eight rows. -/
def Obligations.ReservedOffsetsReadZeroAndIgnoreWrites : Prop :=
  (∀ (s : State) (off : BitVec 12) (d : Word), 0x04C ≤ off.toNat → off.toNat ≤ 0x0FC → off.toNat % 4 = 0 →
    step (s.issue (.bus (0x4000#16 ||| off.setWidth 16) d)) = .next { s with v := 0#32 } ∧
    step (s.issue (.bus (0xC000#16 ||| off.setWidth 16) d)) = .next s) ∧
  ∀ (s : State) (off : BitVec 12) (d : Word),
    exec .rdReserved04c04c s = .next { s with v := 0#32 } ∧
    exec (.rdReserved05005c off) s = .next { s with v := 0#32 } ∧
    exec (.rdReserved06007c off) s = .next { s with v := 0#32 } ∧
    exec (.rdReserved0800fc off) s = .next { s with v := 0#32 } ∧
    exec (.wrReserved04c04c d) s = .next s ∧ exec (.wrReserved05005c off d) s = .next s ∧
    exec (.wrReserved06007c off d) s = .next s ∧ exec (.wrReserved0800fc off d) s = .next s

/-- No read but DOUT's has a side effect on the engine (20 R66: "Every other read is idempotent and changes nothing"): every
4-byte read transaction at an offset of the window other than DOUT's leaves the engine as it is. -/
def Obligations.ReadsOtherThanDoutChangeNoEngineState : Prop :=
  ∀ (s t : State) (off : BitVec 12) (d : Word), off ≠ 0x048#12 →
    step (s.issue (.bus (0x4000#16 ||| off.setWidth 16) d)) = .next t →
    t.engine = s.engine ∧ t.params = s.params ∧ t.port = s.port

/-! ### The writes -/

/-- A write to a config register stores all 32 bits while idle; while busy it changes nothing but REJ (40 R101, 10 R32). The
descriptors are 0xC000 with the register's offset. -/
def Obligations.ConfigWritesStoreWhenIdleAndRejectWhenBusy : Prop :=
  ∀ (s : State) (d : Word),
    (s.engine.seq = .idle →
      exec (.wrRounds d) s = .next { s with engine := { s.engine with rounds := d } } ∧
      exec (.wrLenLo d) s = .next { s with engine := { s.engine with
        len := (s.engine.len >>> 32 <<< 32) ||| d.setWidth 64 } } ∧
      exec (.wrLenHi d) s = .next { s with engine := { s.engine with
        len := d.setWidth 64 <<< 32 ||| (s.engine.len.setWidth 32).setWidth 64 } } ∧
      exec (.wrKeyA d) s = .next { s with engine := { s.engine with key := { s.engine.key with a := d } } } ∧
      exec (.wrKeyB d) s = .next { s with engine := { s.engine with key := { s.engine.key with b := d } } } ∧
      exec (.wrKeyC d) s = .next { s with engine := { s.engine with key := { s.engine.key with c := d } } } ∧
      exec (.wrKeyD d) s = .next { s with engine := { s.engine with key := { s.engine.key with d := d } } } ∧
      exec (.wrBlkY d) s = .next { s with engine := { s.engine with blkY := d } } ∧
      exec (.wrBlkZ d) s = .next { s with engine := { s.engine with blkZ := d } }) ∧
    (s.engine.seq ≠ .idle → ∀ i ∈ [Instr.wrRounds d, .wrLenLo d, .wrLenHi d, .wrKeyA d, .wrKeyB d, .wrKeyC d, .wrKeyD d,
      .wrBlkY d, .wrBlkZ d],
      exec i s = .next { s with engine := { s.engine with rej := true } }) ∧
    decode (.bus 0xC014#16 d) = .ok (.wrRounds d) ∧ decode (.bus 0xC018#16 d) = .ok (.wrLenLo d) ∧
    decode (.bus 0xC01C#16 d) = .ok (.wrLenHi d) ∧ decode (.bus 0xC020#16 d) = .ok (.wrKeyA d) ∧
    decode (.bus 0xC024#16 d) = .ok (.wrKeyB d) ∧ decode (.bus 0xC028#16 d) = .ok (.wrKeyC d) ∧
    decode (.bus 0xC02C#16 d) = .ok (.wrKeyD d) ∧ decode (.bus 0xC030#16 d) = .ok (.wrBlkY d) ∧
    decode (.bus 0xC034#16 d) = .ok (.wrBlkZ d)

/-- Writes to the read-only registers and to reserved offsets are ignored; a DOUT write does not pop (40 R112). -/
def Obligations.ReadOnlyAndReservedWritesAreIgnored : Prop :=
  ∀ (s : State) (off : BitVec 12) (d : Word),
    ∀ i ∈ [Instr.wrId d, .wrCfg d, .wrFifoStat d, .wrInCnt d, .wrOutCnt d, .wrDout d, .wrReserved04c04c d,
      .wrReserved05005c off d, .wrReserved06007c off d, .wrReserved0800fc off d],
      exec i s = .next s

/-- A DIN write pushes End when bit 8 is set and the byte in bits 7:0 otherwise; when the FIFO is full the entry is dropped
and OVF is set (40 R104). -/
def Obligations.DinWritePushesOneEntryOrSetsOvf : Prop :=
  (∀ (s : State) (d : Word),
    exec (.wrDin d) s = .next { s with engine :=
      if s.engine.inq.length < s.params.inDepth then
        { s.engine with inq := s.engine.inq ++ [if d.getLsbD 8 then .endMark else .byte (d.setWidth 8)] }
      else { s.engine with ovf := true } }) ∧
  ∀ d, decode (.bus 0xC044#16 d) = .ok (.wrDin d)

/-- A STATUS write clears DONE, REJ and OVF where its bits 1, 8 and 9 are 1, and does nothing else (40 R103). -/
def Obligations.StatusWriteClearsOnlyTheNamedFlags : Prop :=
  (∀ (s : State) (d : Word),
    exec (.wrStatus d) s = .next { s with engine := { s.engine with
      done := s.engine.done && !d.getLsbD 1
      rej := s.engine.rej && !d.getLsbD 8
      ovf := s.engine.ovf && !d.getLsbD 9 } }) ∧
  ∀ d, decode (.bus 0xC00C#16 d) = .ok (.wrStatus d)

/-- A CTRL write without SRST: ABORT finishes a running command ABORTED and leaves an idle engine's status alone, FLUSH_IN
and FLUSH_OUT empty their FIFO and touch no counter, IE takes bit 0; bits 31:5 are ignored (40 R102, R117, R118). -/
def Obligations.ControlWriteAbortsFlushesAndSetsIe : Prop :=
  ∀ (s : State) (d : Word), d.getLsbD 1 = false →
    exec (.wrCtrl d) s = .next { s with engine :=
      { (if d.getLsbD 2 = true ∧ s.engine.seq ≠ .idle then
          { s.engine with seq := .idle, done := true, ok := false, err := 6 }
        else s.engine) with
        inq := (if d.getLsbD 3 then [] else s.engine.inq)
        outq := (if d.getLsbD 4 then [] else s.engine.outq)
        ie := d.getLsbD 0 } } ∧
    decode (.bus 0xC008#16 d) = .ok (.wrCtrl d)

/-- A CTRL write with SRST puts every piece of engine state at its value in R46, whatever the other bits hold and whatever
runs (70 R271, 10 R46). -/
def Obligations.SoftResetPutsEveryRegisterAtItsResetValue : Prop :=
  ∀ (s : State) (d : Word), d.getLsbD 1 = true →
    exec (.wrCtrl d) s = .next { s with engine :=
      { key := ⟨0, 0, 0, 0⟩, rounds := 32, len := 0, blkY := 0, blkZ := 0, ie := false, done := false, ok := false,
        err := 0, rej := false, ovf := false, lastOp := 0, inCnt := 0, outCnt := 0, inq := [], outq := [],
        seq := .idle } }

/-- The machine's reset state holds R46's values: the engine's, field by field; and the depths hold R10's defaults. The
value of the host variable and of the OPEN parameters TEA_BASE and TEA_IRQ is the model's choice (logs 4 and 5), and this
statement does not speak of it. -/
def Obligations.ResetStateHoldsTheSpecsResetValues : Prop :=
  State.reset.engine =
    { key := ⟨0, 0, 0, 0⟩, rounds := 0x00000020, len := 0, blkY := 0, blkZ := 0, ie := false, done := false, ok := false,
      err := 0, rej := false, ovf := false, lastOp := 0, inCnt := 0, outCnt := 0, inq := [], outq := [], seq := .idle } ∧
  State.reset.params.inDepth = 16 ∧ State.reset.params.outDepth = 16

/-- Each of the six malformed rows ends in BusError at TEA_BASE + OFF (20 R62, 60 R244): these meanings stop on every path,
because the spec makes BusError "a fault on that transaction" (40 R119). That the address is TEA_BASE + OFF and that the
machine stops there is log 6. -/
def Obligations.MalformedRowsAnswerBusError : Prop :=
  ∀ (s : State) (w b : Bool) (off : BitVec 12),
    ∀ i ∈ [Instr.buserrSize1byte w b off, .buserrSize2byte w b off, .buserrSize8byte w b off,
      .buserrMisaligned1 w b off, .buserrMisaligned2 w b off, .buserrMisaligned3 w b off],
      exec i s = .fault (.busError (s.params.teaBase + off.toNat))

/-- Through the port: a transaction that is not 4 bytes wide (SIZE ≠ 10) or whose offset is no multiple of 4 gets BusError,
whatever its other bits; so a transaction reaches a register only if it is 4 bytes wide and aligned (20 R62; the form of the fault is log 6). -/
def Obligations.OnlyAlignedFourByteAccessesReachARegister : Prop :=
  ∀ (s : State) (d : BitVec 16) (data : Word),
    (d.extractLsb' 13 2 ≠ 0b10#2 ∨ (d.setWidth 12).toNat % 4 ≠ 0) →
    step (s.issue (.bus d data)) = .fault (.busError (s.params.teaBase + (d.setWidth 12).toNat))

/-- BusError is the only fault, and only a malformed transaction raises it; a command word never stops the machine
(60 R245, 40 R119). A refusal is about an offset outside the window or the reserved descriptor bit only (30 R86, R85); that
the model refuses these two is its own choice (logs 9 and 10). -/
def Obligations.OnlyMalformedTransactionsStopTheMachine : Prop :=
  (∀ (s : State) (r : Fault), step s = .fault r →
    ∃ d data rest, s.port = .host (.bus d data) :: rest ∧
      (d.extractLsb' 13 2 ≠ 0b10#2 ∨ (d.setWidth 12).toNat % 4 ≠ 0)) ∧
  ∀ (s : State) (r : Refusal), step s = .refused r →
    ∃ d data rest, s.port = .host (.bus d data) :: rest ∧ d.extractLsb' 13 2 = 0b10#2 ∧
      (d.setWidth 12).toNat % 4 = 0 ∧ (d.getLsbD 12 = true ∨ 0x100 ≤ (d.setWidth 12).toNat)

/-! ### Command acceptance -/

/-- While busy, a CMD write of any word, and each of the eleven commands, is not looked at: REJ is set and nothing else
changes (40 R106, 60 R250 item 3; that a row of format CMD is a CMD write is log 7). -/
def Obligations.CommandsWrittenWhileBusyAreRejected : Prop :=
  ∀ (s : State) (w : Word) (imm : Byte), s.engine.seq ≠ .idle →
    ∀ i ∈ [Instr.wrCmd w, .nop, .keyClear, .keyFold imm, .keyPass, .keyRaw, .encBlock, .decBlock, .encBuf, .decBuf,
      .encStream, .decStream],
      exec i s = .next { s with engine := { s.engine with rej := true } }

/-- An illegal word, as R83 has it, written to CMD while idle finishes ILLEGAL_CMD and changes nothing else (40 R108, 30
R83, R84). -/
def Obligations.IllegalWordFinishesIllegalCommand : Prop :=
  ∀ (s : State) (w : Word), s.engine.seq = .idle →
    ¬(w.extractLsb' 16 16 = 0 ∧
      w.setWidth 8 ∈ [0x00#8, 0x01#8, 0x02#8, 0x03#8, 0x04#8, 0x10#8, 0x11#8, 0x20#8, 0x21#8, 0x22#8, 0x23#8] ∧
      (w.setWidth 8 = 0x02#8 ∨ w.extractLsb' 8 8 = 0)) →
    exec (.wrCmd w) s = .next { s with engine := { s.engine with
      done := true, ok := false, err := 1, lastOp := w.setWidth 8, inCnt := 0, outCnt := 0 } }

/-- A legal word written to CMD runs the command of its row; and the write of any word, to an idle or a busy engine, answers a
next state: idle, OP holds the word's opcode and the counters are 0; busy, only REJ changes (40 R106, R107; that a row of
format CMD is a CMD write is log 7). -/
def Obligations.CommandWriteRunsTheCommandOfItsWord : Prop :=
  (∀ (s : State) (w : Word) (i : Instr), decodeCommand w = .ok i → exec (.wrCmd w) s = exec i s) ∧
  ∀ (s : State) (w : Word), ∃ t, exec (.wrCmd w) s = .next t ∧
    (s.engine.seq = .idle → t.engine.lastOp = w.setWidth 8 ∧ t.engine.inCnt = 0 ∧ t.engine.outCnt = 0) ∧
    (s.engine.seq ≠ .idle → t = { s with engine := { s.engine with rej := true } })

/-- NOP, KEY_CLEAR and KEY_FOLD while idle finish OK at once. NOP touches nothing else (40 R109); KEY_CLEAR makes the key 0
(41 R142); KEY_FOLD makes each key word w times 7, 15, 31, 63 plus the byte (41 R140, R143). -/
def Obligations.NopKeyClearAndKeyFoldFinishAtOnce : Prop :=
  ∀ (s : State) (imm : Byte), s.engine.seq = .idle →
    exec .nop s = .next { s with engine := { s.engine with
      done := true, ok := true, err := 0, lastOp := 0x00, inCnt := 0, outCnt := 0 } } ∧
    exec .keyClear s = .next { s with engine := { s.engine with
      key := ⟨0, 0, 0, 0⟩, done := true, ok := true, err := 0, lastOp := 0x01, inCnt := 0, outCnt := 0 } } ∧
    exec (.keyFold imm) s = .next { s with engine := { s.engine with
      key := ⟨s.engine.key.a * 7 + imm.setWidth 32, s.engine.key.b * 15 + imm.setWidth 32,
        s.engine.key.c * 31 + imm.setWidth 32, s.engine.key.d * 63 + imm.setWidth 32⟩
      done := true, ok := true, err := 0, lastOp := 0x02, inCnt := 0, outCnt := 0 } } ∧
    decode (.command 0x00000000#32) = .ok .nop ∧ decode (.command 0x00000001#32) = .ok .keyClear ∧
    decode (.command (0x00000002#32 ||| imm.setWidth 32 <<< 8)) = .ok (.keyFold imm)

/-- KEY_PASS, KEY_RAW, ENC_BLOCK and DEC_BLOCK while idle start their run with the context of their rule, and commit
nothing yet (41 R144, R145; 42 R165, R166; 40 R107). -/
def Obligations.KeyAndBlockCommandsStartTheirRun : Prop :=
  ∀ s : State, s.engine.seq = .idle →
    exec .keyPass s = .next { s with engine := { s.engine with
      done := false, ok := false, err := 0, lastOp := 0x03, inCnt := 0, outCnt := 0
      seq := .run .keyPass { acc := [], rem := some s.engine.len, first := false, kacc := ⟨0, 0, 0, 0⟩ } } } ∧
    exec .keyRaw s = .next { s with engine := { s.engine with
      done := false, ok := false, err := 0, lastOp := 0x04, inCnt := 0, outCnt := 0
      seq := .run .keyRaw { acc := [], rem := some 16, first := false, kacc := ⟨0, 0, 0, 0⟩ } } } ∧
    exec .encBlock s = .next { s with engine := { s.engine with
      done := false, ok := false, err := 0, lastOp := 0x10, inCnt := 0, outCnt := 0
      seq := .run .encBlock { acc := [], rem := some 0, first := false, kacc := ⟨0, 0, 0, 0⟩ } } } ∧
    exec .decBlock s = .next { s with engine := { s.engine with
      done := false, ok := false, err := 0, lastOp := 0x11, inCnt := 0, outCnt := 0
      seq := .run .decBlock { acc := [], rem := some 0, first := false, kacc := ⟨0, 0, 0, 0⟩ } } }

/-- ENC_BUF and ENC_STREAM while idle: the run starts with the fill marker 8 - (LEN mod 8) and that many minus one zero
bytes pending; ENC_BUF with LEN = 0 finishes OK at once instead (44 R191, 46 R223, 43 R180, R181). -/
def Obligations.EncryptCommandsStartWithThePaddingHeader : Prop :=
  ∀ s : State, s.engine.seq = .idle →
    (s.engine.len = 0 → exec .encBuf s = .next { s with engine := { s.engine with
      done := true, ok := true, err := 0, lastOp := 0x20, inCnt := 0, outCnt := 0 } }) ∧
    (s.engine.len ≠ 0 → exec .encBuf s = .next { s with engine := { s.engine with
      done := false, ok := false, err := 0, lastOp := 0x20, inCnt := 0, outCnt := 0
      seq := .run .encBuf
        { acc := BitVec.ofNat 8 (8 - s.engine.len.toNat % 8) :: List.replicate (7 - s.engine.len.toNat % 8) 0x00
          rem := some s.engine.len, first := false, kacc := ⟨0, 0, 0, 0⟩ } } }) ∧
    exec .encStream s = .next { s with engine := { s.engine with
      done := false, ok := false, err := 0, lastOp := 0x22, inCnt := 0, outCnt := 0
      seq := .run .encStream
        { acc := BitVec.ofNat 8 (8 - s.engine.len.toNat % 8) :: List.replicate (7 - s.engine.len.toNat % 8) 0x00
          rem := some s.engine.len, first := false, kacc := ⟨0, 0, 0, 0⟩ } } }

/-- DEC_BUF and DEC_STREAM while idle: DEC_BUF with LEN = 0 or LEN mod 8 ≠ 0 finishes BAD_LEN at once, with nothing
consumed; otherwise the run starts. DEC_STREAM ignores LEN (44 R194, 46 R226). -/
def Obligations.DecryptCommandsStartOrFinishBadLen : Prop :=
  ∀ s : State, s.engine.seq = .idle →
    (s.engine.len = 0 ∨ s.engine.len.toNat % 8 ≠ 0 → exec .decBuf s = .next { s with engine := { s.engine with
      done := true, ok := false, err := 2, lastOp := 0x21, inCnt := 0, outCnt := 0 } }) ∧
    (s.engine.len ≠ 0 → s.engine.len.toNat % 8 = 0 → exec .decBuf s = .next { s with engine := { s.engine with
      done := false, ok := false, err := 0, lastOp := 0x21, inCnt := 0, outCnt := 0
      seq := .run .decBuf { acc := [], rem := some s.engine.len, first := true, kacc := ⟨0, 0, 0, 0⟩ } } }) ∧
    exec .decStream s = .next { s with engine := { s.engine with
      done := false, ok := false, err := 0, lastOp := 0x23, inCnt := 0, outCnt := 0
      seq := .run .decStream { acc := [], rem := none, first := true, kacc := ⟨0, 0, 0, 0⟩ } } }

/-- The IRQ line is IE and DONE; it rises with the finish of a command (NOP) when IE = 1 and with setting IE while DONE = 1,
and falls with the acknowledgement and with clearing IE (10 R43, 60 R247). -/
def Obligations.IrqIsTheLevelOfIeAndDone : Prop :=
  ∀ s : State, s.engine.irq = (s.engine.ie && s.engine.done) ∧
    (s.engine.seq = .idle → ∃ t, exec .nop s = .next t ∧ t.engine.irq = s.engine.ie) ∧
    (∃ t, exec (.wrStatus 0x2#32) s = .next t ∧ t.engine.irq = false) ∧
    (∃ t, exec (.wrCtrl 0x1#32) s = .next t ∧ t.engine.irq = s.engine.done) ∧
    (∃ t, exec (.wrCtrl 0x0#32) s = .next t ∧ t.engine.irq = false)

/-! ### The engine step -/

/-- The KEY_PASS engine step, guard by guard (41 R146). -/
def Obligations.KeyPassStepFollowsItsGuards : Prop :=
  ∀ (p : Params) (e : Engine) (ctx : Ctx) (n : Quad), e.seq = .run .keyPass ctx → ctx.rem = some n →
    (n = 0 → engineStep p e = some { e with key := ctx.kacc, seq := .idle, done := true, ok := true, err := 0 }) ∧
    (n ≠ 0 → ∀ x rest, e.inq = .byte x :: rest → engineStep p e = some { e with
      inq := rest, inCnt := e.inCnt + 1
      seq := .run .keyPass { ctx with
        kacc := ⟨ctx.kacc.a * 7 + x.setWidth 32, ctx.kacc.b * 15 + x.setWidth 32, ctx.kacc.c * 31 + x.setWidth 32,
          ctx.kacc.d * 63 + x.setWidth 32⟩
        rem := some (n - 1) } }) ∧
    (n ≠ 0 → ∀ rest, e.inq = .endMark :: rest → engineStep p e = some { e with
      inq := rest, seq := .idle, done := true, ok := false, err := 4 }) ∧
    (n ≠ 0 → e.inq = [] → engineStep p e = none)

/-- The KEY_RAW engine step, guard by guard (41 R147). -/
def Obligations.KeyRawStepFollowsItsGuards : Prop :=
  ∀ (p : Params) (e : Engine) (ctx : Ctx), e.seq = .run .keyRaw ctx →
    (ctx.acc.length = 16 → engineStep p e = some { e with
      key := fromRaw ctx.acc, seq := .idle, done := true, ok := true, err := 0 }) ∧
    (ctx.acc.length ≠ 16 → ∀ x rest, e.inq = .byte x :: rest → engineStep p e = some { e with
      inq := rest, inCnt := e.inCnt + 1, seq := .run .keyRaw { ctx with acc := ctx.acc ++ [x] } }) ∧
    (ctx.acc.length ≠ 16 → ∀ rest, e.inq = .endMark :: rest → engineStep p e = some { e with
      inq := rest, seq := .idle, done := true, ok := false, err := 4 }) ∧
    (ctx.acc.length ≠ 16 → e.inq = [] → engineStep p e = none)

/-- A block's words are big-endian, and the words map back to the bytes they came from (20 R60); the words of a raw key are
little-endian, word i from bytes 4i to 4i + 3 (20 R61). -/
def Obligations.BlocksAreBigEndianAndRawKeysLittleEndian : Prop :=
  (∀ p0 p1 p2 p3 p4 p5 p6 p7 : Byte,
    blockY [p0, p1, p2, p3, p4, p5, p6, p7] = p0 ++ p1 ++ p2 ++ p3 ∧
    blockZ [p0, p1, p2, p3, p4, p5, p6, p7] = p4 ++ p5 ++ p6 ++ p7 ∧
    blockBytes (blockY [p0, p1, p2, p3, p4, p5, p6, p7]) (blockZ [p0, p1, p2, p3, p4, p5, p6, p7]) =
      [p0, p1, p2, p3, p4, p5, p6, p7]) ∧
  ∀ r0 r1 r2 r3 r4 r5 r6 r7 r8 r9 r10 r11 r12 r13 r14 r15 : Byte,
    fromRaw [r0, r1, r2, r3, r4, r5, r6, r7, r8, r9, r10, r11, r12, r13, r14, r15] =
      { a := r3 ++ r2 ++ r1 ++ r0, b := r7 ++ r6 ++ r5 ++ r4
        c := r11 ++ r10 ++ r9 ++ r8, d := r15 ++ r14 ++ r13 ++ r12 }

/-- The ENC_BLOCK and DEC_BLOCK engine step: always enabled, it writes the enciphered or deciphered block into BLK_Y and
BLK_Z and finishes OK (42 R167). -/
def Obligations.BlockStepTransformsBlkAndFinishes : Prop :=
  ∀ (p : Params) (e : Engine) (ctx : Ctx),
    (e.seq = .run .encBlock ctx → engineStep p e = some { e with
      blkY := (encipher e.blkY e.blkZ e.key e.rounds).1, blkZ := (encipher e.blkY e.blkZ e.key e.rounds).2
      seq := .idle, done := true, ok := true, err := 0 }) ∧
    (e.seq = .run .decBlock ctx → engineStep p e = some { e with
      blkY := (decipher e.blkY e.blkZ e.key e.rounds).1, blkZ := (decipher e.blkY e.blkZ e.key e.rounds).2
      seq := .idle, done := true, ok := true, err := 0 })

/-- The encrypt engine step, shared by ENC_BUF and ENC_STREAM, guard by guard (44 R192). -/
def Obligations.EncryptStepFollowsItsGuards : Prop :=
  ∀ (p : Params) (e : Engine) (op : Op) (ctx : Ctx) (n : Quad), op ∈ [Op.encBuf, Op.encStream] → e.seq = .run op ctx →
    ctx.rem = some n →
    (ctx.acc.length = 8 → e.outq.length + 8 ≤ p.outDepth → engineStep p e = some { e with
      outq := e.outq ++ encryptBlock ctx.acc e.key e.rounds, outCnt := e.outCnt + 8
      seq := .run op { ctx with acc := [] } }) ∧
    (ctx.acc.length = 8 → ¬e.outq.length + 8 ≤ p.outDepth → engineStep p e = none) ∧
    (ctx.acc.length ≠ 8 → n = 0 → ctx.acc = [] → engineStep p e = some { e with
      seq := .idle, done := true, ok := true, err := 0 }) ∧
    (ctx.acc.length ≠ 8 → n = 0 → ctx.acc ≠ [] → engineStep p e = some { e with
      seq := .idle, done := true, ok := false, err := 5 }) ∧
    (ctx.acc.length ≠ 8 → n ≠ 0 → ∀ x rest, e.inq = .byte x :: rest → engineStep p e = some { e with
      inq := rest, inCnt := e.inCnt + 1
      seq := .run op { ctx with acc := ctx.acc ++ [x], rem := some (n - 1) } }) ∧
    (ctx.acc.length ≠ 8 → n ≠ 0 → ∀ rest, e.inq = .endMark :: rest → engineStep p e = some { e with
      inq := rest, seq := .idle, done := true, ok := false, err := 4 }) ∧
    (ctx.acc.length ≠ 8 → n ≠ 0 → e.inq = [] → engineStep p e = none)

/-- The decrypt engine step, shared by DEC_BUF and DEC_STREAM, guard by guard (44 R195). On a full block, if it is the first,
the fill check comes before room is needed, and the push drops the marker and the pad bytes. -/
def Obligations.DecryptStepFollowsItsGuards : Prop :=
  ∀ (p : Params) (e : Engine) (op : Op) (ctx : Ctx), op ∈ [Op.decBuf, Op.decStream] → e.seq = .run op ctx →
    (ctx.acc.length = 8 → ∀ q f, q = decryptBlock ctx.acc e.key e.rounds → f = (q.headD 0).toNat →
      (ctx.first = true → 8 < f → engineStep p e = some { e with
        seq := .idle, done := true, ok := false, err := 3 }) ∧
      (ctx.first = true → f ≤ 8 → e.outq.length + (8 - f) ≤ p.outDepth → engineStep p e = some { e with
        outq := e.outq ++ q.drop f, outCnt := e.outCnt + BitVec.ofNat 32 (8 - f)
        seq := .run op { ctx with acc := [], first := false } }) ∧
      (ctx.first = true → f ≤ 8 → ¬e.outq.length + (8 - f) ≤ p.outDepth → engineStep p e = none) ∧
      (ctx.first = false → e.outq.length + 8 ≤ p.outDepth → engineStep p e = some { e with
        outq := e.outq ++ q, outCnt := e.outCnt + 8, seq := .run op { ctx with acc := [] } }) ∧
      (ctx.first = false → ¬e.outq.length + 8 ≤ p.outDepth → engineStep p e = none)) ∧
    (ctx.acc.length ≠ 8 → ctx.rem = some 0 → engineStep p e = some { e with
      seq := .idle, done := true, ok := true, err := 0 }) ∧
    (ctx.acc.length ≠ 8 → ctx.rem ≠ some 0 → ∀ x rest, e.inq = .byte x :: rest → engineStep p e = some { e with
      inq := rest, inCnt := e.inCnt + 1
      seq := .run op { ctx with
        acc := ctx.acc ++ [x]
        rem := match ctx.rem with
          | some m => some (m - 1)
          | none => none } }) ∧
    (ctx.acc.length ≠ 8 → ctx.rem ≠ some 0 → ∀ rest, e.inq = .endMark :: rest →
      (op = .decBuf → engineStep p e = some { e with
        inq := rest, seq := .idle, done := true, ok := false, err := 4 }) ∧
      (op = .decStream → ctx.acc = [] → engineStep p e = some { e with
        inq := rest, seq := .idle, done := true, ok := true, err := 0 }) ∧
      (op = .decStream → ctx.acc ≠ [] → engineStep p e = some { e with
        inq := rest, seq := .idle, done := true, ok := false, err := 5 })) ∧
    (ctx.acc.length ≠ 8 → ctx.rem ≠ some 0 → e.inq = [] → engineStep p e = none)

/-- "The only wait conditions" (40 R113): in a run whose context has its op's shape, the engine has no step exactly when it
needs an input entry and the input FIFO is empty, or must push k bytes and has no room for them. Idle, it has none. -/
def Obligations.EngineWaitsOnlyForInputOrForRoom : Prop :=
  ∀ (p : Params) (e : Engine), e.RunShape →
    (e.seq = .idle → engineStep p e = none) ∧
    (e.seq ≠ .idle → (engineStep p e = none ↔
      (needsInput e ∧ e.inq = []) ∨ ∃ k, mustPush e k ∧ ¬e.outq.length + k ≤ p.outDepth))

/-- An engine step moves at most one entry out of the input FIFO, from its head, appends to the output FIFO, and counts in
IN_CNT the bytes it took (End does not count) and in OUT_CNT the bytes it pushed (10 R36, R37, R38). -/
def Obligations.EngineStepCountsWhatItTakesAndPushes : Prop :=
  ∀ (p : Params) (e e' : Engine), engineStep p e = some e' →
    ∃ (taken : List InEntry) (pushed : List Byte),
      e.inq = taken ++ e'.inq ∧ taken.length ≤ 1 ∧ e'.outq = e.outq ++ pushed ∧
      e'.inCnt = e.inCnt + BitVec.ofNat 32 (taken.filter (· ≠ .endMark)).length ∧
      e'.outCnt = e.outCnt + BitVec.ofNat 32 pushed.length ∧ pushed.length ≤ 8 ∧
      e'.outq.length ≤ max e.outq.length p.outDepth

/-! ### The step of the machine -/

/-- A step runs the decoded instruction: with a transaction at the head of the port that decodes to an instruction, the step
is that instruction's execution, the transaction taken off the port. A command word that is no instruction's is run as the
CMD write of that word (30 R84, 40 R106; the reading of a row of format CMD as a CMD write is the model's, log 7). -/
def Obligations.StepRunsTheDecodedInstruction : Prop :=
  (∀ (s : State) (a : Access) (rest : List PortEvent) (i : Instr), s.port = .host a :: rest → decode a = .ok i →
    i.wellFormed = true ∧ step s = exec i { s with port := rest }) ∧
  ∀ (s : State) (w : Word) (rest : List PortEvent), s.port = .host (.command w) :: rest → (∀ i, decodeCommand w ≠ .ok i) →
    step s = exec (.wrCmd w) { s with port := rest }

/-- The engine's turn is the engine step relation's step when there is one (40 R113), and in a weakly fair execution enabled
steps are taken (40 R115): when from some point on the host only polls (reads registers other than DOUT), the engine comes
to every state that its enabled steps lead to. That a turn of the engine is an entry of the port, and that a step at an
empty port is the engine's turn, is the model's choice (log 2); so is that a turn changes nothing when the engine has no
step (log 3). -/
def Obligations.EngineTurnTakesTheEnabledStep : Prop :=
  (∀ (s : State) (rest : List PortEvent),
    (s.port = .engine :: rest → step s = .next { s with
      port := rest, engine := (engineStep s.params s.engine).getD s.engine }) ∧
    (s.port = [] → step s = .next { s with engine := (engineStep s.params s.engine).getD s.engine })) ∧
  ∀ (states : Nat → State) (events : Nat → PortEvent), Execution states events →
    ∀ (n k : Nat) (e : Engine), (∀ m, n ≤ m → isPoll (events m) = true) →
      engineRun (states n).params k (states n).engine = some e → ∃ m, n ≤ m ∧ (states m).engine = e

/-- Decode and encode agree for every well-formed instruction of all families, with every operand at every value. -/
def Obligations.DecodeOfEncodeGivesTheInstruction : Prop :=
  ∀ i : Instr, i.wellFormed = true → decode (encode i) = .ok i

/-- What the decoder names is well-formed, and a command word is decoded exactly when it is legal (30 R83). -/
def Obligations.DecodedInstructionsAreWellFormed : Prop :=
  (∀ (a : Access) (i : Instr), decode a = .ok i → i.wellFormed = true) ∧
  ∀ w : Word, (∃ i, decodeCommand w = .ok i) ↔
    (w.extractLsb' 16 16 = 0 ∧
      w.setWidth 8 ∈ [0x00#8, 0x01#8, 0x02#8, 0x03#8, 0x04#8, 0x10#8, 0x11#8, 0x20#8, 0x21#8, 0x22#8, 0x23#8] ∧
      (w.setWidth 8 = 0x02#8 ∨ w.extractLsb' 8 8 = 0))

/-- A few words written out from the encodings of 30 R80, R82, R85 decode to the instructions they stand for. How many bits
make a descriptor, a command word, or a descriptor with its data word is the model's numbering (log 14), and that the
descriptor 0x4100, outside the window, is no instruction is log 9. -/
def Obligations.WrittenOutWordsDecodeToTheirInstruction : Prop :=
  decodeTableWord 32 0b00000000000000000110000100000010 = some (.keyFold 0x61) ∧
  decodeTableWord 32 0b00000000000000000000000000010001 = some .decBlock ∧
  decodeTableWord 32 0b00000000000000000000000000100010 = some .encStream ∧
  decodeTableWord 16 0b0100000000001100 = some .rdStatus ∧
  decodeTableWord 48 0b000000000000000000000001010010001100000001000100 = some (.wrDin 0x148) ∧
  decodeTableWord 16 0b0100000001010100 = some (.rdReserved05005c 0x054) ∧
  decodeTableWord 16 0b1000000001000100 = some (.buserrSize1byte true false 0x044) ∧
  decodeTableWord 16 0b0100000000001110 = some (.buserrMisaligned2 false false 0x00E) ∧
  decodeTableWord 32 0x00000100 = none ∧ decodeTableWord 16 0x4100 = none

/-! ### Invariants and rules of the whole machine -/

/-- Every step, from every state, keeps R47: the FIFO bounds, no DONE while busy, OK only with ERR = 0, and the bounds and
congruences of the pending bytes and the remaining count; so every reachable state satisfies it (10 R47, 44 R193, R196). -/
def Obligations.EveryStepKeepsTheInvariantOfR47 : Prop :=
  (∀ s t : State, s.Inv → step s = .next t → t.Inv) ∧ ∀ s : State, Reachable s → s.Inv

/-- R47, the run shape and the result table hold at reset. -/
def Obligations.ResetStateSatisfiesTheInvariants : Prop :=
  State.reset.Inv ∧ State.reset.engine.RunShape ∧ State.reset.engine.ResultTable

/-- Every step keeps the shape of the run's context: what `acc`, `rem` and `first` hold for each op (10 R40). -/
def Obligations.EveryStepKeepsTheRunShape : Prop :=
  ∀ s t : State, s.engine.RunShape → step s = .next t → t.engine.RunShape

/-- Every step keeps the result table: under R47, the status names an error only a command of that opcode can finish with;
so PARTIAL_BLOCK never comes from an encrypt command and codes 7 to 15 never appear (60 R241, R242; 44 R193, R196). -/
def Obligations.EveryStepKeepsTheResultTable : Prop :=
  ∀ s t : State, s.Inv → s.engine.ResultTable → step s = .next t → t.engine.ResultTable

/-- The operands of a running command cannot change under it: across a step between two states of a run, KEY, ROUNDS, LEN
and BLK keep their values, OP too (10 R32, 40 R111, 41 R148 item 4). -/
def Obligations.OperandsAreFrozenDuringARun : Prop :=
  ∀ s t : State, step s = .next t → s.engine.seq ≠ .idle → t.engine.seq ≠ .idle →
    t.engine.key = s.engine.key ∧ t.engine.rounds = s.engine.rounds ∧ t.engine.len = s.engine.len ∧
    t.engine.blkY = s.engine.blkY ∧ t.engine.blkZ = s.engine.blkZ ∧ t.engine.lastOp = s.engine.lastOp

/-- A run ends only through a finish or a reset, and commits KEY and BLK only when it finishes OK: a failed, aborted or
reset run writes no result (10 R39, 40 R110, R111). -/
def Obligations.OnlyASuccessfulFinishCommitsAResult : Prop :=
  ∀ s t : State, step s = .next t → s.engine.seq ≠ .idle → t.engine.seq = .idle →
    t.engine = Engine.reset ∨
    (t.engine.done = true ∧ t.engine.rounds = s.engine.rounds ∧ t.engine.len = s.engine.len ∧
      (t.engine.ok = false →
        t.engine.key = s.engine.key ∧ t.engine.blkY = s.engine.blkY ∧ t.engine.blkZ = s.engine.blkZ))

/-- Only the acceptance of a command word makes the sequencer leave Idle (10 R39): the step is a host transaction that
decodes to a command or a CMD write (log 7). -/
def Obligations.OnlyCommandAcceptanceLeavesIdle : Prop :=
  ∀ s t : State, step s = .next t → s.engine.seq = .idle → t.engine.seq ≠ .idle →
    ∃ a rest w, s.port = .host a :: rest ∧ (a = .command w ∨ a = .bus 0xC010#16 w) ∧
      t.engine.lastOp = w.setWidth 8 ∧ t.engine.done = false ∧ t.engine.ok = false ∧ t.engine.err = 0 ∧
      t.engine.inCnt = 0 ∧ t.engine.outCnt = 0

/-- What can change the FIFOs: only a DIN write adds to the input FIFO, at its tail, and only a turn of the engine adds to
the output FIFO, at its tail; entries leave both at the head only. No step changes the parameters (10 R37, R38, R21). -/
def Obligations.OnlyDinWritesAddInputAndOnlyTheEngineAddsOutput : Prop :=
  ∀ s t : State, step s = .next t → t.params = s.params ∧
    (t.engine.inq <:+ s.engine.inq ∨
      ∃ d rest x, s.port = .host (.bus 0xC044#16 d) :: rest ∧ t.engine.inq = s.engine.inq ++ [x]) ∧
    (t.engine.outq <:+ s.engine.outq ∨
      (∀ a rest, s.port ≠ .host a :: rest) ∧ ∃ l, t.engine.outq = s.engine.outq ++ l)

/-! ### The block cipher and the framer -/

/-- Decipher undoes encipher, for every block, key and round count, on words and on bytes; zero rounds are the identity
(42 R168). -/
def Obligations.DecipherUndoesEncipher : Prop :=
  (∀ (y z : Word) (k : Key) (r : Word),
    decipher (encipher y z k r).1 (encipher y z k r).2 k r = (y, z)) ∧
  (∀ (b : List Byte) (k : Key) (r : Word), b.length = 8 → decryptBlock (encryptBlock b k r) k r = b) ∧
  ∀ (y z : Word) (k : Key), encipher y z k 0 = (y, z) ∧ decipher y z k 0 = (y, z)

/-- No round leaves the block as it is, whatever the sum; one round of encipher is the source's two lines, and r + 1 rounds are
one round followed by the rest (42 R161, R162); decipher's first round likewise, from the sum DELTA * r (42 R163). -/
def Obligations.CipherRoundsFollowTheSourceLines : Prop :=
  ∀ (k : Key) (n : Nat) (sum y z : Word),
    encRounds k 0 sum y z = (y, z) ∧ decRounds k 0 sum y z = (y, z) ∧
    (let s' := sum + 0x9E3779B9#32
     let y' := y + (((z <<< 4) + k.a) ^^^ (z + s') ^^^ ((z >>> 5) + k.b))
     let z' := z + (((y' <<< 4) + k.c) ^^^ (y' + s') ^^^ ((y' >>> 5) + k.d))
     encRounds k (n + 1) sum y z = encRounds k n s' y' z') ∧
    (let z' := z - (((y <<< 4) + k.c) ^^^ (y + sum) ^^^ ((y >>> 5) + k.d))
     let y' := y - (((z' <<< 4) + k.a) ^^^ (z' + sum) ^^^ ((z' >>> 5) + k.b))
     decRounds k (n + 1) sum y z = decRounds k n (sum - 0x9E3779B9#32) y' z') ∧
    (∀ r : Word, encipher y z k r = encRounds k r.toNat 0 y z ∧
      decipher y z k r = decRounds k r.toNat (0x9E3779B9#32 * r) y z)

/-- Unpadding undoes padding, whatever values the pad bytes hold; a marker above 8 is BAD_FILL (43 R184, R186). -/
def Obligations.UnpadUndoesPadWhateverThePadBytes : Prop :=
  (∀ p : List Byte, unpad (pad p) = .ok p) ∧
  (∀ (p padBytes : List Byte), padBytes.length = 7 - p.length % 8 →
    unpad (BitVec.ofNat 8 (8 - p.length % 8) :: (padBytes ++ p)) = .ok p) ∧
  ∀ (f : Byte) (q : List Byte), 8 < f.toNat → unpad (f :: q) = .error .badFill

/-- The output functions undo each other: DEC_BUF's function returns the plaintext of ENC_BUF's for every non-empty
plaintext, the stream functions for every plaintext, and the two modes interchange; of nothing, ENC_BUF's output is empty,
DEC_BUF's function fails with BAD_LEN, and the host's wrappers return the empty list (44 R199, 46 R227, R228). -/
def Obligations.CodecFunctionsRoundTripAndInterchange : Prop :=
  ∀ (p : List Byte) (k : Key) (r : Word),
    (p ≠ [] → decBuf (encBuf p k r) k r = .ok p) ∧
    decStream (encStream p k r) k r = (.none, p) ∧
    decBuf (encStream p k r) k r = .ok p ∧
    (p ≠ [] → decStream (encBuf p k r) k r = (.none, p)) ∧
    encBuf [] k r = [] ∧ decBuf [] k r = .error .badLen ∧ decStream (encBuf [] k r) k r = (.none, []) ∧
    encryptBytes [] k r = [] ∧ decryptBytes [] k r = []

/-- The length law of ENC_BUF (44 R198), and ECB: the blocks of the output are the encrypted blocks of the padded input, one
by one (44 R200, 20 R76), for ENC_BUF, for ENC_STREAM, and for whole blocks in general. -/
def Obligations.EncryptionKeepsLengthLawAndBlockOrder : Prop :=
  (∀ (p : List Byte) (k : Key) (r : Word), p ≠ [] → (encBuf p k r).length = p.length + (8 - p.length % 8)) ∧
  (∀ (k : Key) (r : Word), (encBuf [] k r).length = 0) ∧
  (∀ (p : List Byte) (k : Key) (r : Word), p ≠ [] →
    chunks8 (encBuf p k r) = (chunks8 (pad p)).map (encryptBlock · k r)) ∧
  (∀ (p : List Byte) (k : Key) (r : Word), chunks8 (encStream p k r) = (chunks8 (pad p)).map (encryptBlock · k r)) ∧
  ∀ (q : List Byte) (k : Key) (r : Word), chunks8 (encBlocks q k r) = (chunks8 q).map (encryptBlock · k r)

/-! ### Runs -/

/-- The key of a passphrase by one KEY_PASS run: with LEN = n and n bytes in the input FIFO, n + 1 engine steps leave KEY =
derive of the bytes, consume exactly them and finish OK (41 R144, R146; 70 R282). -/
def Obligations.KeyPassRunDerivesTheKey : Prop :=
  ∀ (s : State) (bytes : List Byte) (rest : List InEntry), s.engine.seq = .idle →
    s.engine.len.toNat = bytes.length → s.engine.inq = bytes.map .byte ++ rest →
    ∃ t, exec .keyPass s = .next t ∧ engineRun t.params (bytes.length + 1) t.engine = some { s.engine with
      key := derive bytes, inq := rest, inCnt := BitVec.ofNat 32 bytes.length, outCnt := 0
      lastOp := 0x03, done := true, ok := true, err := 0 }

/-- The same key by commands that finish at once: KEY_CLEAR and then KEY_FOLD of each byte give derive of the bytes; derive
of one more byte is one more fold (41 R148 items 1 and 2, R143). -/
def Obligations.FoldingByteByByteDerivesTheSameKey : Prop :=
  (∀ (s : State) (bytes : List Byte), s.engine.seq = .idle →
    ∃ t, execAll (.keyClear :: bytes.map .keyFold) s = .next t ∧ t.engine.key = derive bytes ∧
      t.engine.seq = .idle ∧ t.engine.inq = s.engine.inq) ∧
  ∀ (bytes : List Byte) (x : Byte), derive (bytes ++ [x]) = fold (derive bytes) x

/-- The raw key by one KEY_RAW run: 16 bytes, 17 engine steps (41 R145, R147; 70 R282). -/
def Obligations.KeyRawRunLoadsSixteenBytes : Prop :=
  ∀ (s : State) (bytes : List Byte) (rest : List InEntry), s.engine.seq = .idle → bytes.length = 16 →
    s.engine.inq = bytes.map .byte ++ rest →
    ∃ t, exec .keyRaw s = .next t ∧ engineRun t.params 17 t.engine = some { s.engine with
      key := fromRaw bytes, inq := rest, inCnt := 16, outCnt := 0, lastOp := 0x04, done := true, ok := true, err := 0 }

/-- ENC_BLOCK then DEC_BLOCK under the same key and round count give the block back, one engine step each (42 R165, R166,
R168; 70 R282). -/
def Obligations.BlockCommandsRoundTrip : Prop :=
  ∀ s : State, s.engine.seq = .idle →
    ∃ t u e', exec .encBlock s = .next t ∧ engineRun t.params 1 t.engine = some e' ∧
      exec .decBlock { t with engine := e' } = .next u ∧
      engineRun u.params 1 u.engine = some { s.engine with
        done := true, ok := true, err := 0, lastOp := 0x11, inCnt := 0, outCnt := 0 }

/-- An encrypt run with its n input bytes in the FIFO and room for the output: n + (n + fill)/8 + 1 engine steps push the
encrypted padded buffer, consume exactly the n bytes and finish OK; ENC_STREAM for every n, ENC_BUF for n > 0 (44 R191, R198;
46 R223, R224; 70 R282). -/
def Obligations.EncryptRunPushesTheEncryptedPaddedBuffer : Prop :=
  ∀ (s : State) (p : List Byte) (rest : List InEntry), s.engine.seq = .idle →
    s.engine.len.toNat = p.length → s.engine.inq = p.map .byte ++ rest →
    s.engine.outq.length + p.length + (8 - p.length % 8) ≤ s.params.outDepth →
    (∃ t, exec .encStream s = .next t ∧
      engineRun t.params (p.length + (p.length + (8 - p.length % 8)) / 8 + 1) t.engine = some { s.engine with
        inq := rest, outq := s.engine.outq ++ encStream p s.engine.key s.engine.rounds
        inCnt := BitVec.ofNat 32 p.length, outCnt := BitVec.ofNat 32 (p.length + (8 - p.length % 8))
        lastOp := 0x22, done := true, ok := true, err := 0 }) ∧
    (p ≠ [] → ∃ t, exec .encBuf s = .next t ∧
      engineRun t.params (p.length + (p.length + (8 - p.length % 8)) / 8 + 1) t.engine = some { s.engine with
        inq := rest, outq := s.engine.outq ++ encBuf p s.engine.key s.engine.rounds
        inCnt := BitVec.ofNat 32 p.length, outCnt := BitVec.ofNat 32 (p.length + (8 - p.length % 8))
        lastOp := 0x20, done := true, ok := true, err := 0 })

/-- A DEC_BUF run with its LEN bytes in the FIFO and room for the output: when decBuf of the bytes is a plaintext x, LEN +
LEN/8 + 1 engine steps push exactly x and finish OK; when decBuf fails with BAD_FILL, 9 steps finish BAD_FILL, nothing is
pushed and only the first 8 bytes are consumed (44 R194, R197, R198; 70 R282). -/
def Obligations.DecryptBufferRunPushesThePlaintextOrFailsClean : Prop :=
  ∀ (s : State) (c : List Byte) (rest : List InEntry), s.engine.seq = .idle →
    s.engine.len.toNat = c.length → s.engine.inq = c.map .byte ++ rest →
    s.engine.outq.length + c.length ≤ s.params.outDepth →
    (∀ x, decBuf c s.engine.key s.engine.rounds = .ok x →
      ∃ t, exec .decBuf s = .next t ∧ engineRun t.params (c.length + c.length / 8 + 1) t.engine = some { s.engine with
        inq := rest, outq := s.engine.outq ++ x
        inCnt := BitVec.ofNat 32 c.length, outCnt := BitVec.ofNat 32 x.length
        lastOp := 0x21, done := true, ok := true, err := 0 }) ∧
    (decBuf c s.engine.key s.engine.rounds = .error .badFill →
      ∃ t, exec .decBuf s = .next t ∧ engineRun t.params 9 t.engine = some { s.engine with
        inq := (c.drop 8).map .byte ++ rest, inCnt := 8, outCnt := 0
        lastOp := 0x21, done := true, ok := false, err := 3 })

/-- A DEC_STREAM run over bytes c and End, with room for the output: when decStream accepts c, it pushes decStream's bytes
and finishes OK in c + c/8 + 1 steps; when c ends inside a block it pushes what decStream gives and finishes PARTIAL_BLOCK;
on a bad fill it finishes BAD_FILL in 9 steps, with nothing pushed and the remaining entries, End included, not consumed
(46 R225, R226; 70 R282). -/
def Obligations.DecryptStreamRunFollowsDecStream : Prop :=
  ∀ (s : State) (c : List Byte) (rest : List InEntry), s.engine.seq = .idle →
    s.engine.inq = c.map .byte ++ .endMark :: rest →
    s.engine.outq.length + c.length ≤ s.params.outDepth →
    ∀ out, (decStream c s.engine.key s.engine.rounds = (.none, out) →
      ∃ t, exec .decStream s = .next t ∧ engineRun t.params (c.length + c.length / 8 + 1) t.engine = some { s.engine with
        inq := rest, outq := s.engine.outq ++ out
        inCnt := BitVec.ofNat 32 c.length, outCnt := BitVec.ofNat 32 out.length
        lastOp := 0x23, done := true, ok := true, err := 0 }) ∧
    (decStream c s.engine.key s.engine.rounds = (.partialBlock, out) →
      ∃ t, exec .decStream s = .next t ∧ engineRun t.params (c.length + c.length / 8 + 1) t.engine = some { s.engine with
        inq := rest, outq := s.engine.outq ++ out
        inCnt := BitVec.ofNat 32 c.length, outCnt := BitVec.ofNat 32 out.length
        lastOp := 0x23, done := true, ok := false, err := 5 }) ∧
    (decStream c s.engine.key s.engine.rounds = (.badFill, out) →
      ∃ t, exec .decStream s = .next t ∧ engineRun t.params 9 t.engine = some { s.engine with
        inq := (c.drop 8).map .byte ++ .endMark :: rest, inCnt := 8, outCnt := 0
        lastOp := 0x23, done := true, ok := false, err := 3 })

/-- The output of a codec run does not depend on the schedule (46 R229). An engine step moves bytes from the output still to
come to the output FIFO and changes none of them; a DIN write that is not dropped adds its entry to the input FIFO, and the
output to come is that of the input with this entry; a DOUT read takes the next byte and nothing else. So over any transfers
(DIN writes, reads, engine turns) the bytes popped, those in the output FIFO and those still to come are the output of the
input pushed; and two schedules that push the same entries and drop none, and after which the engine is idle, give the same
bytes. -/
def Obligations.OutputDoesNotDependOnTheSchedule : Prop :=
  (∀ (p : Params) (e e' : Engine), e.Inv p → engineStep p e = some e' →
    e'.outq ++ futureOutput e' = e.outq ++ futureOutput e) ∧
  (∀ (s t : State) (d : Word), s.Inv → exec (.wrDin d) s = .next t → t.engine.ovf = false →
    t.engine = { s.engine with inq := s.engine.inq ++ [if d.getLsbD 8 then .endMark else .byte (d.setWidth 8)] } ∧
    futureOutput s.engine <+: futureOutput t.engine) ∧
  (∀ (s t : State), exec .rdDout s = .next t →
    futureOutput t.engine = futureOutput s.engine ∧
    (t.engine.outq = s.engine.outq ∧ t.v = 0 ∨
      ∃ b, s.engine.outq = b :: t.engine.outq ∧ t.v = 0x100#32 ||| b.setWidth 32)) ∧
  (∀ (s t : State) (evs : List PortEvent) (popped : List Byte), s.Inv → (∀ ev ∈ evs, isTransfer ev = true) →
    runEvents evs s = .next (t, popped) → t.engine.ovf = false →
    popped ++ t.engine.outq ++ futureOutput t.engine =
      s.engine.outq ++ futureOutput { s.engine with inq := s.engine.inq ++ pushedEntries evs }) ∧
  ∀ (s t u : State) (evs evs' : List PortEvent) (popped popped' : List Byte), s.Inv →
    (∀ ev ∈ evs, isTransfer ev = true) → (∀ ev ∈ evs', isTransfer ev = true) →
    pushedEntries evs = pushedEntries evs' →
    runEvents evs s = .next (t, popped) → runEvents evs' s = .next (u, popped') →
    t.engine.ovf = false → u.engine.ovf = false → t.engine.seq = .idle → u.engine.seq = .idle →
    popped ++ t.engine.outq = popped' ++ u.engine.outq

/-- The host's string codec round-trips (45 R214, R215, R216), and so do its byte wrappers (45 R211). -/
def Obligations.HostStringCodecRoundTrips : Prop :=
  ∀ (text : List Byte) (k : Key) (r : Word),
    decryptString (encryptString text k r) k r = (text, true) ∧
    decryptBytes (encryptBytes text k r) k r = text ∧
    (encryptString text k r).length = text.length + 8 + (8 - (text.length + 8) % 8)
end

