-- ==== Sys2Proof/Laws/State.lean ====
section
/-! SUPPORT. One lemma per field per update of the state, so that no later proof unfolds a record update. -/

namespace Sys2Proof.Machine

open Sys2Proof

/-! ### Engine.finish -/

@[simp] theorem Engine.finish_key (okv : Bool) (code : ErrCode) (e : Engine) : (Engine.finish okv code e).key = e.key := rfl
@[simp] theorem Engine.finish_rounds (okv : Bool) (code : ErrCode) (e : Engine) : (Engine.finish okv code e).rounds = e.rounds := rfl
@[simp] theorem Engine.finish_len (okv : Bool) (code : ErrCode) (e : Engine) : (Engine.finish okv code e).len = e.len := rfl
@[simp] theorem Engine.finish_blkY (okv : Bool) (code : ErrCode) (e : Engine) : (Engine.finish okv code e).blkY = e.blkY := rfl
@[simp] theorem Engine.finish_blkZ (okv : Bool) (code : ErrCode) (e : Engine) : (Engine.finish okv code e).blkZ = e.blkZ := rfl
@[simp] theorem Engine.finish_ie (okv : Bool) (code : ErrCode) (e : Engine) : (Engine.finish okv code e).ie = e.ie := rfl
@[simp] theorem Engine.finish_done (okv : Bool) (code : ErrCode) (e : Engine) : (Engine.finish okv code e).done = true := rfl
@[simp] theorem Engine.finish_ok (okv : Bool) (code : ErrCode) (e : Engine) : (Engine.finish okv code e).ok = okv := rfl
@[simp] theorem Engine.finish_err (okv : Bool) (code : ErrCode) (e : Engine) : (Engine.finish okv code e).err = if okv then 0 else code.bits := rfl
@[simp] theorem Engine.finish_rej (okv : Bool) (code : ErrCode) (e : Engine) : (Engine.finish okv code e).rej = e.rej := rfl
@[simp] theorem Engine.finish_ovf (okv : Bool) (code : ErrCode) (e : Engine) : (Engine.finish okv code e).ovf = e.ovf := rfl
@[simp] theorem Engine.finish_lastOp (okv : Bool) (code : ErrCode) (e : Engine) : (Engine.finish okv code e).lastOp = e.lastOp := rfl
@[simp] theorem Engine.finish_inCnt (okv : Bool) (code : ErrCode) (e : Engine) : (Engine.finish okv code e).inCnt = e.inCnt := rfl
@[simp] theorem Engine.finish_outCnt (okv : Bool) (code : ErrCode) (e : Engine) : (Engine.finish okv code e).outCnt = e.outCnt := rfl
@[simp] theorem Engine.finish_inq (okv : Bool) (code : ErrCode) (e : Engine) : (Engine.finish okv code e).inq = e.inq := rfl
@[simp] theorem Engine.finish_outq (okv : Bool) (code : ErrCode) (e : Engine) : (Engine.finish okv code e).outq = e.outq := rfl
@[simp] theorem Engine.finish_seq (okv : Bool) (code : ErrCode) (e : Engine) : (Engine.finish okv code e).seq = .idle := rfl

/-! ### Engine.accepted -/

@[simp] theorem Engine.accepted_key (op : Byte) (e : Engine) : (Engine.accepted op e).key = e.key := rfl
@[simp] theorem Engine.accepted_rounds (op : Byte) (e : Engine) : (Engine.accepted op e).rounds = e.rounds := rfl
@[simp] theorem Engine.accepted_len (op : Byte) (e : Engine) : (Engine.accepted op e).len = e.len := rfl
@[simp] theorem Engine.accepted_blkY (op : Byte) (e : Engine) : (Engine.accepted op e).blkY = e.blkY := rfl
@[simp] theorem Engine.accepted_blkZ (op : Byte) (e : Engine) : (Engine.accepted op e).blkZ = e.blkZ := rfl
@[simp] theorem Engine.accepted_ie (op : Byte) (e : Engine) : (Engine.accepted op e).ie = e.ie := rfl
@[simp] theorem Engine.accepted_done (op : Byte) (e : Engine) : (Engine.accepted op e).done = false := rfl
@[simp] theorem Engine.accepted_ok (op : Byte) (e : Engine) : (Engine.accepted op e).ok = false := rfl
@[simp] theorem Engine.accepted_err (op : Byte) (e : Engine) : (Engine.accepted op e).err = 0 := rfl
@[simp] theorem Engine.accepted_rej (op : Byte) (e : Engine) : (Engine.accepted op e).rej = e.rej := rfl
@[simp] theorem Engine.accepted_ovf (op : Byte) (e : Engine) : (Engine.accepted op e).ovf = e.ovf := rfl
@[simp] theorem Engine.accepted_lastOp (op : Byte) (e : Engine) : (Engine.accepted op e).lastOp = op := rfl
@[simp] theorem Engine.accepted_inCnt (op : Byte) (e : Engine) : (Engine.accepted op e).inCnt = 0 := rfl
@[simp] theorem Engine.accepted_outCnt (op : Byte) (e : Engine) : (Engine.accepted op e).outCnt = 0 := rfl
@[simp] theorem Engine.accepted_inq (op : Byte) (e : Engine) : (Engine.accepted op e).inq = e.inq := rfl
@[simp] theorem Engine.accepted_outq (op : Byte) (e : Engine) : (Engine.accepted op e).outq = e.outq := rfl
@[simp] theorem Engine.accepted_seq (op : Byte) (e : Engine) : (Engine.accepted op e).seq = e.seq := rfl

/-! ### Engine.start -/

@[simp] theorem Engine.start_key (op : Op) (ctx : Ctx) (e : Engine) : (Engine.start op ctx e).key = e.key := rfl
@[simp] theorem Engine.start_rounds (op : Op) (ctx : Ctx) (e : Engine) : (Engine.start op ctx e).rounds = e.rounds := rfl
@[simp] theorem Engine.start_len (op : Op) (ctx : Ctx) (e : Engine) : (Engine.start op ctx e).len = e.len := rfl
@[simp] theorem Engine.start_blkY (op : Op) (ctx : Ctx) (e : Engine) : (Engine.start op ctx e).blkY = e.blkY := rfl
@[simp] theorem Engine.start_blkZ (op : Op) (ctx : Ctx) (e : Engine) : (Engine.start op ctx e).blkZ = e.blkZ := rfl
@[simp] theorem Engine.start_ie (op : Op) (ctx : Ctx) (e : Engine) : (Engine.start op ctx e).ie = e.ie := rfl
@[simp] theorem Engine.start_done (op : Op) (ctx : Ctx) (e : Engine) : (Engine.start op ctx e).done = e.done := rfl
@[simp] theorem Engine.start_ok (op : Op) (ctx : Ctx) (e : Engine) : (Engine.start op ctx e).ok = e.ok := rfl
@[simp] theorem Engine.start_err (op : Op) (ctx : Ctx) (e : Engine) : (Engine.start op ctx e).err = e.err := rfl
@[simp] theorem Engine.start_rej (op : Op) (ctx : Ctx) (e : Engine) : (Engine.start op ctx e).rej = e.rej := rfl
@[simp] theorem Engine.start_ovf (op : Op) (ctx : Ctx) (e : Engine) : (Engine.start op ctx e).ovf = e.ovf := rfl
@[simp] theorem Engine.start_lastOp (op : Op) (ctx : Ctx) (e : Engine) : (Engine.start op ctx e).lastOp = e.lastOp := rfl
@[simp] theorem Engine.start_inCnt (op : Op) (ctx : Ctx) (e : Engine) : (Engine.start op ctx e).inCnt = e.inCnt := rfl
@[simp] theorem Engine.start_outCnt (op : Op) (ctx : Ctx) (e : Engine) : (Engine.start op ctx e).outCnt = e.outCnt := rfl
@[simp] theorem Engine.start_inq (op : Op) (ctx : Ctx) (e : Engine) : (Engine.start op ctx e).inq = e.inq := rfl
@[simp] theorem Engine.start_outq (op : Op) (ctx : Ctx) (e : Engine) : (Engine.start op ctx e).outq = e.outq := rfl
@[simp] theorem Engine.start_seq (op : Op) (ctx : Ctx) (e : Engine) : (Engine.start op ctx e).seq = .run op ctx := rfl

/-! ### Engine.pushOut -/

@[simp] theorem Engine.pushOut_key (l : List Byte) (e : Engine) : (Engine.pushOut l e).key = e.key := rfl
@[simp] theorem Engine.pushOut_rounds (l : List Byte) (e : Engine) : (Engine.pushOut l e).rounds = e.rounds := rfl
@[simp] theorem Engine.pushOut_len (l : List Byte) (e : Engine) : (Engine.pushOut l e).len = e.len := rfl
@[simp] theorem Engine.pushOut_blkY (l : List Byte) (e : Engine) : (Engine.pushOut l e).blkY = e.blkY := rfl
@[simp] theorem Engine.pushOut_blkZ (l : List Byte) (e : Engine) : (Engine.pushOut l e).blkZ = e.blkZ := rfl
@[simp] theorem Engine.pushOut_ie (l : List Byte) (e : Engine) : (Engine.pushOut l e).ie = e.ie := rfl
@[simp] theorem Engine.pushOut_done (l : List Byte) (e : Engine) : (Engine.pushOut l e).done = e.done := rfl
@[simp] theorem Engine.pushOut_ok (l : List Byte) (e : Engine) : (Engine.pushOut l e).ok = e.ok := rfl
@[simp] theorem Engine.pushOut_err (l : List Byte) (e : Engine) : (Engine.pushOut l e).err = e.err := rfl
@[simp] theorem Engine.pushOut_rej (l : List Byte) (e : Engine) : (Engine.pushOut l e).rej = e.rej := rfl
@[simp] theorem Engine.pushOut_ovf (l : List Byte) (e : Engine) : (Engine.pushOut l e).ovf = e.ovf := rfl
@[simp] theorem Engine.pushOut_lastOp (l : List Byte) (e : Engine) : (Engine.pushOut l e).lastOp = e.lastOp := rfl
@[simp] theorem Engine.pushOut_inCnt (l : List Byte) (e : Engine) : (Engine.pushOut l e).inCnt = e.inCnt := rfl
@[simp] theorem Engine.pushOut_outCnt (l : List Byte) (e : Engine) : (Engine.pushOut l e).outCnt = e.outCnt + BitVec.ofNat 32 l.length := rfl
@[simp] theorem Engine.pushOut_inq (l : List Byte) (e : Engine) : (Engine.pushOut l e).inq = e.inq := rfl
@[simp] theorem Engine.pushOut_outq (l : List Byte) (e : Engine) : (Engine.pushOut l e).outq = e.outq ++ l := rfl
@[simp] theorem Engine.pushOut_seq (l : List Byte) (e : Engine) : (Engine.pushOut l e).seq = e.seq := rfl

/-! ### Engine.setBlk -/

@[simp] theorem Engine.setBlk_key (w : Word × Word) (e : Engine) : (Engine.setBlk w e).key = e.key := rfl
@[simp] theorem Engine.setBlk_rounds (w : Word × Word) (e : Engine) : (Engine.setBlk w e).rounds = e.rounds := rfl
@[simp] theorem Engine.setBlk_len (w : Word × Word) (e : Engine) : (Engine.setBlk w e).len = e.len := rfl
@[simp] theorem Engine.setBlk_blkY (w : Word × Word) (e : Engine) : (Engine.setBlk w e).blkY = w.1 := rfl
@[simp] theorem Engine.setBlk_blkZ (w : Word × Word) (e : Engine) : (Engine.setBlk w e).blkZ = w.2 := rfl
@[simp] theorem Engine.setBlk_ie (w : Word × Word) (e : Engine) : (Engine.setBlk w e).ie = e.ie := rfl
@[simp] theorem Engine.setBlk_done (w : Word × Word) (e : Engine) : (Engine.setBlk w e).done = e.done := rfl
@[simp] theorem Engine.setBlk_ok (w : Word × Word) (e : Engine) : (Engine.setBlk w e).ok = e.ok := rfl
@[simp] theorem Engine.setBlk_err (w : Word × Word) (e : Engine) : (Engine.setBlk w e).err = e.err := rfl
@[simp] theorem Engine.setBlk_rej (w : Word × Word) (e : Engine) : (Engine.setBlk w e).rej = e.rej := rfl
@[simp] theorem Engine.setBlk_ovf (w : Word × Word) (e : Engine) : (Engine.setBlk w e).ovf = e.ovf := rfl
@[simp] theorem Engine.setBlk_lastOp (w : Word × Word) (e : Engine) : (Engine.setBlk w e).lastOp = e.lastOp := rfl
@[simp] theorem Engine.setBlk_inCnt (w : Word × Word) (e : Engine) : (Engine.setBlk w e).inCnt = e.inCnt := rfl
@[simp] theorem Engine.setBlk_outCnt (w : Word × Word) (e : Engine) : (Engine.setBlk w e).outCnt = e.outCnt := rfl
@[simp] theorem Engine.setBlk_inq (w : Word × Word) (e : Engine) : (Engine.setBlk w e).inq = e.inq := rfl
@[simp] theorem Engine.setBlk_outq (w : Word × Word) (e : Engine) : (Engine.setBlk w e).outq = e.outq := rfl
@[simp] theorem Engine.setBlk_seq (w : Word × Word) (e : Engine) : (Engine.setBlk w e).seq = e.seq := rfl

/-! ### Engine.flushIn -/

@[simp] theorem Engine.flushIn_key (e : Engine) : (Engine.flushIn e).key = e.key := rfl
@[simp] theorem Engine.flushIn_rounds (e : Engine) : (Engine.flushIn e).rounds = e.rounds := rfl
@[simp] theorem Engine.flushIn_len (e : Engine) : (Engine.flushIn e).len = e.len := rfl
@[simp] theorem Engine.flushIn_blkY (e : Engine) : (Engine.flushIn e).blkY = e.blkY := rfl
@[simp] theorem Engine.flushIn_blkZ (e : Engine) : (Engine.flushIn e).blkZ = e.blkZ := rfl
@[simp] theorem Engine.flushIn_ie (e : Engine) : (Engine.flushIn e).ie = e.ie := rfl
@[simp] theorem Engine.flushIn_done (e : Engine) : (Engine.flushIn e).done = e.done := rfl
@[simp] theorem Engine.flushIn_ok (e : Engine) : (Engine.flushIn e).ok = e.ok := rfl
@[simp] theorem Engine.flushIn_err (e : Engine) : (Engine.flushIn e).err = e.err := rfl
@[simp] theorem Engine.flushIn_rej (e : Engine) : (Engine.flushIn e).rej = e.rej := rfl
@[simp] theorem Engine.flushIn_ovf (e : Engine) : (Engine.flushIn e).ovf = e.ovf := rfl
@[simp] theorem Engine.flushIn_lastOp (e : Engine) : (Engine.flushIn e).lastOp = e.lastOp := rfl
@[simp] theorem Engine.flushIn_inCnt (e : Engine) : (Engine.flushIn e).inCnt = e.inCnt := rfl
@[simp] theorem Engine.flushIn_outCnt (e : Engine) : (Engine.flushIn e).outCnt = e.outCnt := rfl
@[simp] theorem Engine.flushIn_inq (e : Engine) : (Engine.flushIn e).inq = [] := rfl
@[simp] theorem Engine.flushIn_outq (e : Engine) : (Engine.flushIn e).outq = e.outq := rfl
@[simp] theorem Engine.flushIn_seq (e : Engine) : (Engine.flushIn e).seq = e.seq := rfl

/-! ### Engine.flushOut -/

@[simp] theorem Engine.flushOut_key (e : Engine) : (Engine.flushOut e).key = e.key := rfl
@[simp] theorem Engine.flushOut_rounds (e : Engine) : (Engine.flushOut e).rounds = e.rounds := rfl
@[simp] theorem Engine.flushOut_len (e : Engine) : (Engine.flushOut e).len = e.len := rfl
@[simp] theorem Engine.flushOut_blkY (e : Engine) : (Engine.flushOut e).blkY = e.blkY := rfl
@[simp] theorem Engine.flushOut_blkZ (e : Engine) : (Engine.flushOut e).blkZ = e.blkZ := rfl
@[simp] theorem Engine.flushOut_ie (e : Engine) : (Engine.flushOut e).ie = e.ie := rfl
@[simp] theorem Engine.flushOut_done (e : Engine) : (Engine.flushOut e).done = e.done := rfl
@[simp] theorem Engine.flushOut_ok (e : Engine) : (Engine.flushOut e).ok = e.ok := rfl
@[simp] theorem Engine.flushOut_err (e : Engine) : (Engine.flushOut e).err = e.err := rfl
@[simp] theorem Engine.flushOut_rej (e : Engine) : (Engine.flushOut e).rej = e.rej := rfl
@[simp] theorem Engine.flushOut_ovf (e : Engine) : (Engine.flushOut e).ovf = e.ovf := rfl
@[simp] theorem Engine.flushOut_lastOp (e : Engine) : (Engine.flushOut e).lastOp = e.lastOp := rfl
@[simp] theorem Engine.flushOut_inCnt (e : Engine) : (Engine.flushOut e).inCnt = e.inCnt := rfl
@[simp] theorem Engine.flushOut_outCnt (e : Engine) : (Engine.flushOut e).outCnt = e.outCnt := rfl
@[simp] theorem Engine.flushOut_inq (e : Engine) : (Engine.flushOut e).inq = e.inq := rfl
@[simp] theorem Engine.flushOut_outq (e : Engine) : (Engine.flushOut e).outq = [] := rfl
@[simp] theorem Engine.flushOut_seq (e : Engine) : (Engine.flushOut e).seq = e.seq := rfl

/-! ### Engine.clearFlags -/

@[simp] theorem Engine.clearFlags_key (d : Word) (e : Engine) : (Engine.clearFlags d e).key = e.key := rfl
@[simp] theorem Engine.clearFlags_rounds (d : Word) (e : Engine) : (Engine.clearFlags d e).rounds = e.rounds := rfl
@[simp] theorem Engine.clearFlags_len (d : Word) (e : Engine) : (Engine.clearFlags d e).len = e.len := rfl
@[simp] theorem Engine.clearFlags_blkY (d : Word) (e : Engine) : (Engine.clearFlags d e).blkY = e.blkY := rfl
@[simp] theorem Engine.clearFlags_blkZ (d : Word) (e : Engine) : (Engine.clearFlags d e).blkZ = e.blkZ := rfl
@[simp] theorem Engine.clearFlags_ie (d : Word) (e : Engine) : (Engine.clearFlags d e).ie = e.ie := rfl
@[simp] theorem Engine.clearFlags_done (d : Word) (e : Engine) : (Engine.clearFlags d e).done = if d.getLsbD 1 then false else e.done := rfl
@[simp] theorem Engine.clearFlags_ok (d : Word) (e : Engine) : (Engine.clearFlags d e).ok = e.ok := rfl
@[simp] theorem Engine.clearFlags_err (d : Word) (e : Engine) : (Engine.clearFlags d e).err = e.err := rfl
@[simp] theorem Engine.clearFlags_rej (d : Word) (e : Engine) : (Engine.clearFlags d e).rej = if d.getLsbD 8 then false else e.rej := rfl
@[simp] theorem Engine.clearFlags_ovf (d : Word) (e : Engine) : (Engine.clearFlags d e).ovf = if d.getLsbD 9 then false else e.ovf := rfl
@[simp] theorem Engine.clearFlags_lastOp (d : Word) (e : Engine) : (Engine.clearFlags d e).lastOp = e.lastOp := rfl
@[simp] theorem Engine.clearFlags_inCnt (d : Word) (e : Engine) : (Engine.clearFlags d e).inCnt = e.inCnt := rfl
@[simp] theorem Engine.clearFlags_outCnt (d : Word) (e : Engine) : (Engine.clearFlags d e).outCnt = e.outCnt := rfl
@[simp] theorem Engine.clearFlags_inq (d : Word) (e : Engine) : (Engine.clearFlags d e).inq = e.inq := rfl
@[simp] theorem Engine.clearFlags_outq (d : Word) (e : Engine) : (Engine.clearFlags d e).outq = e.outq := rfl
@[simp] theorem Engine.clearFlags_seq (d : Word) (e : Engine) : (Engine.clearFlags d e).seq = e.seq := rfl

/-! ### Engine.popIn -/

@[simp] theorem Engine.popIn_key (e : Engine) : e.popIn.key = e.key := by unfold Engine.popIn; split <;> rfl
@[simp] theorem Engine.popIn_rounds (e : Engine) : e.popIn.rounds = e.rounds := by unfold Engine.popIn; split <;> rfl
@[simp] theorem Engine.popIn_len (e : Engine) : e.popIn.len = e.len := by unfold Engine.popIn; split <;> rfl
@[simp] theorem Engine.popIn_blkY (e : Engine) : e.popIn.blkY = e.blkY := by unfold Engine.popIn; split <;> rfl
@[simp] theorem Engine.popIn_blkZ (e : Engine) : e.popIn.blkZ = e.blkZ := by unfold Engine.popIn; split <;> rfl
@[simp] theorem Engine.popIn_ie (e : Engine) : e.popIn.ie = e.ie := by unfold Engine.popIn; split <;> rfl
@[simp] theorem Engine.popIn_done (e : Engine) : e.popIn.done = e.done := by unfold Engine.popIn; split <;> rfl
@[simp] theorem Engine.popIn_ok (e : Engine) : e.popIn.ok = e.ok := by unfold Engine.popIn; split <;> rfl
@[simp] theorem Engine.popIn_err (e : Engine) : e.popIn.err = e.err := by unfold Engine.popIn; split <;> rfl
@[simp] theorem Engine.popIn_rej (e : Engine) : e.popIn.rej = e.rej := by unfold Engine.popIn; split <;> rfl
@[simp] theorem Engine.popIn_ovf (e : Engine) : e.popIn.ovf = e.ovf := by unfold Engine.popIn; split <;> rfl
@[simp] theorem Engine.popIn_lastOp (e : Engine) : e.popIn.lastOp = e.lastOp := by unfold Engine.popIn; split <;> rfl
@[simp] theorem Engine.popIn_outCnt (e : Engine) : e.popIn.outCnt = e.outCnt := by unfold Engine.popIn; split <;> rfl
@[simp] theorem Engine.popIn_outq (e : Engine) : e.popIn.outq = e.outq := by unfold Engine.popIn; split <;> rfl
@[simp] theorem Engine.popIn_seq (e : Engine) : e.popIn.seq = e.seq := by unfold Engine.popIn; split <;> rfl
@[simp] theorem Engine.popIn_inq (e : Engine) : e.popIn.inq = e.inq.tail := by
  unfold Engine.popIn; split <;> simp_all

/-! ### Engine.pushIn -/

@[simp] theorem Engine.pushIn_key (p : Params) (x : InEntry) (e : Engine) : (Engine.pushIn p x e).key = e.key := by
  unfold Engine.pushIn; split <;> rfl
@[simp] theorem Engine.pushIn_rounds (p : Params) (x : InEntry) (e : Engine) : (Engine.pushIn p x e).rounds = e.rounds := by
  unfold Engine.pushIn; split <;> rfl
@[simp] theorem Engine.pushIn_len (p : Params) (x : InEntry) (e : Engine) : (Engine.pushIn p x e).len = e.len := by
  unfold Engine.pushIn; split <;> rfl
@[simp] theorem Engine.pushIn_blkY (p : Params) (x : InEntry) (e : Engine) : (Engine.pushIn p x e).blkY = e.blkY := by
  unfold Engine.pushIn; split <;> rfl
@[simp] theorem Engine.pushIn_blkZ (p : Params) (x : InEntry) (e : Engine) : (Engine.pushIn p x e).blkZ = e.blkZ := by
  unfold Engine.pushIn; split <;> rfl
@[simp] theorem Engine.pushIn_ie (p : Params) (x : InEntry) (e : Engine) : (Engine.pushIn p x e).ie = e.ie := by
  unfold Engine.pushIn; split <;> rfl
@[simp] theorem Engine.pushIn_done (p : Params) (x : InEntry) (e : Engine) : (Engine.pushIn p x e).done = e.done := by
  unfold Engine.pushIn; split <;> rfl
@[simp] theorem Engine.pushIn_ok (p : Params) (x : InEntry) (e : Engine) : (Engine.pushIn p x e).ok = e.ok := by
  unfold Engine.pushIn; split <;> rfl
@[simp] theorem Engine.pushIn_err (p : Params) (x : InEntry) (e : Engine) : (Engine.pushIn p x e).err = e.err := by
  unfold Engine.pushIn; split <;> rfl
@[simp] theorem Engine.pushIn_rej (p : Params) (x : InEntry) (e : Engine) : (Engine.pushIn p x e).rej = e.rej := by
  unfold Engine.pushIn; split <;> rfl
@[simp] theorem Engine.pushIn_lastOp (p : Params) (x : InEntry) (e : Engine) : (Engine.pushIn p x e).lastOp = e.lastOp := by
  unfold Engine.pushIn; split <;> rfl
@[simp] theorem Engine.pushIn_inCnt (p : Params) (x : InEntry) (e : Engine) : (Engine.pushIn p x e).inCnt = e.inCnt := by
  unfold Engine.pushIn; split <;> rfl
@[simp] theorem Engine.pushIn_outCnt (p : Params) (x : InEntry) (e : Engine) : (Engine.pushIn p x e).outCnt = e.outCnt := by
  unfold Engine.pushIn; split <;> rfl
@[simp] theorem Engine.pushIn_outq (p : Params) (x : InEntry) (e : Engine) : (Engine.pushIn p x e).outq = e.outq := by
  unfold Engine.pushIn; split <;> rfl
@[simp] theorem Engine.pushIn_seq (p : Params) (x : InEntry) (e : Engine) : (Engine.pushIn p x e).seq = e.seq := by
  unfold Engine.pushIn; split <;> rfl

/-! ### The machine -/

@[simp] theorem State.setEngine_engine (s : State) (e : Engine) : (s.setEngine e).engine = e := rfl
@[simp] theorem State.setEngine_params (s : State) (e : Engine) : (s.setEngine e).params = s.params := rfl
@[simp] theorem State.setEngine_v (s : State) (e : Engine) : (s.setEngine e).v = s.v := rfl
@[simp] theorem State.setEngine_port (s : State) (e : Engine) : (s.setEngine e).port = s.port := rfl
@[simp] theorem State.setV_engine (s : State) (w : Word) : (s.setV w).engine = s.engine := rfl
@[simp] theorem State.setV_params (s : State) (w : Word) : (s.setV w).params = s.params := rfl
@[simp] theorem State.setV_v (s : State) (w : Word) : (s.setV w).v = w := rfl
@[simp] theorem State.setV_port (s : State) (w : Word) : (s.setV w).port = s.port := rfl
@[simp] theorem State.reset_engine : State.reset.engine = Engine.reset := rfl
@[simp] theorem State.reset_params : State.reset.params = Params.default := rfl
@[simp] theorem State.reset_v : State.reset.v = 0 := rfl
@[simp] theorem State.reset_port : State.reset.port = [] := rfl

/-! ### BUSY -/

theorem Engine.busy_eq_false_iff (e : Engine) : e.busy = false ↔ e.seq = .idle := by
  unfold Engine.busy; split <;> simp_all

theorem Engine.busy_eq_true_iff (e : Engine) : e.busy = true ↔ ∃ op ctx, e.seq = .run op ctx := by
  unfold Engine.busy; split <;> simp_all

@[simp] theorem Engine.start_busy (op : Op) (ctx : Ctx) (e : Engine) : (e.start op ctx).busy = true := rfl
@[simp] theorem Engine.finish_busy (okv : Bool) (code : ErrCode) (e : Engine) : (e.finish okv code).busy = false := rfl
@[simp] theorem Engine.accepted_busy (op : Byte) (e : Engine) : (e.accepted op).busy = e.busy := rfl

end Sys2Proof.Machine
end

