-- ==== Sys2Proof/Laws/Ops.lean ====
section
/-! SUPPORT. For each shared operation, what it can do: later proofs cite these instead of unfolding it. -/

namespace Sys2Proof.Machine

open Sys2Proof

/-! ### The FIFO helpers (40 R104, R114) -/

theorem Engine.popIn_byte {e : Engine} {x : Byte} {rest : List InEntry} (h : e.inq = .byte x :: rest) :
    e.popIn = { e with inq := rest, inCnt := e.inCnt + 1 } := by simp [Engine.popIn, h]

theorem Engine.popIn_end {e : Engine} {rest : List InEntry} (h : e.inq = .endMark :: rest) :
    e.popIn = { e with inq := rest } := by simp [Engine.popIn, h]

theorem room_iff (p : Params) (e : Engine) (k : Nat) : room p e k = true ↔ e.outq.length + k ≤ p.outDepth := by
  simp [room]

theorem Engine.pushIn_of_lt {p : Params} {e : Engine} (x : InEntry) (h : e.inq.length < p.inDepth) :
    Engine.pushIn p x e = { e with inq := e.inq ++ [x] } := by simp [Engine.pushIn, h]

theorem Engine.pushIn_of_full {p : Params} {e : Engine} (x : InEntry) (h : ¬e.inq.length < p.inDepth) :
    Engine.pushIn p x e = { e with ovf := true } := by simp [Engine.pushIn, h]

/-! ### The CTRL actions (40 R102, R117) -/

theorem Engine.abort_of_busy {e : Engine} (h : e.busy = true) : e.abort = e.finish false .aborted := by
  simp [Engine.abort, h]

theorem Engine.abort_of_idle {e : Engine} (h : e.busy = false) : e.abort = e := by simp [Engine.abort, h]

theorem Engine.control_srst {d : Word} (h : ctrlSrst d = true) (e : Engine) : Engine.control d e = Engine.reset := by
  simp [Engine.control, h]

/-- A CTRL write without SRST, as one update. -/
theorem Engine.control_eq {d : Word} (h : ctrlSrst d = false) (e : Engine) :
    Engine.control d e = { (if ctrlAbort d then e.abort else e) with
      inq := if ctrlFlushIn d then [] else e.inq
      outq := if ctrlFlushOut d then [] else e.outq
      ie := ctrlIe d } := by
  cases hb : e.busy <;> cases ha : ctrlAbort d <;> cases hi : ctrlFlushIn d <;> cases ho : ctrlFlushOut d <;>
    simp [Engine.control, h, ha, hi, ho, Engine.abort, hb, Engine.flushIn, Engine.flushOut, Engine.finish]

/-- A CTRL write without SRST: an optional ABORT, then the two FIFOs emptied or not, then IE. -/
theorem Engine.control_cases (d : Word) (e : Engine) :
    Engine.control d e = Engine.reset ∨
      ∃ e' inq' outq', (e' = e ∨ e.busy = true ∧ e' = e.finish false .aborted) ∧ (inq' = e.inq ∨ inq' = []) ∧
        (outq' = e.outq ∨ outq' = []) ∧
        Engine.control d e = { e' with inq := inq', outq := outq', ie := ctrlIe d } := by
  by_cases hs : ctrlSrst d = true
  · exact .inl (Engine.control_srst hs e)
  · refine .inr ⟨if ctrlAbort d then e.abort else e, if ctrlFlushIn d then [] else e.inq,
      if ctrlFlushOut d then [] else e.outq, ?_, ?_, ?_, ?_⟩
    · cases hb : e.busy <;> cases ctrlAbort d <;> simp [Engine.abort, hb]
    · split <;> simp
    · split <;> simp
    · cases hb : e.busy <;> cases ha : ctrlAbort d <;> cases hi : ctrlFlushIn d <;> cases ho : ctrlFlushOut d <;>
        simp [Engine.control, hs, ha, hi, ho, Engine.abort, hb, Engine.flushIn, Engine.flushOut, Engine.finish]

/-! ### The machine's operations -/

theorem unlessBusy_idle {s : State} (h : s.engine.seq = .idle) (f : Engine → Engine) :
    unlessBusy f s = .next (s.setEngine (f s.engine)) := by
  simp [unlessBusy, updateEngine, (Engine.busy_eq_false_iff s.engine).2 h]

theorem unlessBusy_busy {s : State} (h : s.engine.busy = true) (f : Engine → Engine) :
    unlessBusy f s = .next (s.setEngine { s.engine with rej := true }) := by
  simp [unlessBusy, updateEngine, h]

theorem presentCommand_idle {s : State} (h : s.engine.seq = .idle) (op : Byte) (body : Engine → Engine) :
    presentCommand op body s = .next (s.setEngine (body (s.engine.accepted op))) := unlessBusy_idle h _

theorem presentCommand_busy {s : State} (h : s.engine.busy = true) (op : Byte) (body : Engine → Engine) :
    presentCommand op body s = .next (s.setEngine { s.engine with rej := true }) := unlessBusy_busy h _

theorem acceptEncBuf_zero {e : Engine} (h : e.len = 0) : acceptEncBuf e = e.finish true .none := if_pos h

theorem acceptEncBuf_start {e : Engine} (h : e.len ≠ 0) : acceptEncBuf e = e.start .encBuf (encCtx e.len) := if_neg h

theorem acceptDecBuf_badLen {e : Engine} (h : e.len = 0 ∨ e.len.toNat % 8 ≠ 0) :
    acceptDecBuf e = e.finish false .badLen := if_pos h

theorem acceptDecBuf_start {e : Engine} (h : e.len ≠ 0) (h8 : e.len.toNat % 8 = 0) :
    acceptDecBuf e = e.start .decBuf (decCtx (some e.len)) := if_neg (fun hc => hc.elim h (fun h8n => h8n h8))

theorem popDout_cons {s : State} {b : Byte} {rest : List Byte} (h : s.engine.outq = b :: rest) :
    popDout s = .next ((s.setEngine { s.engine with outq := rest }).setV (0x100 ||| b.setWidth 32)) := by
  simp [popDout, h]

theorem popDout_nil {s : State} (h : s.engine.outq = []) : popDout s = .next (s.setV 0) := by simp [popDout, h]

theorem engineTurn_some {s : State} {e : Engine} (h : engineStep s.params s.engine = some e) :
    engineTurn s = s.setEngine e := by simp [engineTurn, h]

theorem engineTurn_none {s : State} (h : engineStep s.params s.engine = none) : engineTurn s = s := by
  simp [engineTurn, h]

/-- The port runs the decoded row. -/
theorem fetchInstr_of_decode {a : Access} {i : Instr} (h : decode a = .ok i) : fetchInstr a = .ok i := by
  simp [fetchInstr, h]

/-- A command word is always run: as its row, or as a CMD write of an illegal word. -/
theorem fetchInstr_command (w : Word) :
    (∃ i, decodeCommand w = .ok i ∧ fetchInstr (.command w) = .ok i) ∨
      decodeCommand w = .error (.illegalCommand w) ∧ fetchInstr (.command w) = .ok (.wrCmd w) := by
  unfold fetchInstr decode
  simp only [decodeCommand]
  repeat' split
  all_goals simp_all

end Sys2Proof.Machine
end

