-- ==== Sys2Proof/Laws/Blocks.lean ====
section
/-! SUPPORT. Blocks of 8 bytes: the lengths the cipher and the framer keep, what the codec functions do block by block, and
runs of several engine steps. -/

namespace Sys2Proof.Machine

open Sys2Proof

/-! ### Lengths -/

@[simp] theorem bytesBE32_length (w : Word) : (bytesBE32 w).length = 4 := rfl
@[simp] theorem blockBytes_length (y z : Word) : (blockBytes y z).length = 8 := rfl
@[simp] theorem encryptBlock_length (b : List Byte) (k : Key) (r : Word) : (encryptBlock b k r).length = 8 := rfl
@[simp] theorem decryptBlock_length (b : List Byte) (k : Key) (r : Word) : (decryptBlock b k r).length = 8 := rfl

theorem fill_pos (n : Nat) : 0 < fill n := by unfold fill; omega
theorem fill_le (n : Nat) : fill n ≤ 8 := by unfold fill; omega
theorem fill_add_mod (n : Nat) : (fill n + n) % 8 = 0 := by unfold fill; omega

@[simp] theorem header_length (n : Nat) : (header n).length = fill n := by
  have := fill_pos n
  simp only [header, List.length_cons, List.length_replicate]; omega

@[simp] theorem pad_length (p : List Byte) : (pad p).length = fill p.length + p.length := by simp [pad]

theorem fillMarker_eq (q : List Byte) : fillMarker q = (q.headD 0).toNat := by cases q <;> rfl

theorem fillMarker_append {a : List Byte} (b : List Byte) (h : a ≠ []) : fillMarker (a ++ b) = fillMarker a := by
  cases a with
  | nil => exact absurd rfl h
  | cons x xs => rfl

/-! ### Blocks -/

/-- A list of 8 bytes, byte by byte. -/
theorem eight_bytes {b : List Byte} (h : b.length = 8) :
    ∃ b0 b1 b2 b3 b4 b5 b6 b7, b = [b0, b1, b2, b3, b4, b5, b6, b7] := by
  match b, h with
  | [b0, b1, b2, b3, b4, b5, b6, b7], _ => exact ⟨b0, b1, b2, b3, b4, b5, b6, b7, rfl⟩

theorem chunks8_block {b : List Byte} (h : b.length = 8) (rest : List Byte) : chunks8 (b ++ rest) = b :: chunks8 rest := by
  obtain ⟨b0, b1, b2, b3, b4, b5, b6, b7, rfl⟩ := eight_bytes h
  rfl

theorem chunks8_short {q : List Byte} (h : q.length < 8) : chunks8 q = [] := by
  unfold chunks8
  split
  · simp at h; omega
  · rfl

/-- Induction over the blocks of a byte list: a block and the rest, or fewer than 8 bytes. -/
theorem blocks_induction {P : List Byte → Prop} (short : ∀ q, q.length < 8 → P q)
    (block : ∀ b rest, b.length = 8 → P rest → P (b ++ rest)) (q : List Byte) : P q := by
  have key : ∀ n (q : List Byte), q.length ≤ n → P q := by
    intro n
    induction n with
    | zero => intro q h; exact short q (by omega)
    | succ n ih =>
      intro q h
      by_cases h8 : q.length < 8
      · exact short q h8
      · rw [← List.take_append_drop 8 q]
        exact block _ _ (by simp; omega) (ih _ (by simp; omega))
  exact key _ q le_rfl

theorem encBlocks_short {q : List Byte} (h : q.length < 8) (k : Key) (r : Word) : encBlocks q k r = [] := by
  simp [encBlocks, chunks8_short h]

theorem encBlocks_block {b : List Byte} (h : b.length = 8) (rest : List Byte) (k : Key) (r : Word) :
    encBlocks (b ++ rest) k r = encryptBlock b k r ++ encBlocks rest k r := by
  simp [encBlocks, chunks8_block h]

theorem decBlocks_short {q : List Byte} (h : q.length < 8) (k : Key) (r : Word) : decBlocks q k r = [] := by
  simp [decBlocks, chunks8_short h]

theorem decBlocks_block {b : List Byte} (h : b.length = 8) (rest : List Byte) (k : Key) (r : Word) :
    decBlocks (b ++ rest) k r = decryptBlock b k r ++ decBlocks rest k r := by
  simp [decBlocks, chunks8_block h]

theorem encBlocks_length (q : List Byte) (k : Key) (r : Word) : (encBlocks q k r).length = q.length / 8 * 8 := by
  induction q using blocks_induction with
  | short q h => rw [encBlocks_short h]; simp; omega
  | block b rest h ih => rw [encBlocks_block h]; simp [ih, h]; omega

theorem decBlocks_length (q : List Byte) (k : Key) (r : Word) : (decBlocks q k r).length = q.length / 8 * 8 := by
  induction q using blocks_induction with
  | short q h => rw [decBlocks_short h]; simp; omega
  | block b rest h ih => rw [decBlocks_block h]; simp [ih, h]; omega

/-! ### The content of decrypted blocks (43 R184, R185) -/

theorem decContent_nil (first : Bool) : decContent first [] = [] := by cases first <;> rfl

theorem decContent_later (q : List Byte) : decContent false q = q := rfl

/-- A first block whose fill check fails has no content. -/
theorem decContent_bad {a : List Byte} (b : List Byte) (h : a.length = 8) (bad : fillMarker a > 8) :
    decContent true (a ++ b) = [] := by
  have ha : a ≠ [] := by rintro rfl; cases h
  simp [decContent, fillMarker_append b ha, bad]

/-- A first block whose fill check passes leaves the bytes after the marker and the pad bytes, and all later blocks. -/
theorem decContent_good {a : List Byte} (b : List Byte) (h : a.length = 8) (good : fillMarker a ≤ 8) :
    decContent true (a ++ b) = a.drop (fillMarker a) ++ b := by
  have ha : a ≠ [] := by rintro rfl; cases h
  have hg : ¬fillMarker a > 8 := by omega
  rw [decContent, if_pos rfl, if_neg (by simp [ha]), fillMarker_append b ha, if_neg hg,
    List.drop_append_of_le_length (by omega)]

/-! ### Runs of engine steps -/

theorem engineRun_succ {p : Params} {e e' : Engine} (k : Nat) (h : engineStep p e = some e') :
    engineRun p (k + 1) e = engineRun p k e' := by simp [engineRun, h]

theorem engineRun_one {p : Params} {e e' : Engine} (h : engineStep p e = some e') : engineRun p 1 e = some e' :=
  engineRun_succ 0 h

theorem engineRun_add {p : Params} (m n : Nat) {e e' : Engine} (h : engineRun p m e = some e') :
    engineRun p (m + n) e = engineRun p n e' := by
  induction m generalizing e with
  | zero => cases h; simp
  | succ m ih =>
    simp only [engineRun] at h
    split at h
    · rename_i e1 he
      rw [show m + 1 + n = (m + n) + 1 by omega, engineRun_succ _ he]; exact ih h
    · cases h

end Sys2Proof.Machine
end

