-- ==== Sys2Proof/Laws/Decode.lean ====
section
/-! SUPPORT. The fields of the two formats, read back from what the encoder writes. -/

namespace Sys2Proof

@[simp] theorem descOff_descriptor (w : Bool) (s : BitVec 2) (b : Bool) (off : BitVec 12) :
    descOff (descriptor w s b off) = off := by
  ext i hi
  interval_cases i <;> simp [descOff, descriptor]

@[simp] theorem descBit12_descriptor (w : Bool) (s : BitVec 2) (b : Bool) (off : BitVec 12) :
    descBit12 (descriptor w s b off) = b := by
  simp [descBit12, descriptor]

@[simp] theorem descSize_descriptor (w : Bool) (s : BitVec 2) (b : Bool) (off : BitVec 12) :
    descSize (descriptor w s b off) = s := by
  ext i hi
  interval_cases i <;> simp [descSize, descriptor]

@[simp] theorem descWrite_descriptor (w : Bool) (s : BitVec 2) (b : Bool) (off : BitVec 12) :
    descWrite (descriptor w s b off) = w := by
  simp [descWrite, descriptor]

/-- `0x4000 | o` is the descriptor of a 4-byte read (30 R85). -/
theorem readDescriptor_eq (off : BitVec 12) : readDescriptor off = descriptor false 2#2 false off := by
  ext i hi
  interval_cases i <;> simp [readDescriptor, descriptor]

/-- `0xC000 | o` is the descriptor of a 4-byte write (30 R85). -/
theorem writeDescriptor_eq (off : BitVec 12) : writeDescriptor off = descriptor true 2#2 false off := by
  ext i hi
  interval_cases i <;> simp [writeDescriptor, descriptor]

@[simp] theorem cmdImm_keyFoldWord (imm : Byte) : cmdImm (keyFoldWord imm) = imm := by
  ext i hi
  interval_cases i <;> simp [cmdImm, keyFoldWord]

@[simp] theorem cmdOp_keyFoldWord (imm : Byte) : cmdOp (keyFoldWord imm) = 0x02 := by
  ext i hi
  interval_cases i <;> simp [cmdOp, keyFoldWord]

@[simp] theorem cmdRes_keyFoldWord (imm : Byte) : cmdRes (keyFoldWord imm) = 0 := by
  ext i hi
  interval_cases i <;> simp [cmdRes, keyFoldWord]

/-- A descriptor is made of its four fields (30 R85). -/
theorem descriptor_fields (d : BitVec 16) :
    descriptor (descWrite d) (descSize d) (descBit12 d) (descOff d) = d := by
  ext i hi
  interval_cases i <;> simp [descriptor, descWrite, descSize, descBit12, descOff]

/-- A command word is made of its three fields (30 R80). -/
theorem command_fields (w : Word) :
    w.toNat = (cmdRes w).toNat * 65536 + (cmdImm w).toNat * 256 + (cmdOp w).toNat := by
  simp only [cmdRes, cmdImm, cmdOp, BitVec.extractLsb'_toNat, Nat.shiftRight_eq_div_pow]
  have := w.isLt; omega

/-- What the decoder names for a command word encodes to that word. -/
theorem encode_decodeCommand {w : Word} {i : Instr} (h : decodeCommand w = .ok i) : encode i = .command w := by
  have fields := command_fields w
  unfold decodeCommand at h
  by_cases hres : cmdRes w = 0
  · rw [if_neg (by simp [hres])] at h
    by_cases hop : cmdOp w = 0x02
    · rw [if_pos hop] at h
      cases h
      simp only [encode]
      congr 1
      apply BitVec.eq_of_toNat_eq
      have : (keyFoldWord (cmdImm w)).toNat = 2 + (cmdImm w).toNat * 256 := by
        generalize cmdImm w = x
        revert x; decide +kernel
      rw [this, fields, hres, hop]; simp; omega
    · rw [if_neg hop] at h
      by_cases himm : cmdImm w = 0
      · rw [if_neg (by simp [himm])] at h
        rw [hres, himm] at fields
        split at h <;> cases h <;> rename_i hk <;> rw [hk] at fields <;>
          (simp only [encode]; congr 1; apply BitVec.eq_of_toNat_eq; rw [fields]; rfl)
      · rw [if_pos himm] at h; cases h
  · rw [if_pos hres] at h; cases h

/-- What the decoder can name for a bus transaction: a BUSERR row, a read or a write (30 R86). -/
theorem decode_bus_cases {d : BitVec 16} {data : Word} {i : Instr} (h : decode (.bus d data) = .ok i) :
    (descSize d ≠ 2#2 ∨ (descOff d).toNat % 4 ≠ 0) ∨
      (descOff d).toNat % 4 = 0 ∧ (descOff d).toNat < 0x100 ∧
        (d = readDescriptor (descOff d) ∧ i = decodeRead (descOff d) ∨
          d = writeDescriptor (descOff d) ∧ i = decodeWrite (descOff d) data) := by
  by_cases hsize : descSize d = 2#2
  · by_cases hoff : (descOff d).toNat % 4 = 0
    · have fields := descriptor_fields d
      simp only [decode, decodeBus, hsize, BitVec.reduceToNat, decodeFourByte, hoff, decodeRegister] at h
      cases hb : descBit12 d with
      | true => simp [hb] at h
      | false =>
        simp only [hb, Bool.false_eq_true, if_false] at h
        split at h
        · cases h
        · refine .inr ⟨hoff, by omega, ?_⟩
          rw [hsize, hb] at fields
          cases hw : descWrite d with
          | true =>
            rw [hw] at h fields
            exact .inr ⟨by rw [writeDescriptor_eq, fields], by simpa using h.symm⟩
          | false =>
            rw [hw] at h fields
            exact .inl ⟨by rw [readDescriptor_eq, fields], by simpa using h.symm⟩
    · exact .inl (.inr hoff)
  · exact .inl (.inl hsize)

/-- KEY_FOLD is legal for every immediate (30 R83). -/
theorem legal_keyFoldWord (imm : Byte) : legal (keyFoldWord imm) = true := by simp [legal, opcodes]

end Sys2Proof
end

