-- ==== Sys2Proof/Laws/Encoding.lean ====
section
/-! SUPPORT. The rows of spec/opcode_table.json as patterns under masks, and what the encoder's forms hold under them. -/

namespace Sys2Proof.Laws

open Sys2Proof

/-- A row of spec/opcode_table.json: its format, "match" and "mask". -/
structure TableRow where
  isCommand : Bool
  pattern : Nat
  mask : Nat
deriving DecidableEq, Repr

/-- The row of an instruction, copied from spec/opcode_table.json. -/
def tableRow : Instr → TableRow
  | .nop => ⟨true, 0x00000000, 0xFFFFFFFF⟩
  | .keyClear => ⟨true, 0x00000001, 0xFFFFFFFF⟩
  | .keyFold _ => ⟨true, 0x00000002, 0xFFFF00FF⟩
  | .keyPass => ⟨true, 0x00000003, 0xFFFFFFFF⟩
  | .keyRaw => ⟨true, 0x00000004, 0xFFFFFFFF⟩
  | .encBlock => ⟨true, 0x00000010, 0xFFFFFFFF⟩
  | .decBlock => ⟨true, 0x00000011, 0xFFFFFFFF⟩
  | .encBuf => ⟨true, 0x00000020, 0xFFFFFFFF⟩
  | .decBuf => ⟨true, 0x00000021, 0xFFFFFFFF⟩
  | .encStream => ⟨true, 0x00000022, 0xFFFFFFFF⟩
  | .decStream => ⟨true, 0x00000023, 0xFFFFFFFF⟩
  | .rdId => ⟨false, 0x4000, 0xFFFF⟩
  | .rdCfg => ⟨false, 0x4004, 0xFFFF⟩
  | .rdCtrl => ⟨false, 0x4008, 0xFFFF⟩
  | .rdStatus => ⟨false, 0x400C, 0xFFFF⟩
  | .rdCmd => ⟨false, 0x4010, 0xFFFF⟩
  | .rdRounds => ⟨false, 0x4014, 0xFFFF⟩
  | .rdLenLo => ⟨false, 0x4018, 0xFFFF⟩
  | .rdLenHi => ⟨false, 0x401C, 0xFFFF⟩
  | .rdKeyA => ⟨false, 0x4020, 0xFFFF⟩
  | .rdKeyB => ⟨false, 0x4024, 0xFFFF⟩
  | .rdKeyC => ⟨false, 0x4028, 0xFFFF⟩
  | .rdKeyD => ⟨false, 0x402C, 0xFFFF⟩
  | .rdBlkY => ⟨false, 0x4030, 0xFFFF⟩
  | .rdBlkZ => ⟨false, 0x4034, 0xFFFF⟩
  | .rdFifoStat => ⟨false, 0x4038, 0xFFFF⟩
  | .rdInCnt => ⟨false, 0x403C, 0xFFFF⟩
  | .rdOutCnt => ⟨false, 0x4040, 0xFFFF⟩
  | .rdDin => ⟨false, 0x4044, 0xFFFF⟩
  | .rdDout => ⟨false, 0x4048, 0xFFFF⟩
  | .wrId _ => ⟨false, 0xC000, 0xFFFF⟩
  | .wrCfg _ => ⟨false, 0xC004, 0xFFFF⟩
  | .wrCtrl _ => ⟨false, 0xC008, 0xFFFF⟩
  | .wrStatus _ => ⟨false, 0xC00C, 0xFFFF⟩
  | .wrCmd _ => ⟨false, 0xC010, 0xFFFF⟩
  | .wrRounds _ => ⟨false, 0xC014, 0xFFFF⟩
  | .wrLenLo _ => ⟨false, 0xC018, 0xFFFF⟩
  | .wrLenHi _ => ⟨false, 0xC01C, 0xFFFF⟩
  | .wrKeyA _ => ⟨false, 0xC020, 0xFFFF⟩
  | .wrKeyB _ => ⟨false, 0xC024, 0xFFFF⟩
  | .wrKeyC _ => ⟨false, 0xC028, 0xFFFF⟩
  | .wrKeyD _ => ⟨false, 0xC02C, 0xFFFF⟩
  | .wrBlkY _ => ⟨false, 0xC030, 0xFFFF⟩
  | .wrBlkZ _ => ⟨false, 0xC034, 0xFFFF⟩
  | .wrFifoStat _ => ⟨false, 0xC038, 0xFFFF⟩
  | .wrInCnt _ => ⟨false, 0xC03C, 0xFFFF⟩
  | .wrOutCnt _ => ⟨false, 0xC040, 0xFFFF⟩
  | .wrDin _ => ⟨false, 0xC044, 0xFFFF⟩
  | .wrDout _ => ⟨false, 0xC048, 0xFFFF⟩
  | .rdReserved04c04c => ⟨false, 0x404C, 0xFFFF⟩
  | .rdReserved05005c _ => ⟨false, 0x4050, 0xFFF3⟩
  | .rdReserved06007c _ => ⟨false, 0x4060, 0xFFE3⟩
  | .rdReserved0800fc _ => ⟨false, 0x4080, 0xFF83⟩
  | .wrReserved04c04c _ => ⟨false, 0xC04C, 0xFFFF⟩
  | .wrReserved05005c _ _ => ⟨false, 0xC050, 0xFFF3⟩
  | .wrReserved06007c _ _ => ⟨false, 0xC060, 0xFFE3⟩
  | .wrReserved0800fc _ _ => ⟨false, 0xC080, 0xFF83⟩
  | .buserrSize1byte _ _ _ => ⟨false, 0x0000, 0x6000⟩
  | .buserrSize2byte _ _ _ => ⟨false, 0x2000, 0x6000⟩
  | .buserrSize8byte _ _ _ => ⟨false, 0x6000, 0x6000⟩
  | .buserrMisaligned1 _ _ _ => ⟨false, 0x4001, 0x6003⟩
  | .buserrMisaligned2 _ _ _ => ⟨false, 0x4002, 0x6003⟩
  | .buserrMisaligned3 _ _ _ => ⟨false, 0x4003, 0x6003⟩

/-- A transaction has the format of a row and its pattern under its mask. -/
def TableRow.Matches (row : TableRow) : Access → Prop
  | .command w => row.isCommand = true ∧ w &&& BitVec.ofNat 32 row.mask = BitVec.ofNat 32 row.pattern
  | .bus d _ => row.isCommand = false ∧ d &&& BitVec.ofNat 16 row.mask = BitVec.ofNat 16 row.pattern

theorem keyFold_row (imm : Byte) : (tableRow (.keyFold imm)).Matches (encode (.keyFold imm)) := by
  refine ⟨rfl, ?_⟩
  ext i hi
  interval_cases i <;> simp [keyFoldWord, tableRow]

theorem write_row {off : BitVec 12} {pattern : Nat} (data : Word)
    (h : writeDescriptor off &&& 0xFFFF#16 = BitVec.ofNat 16 pattern) :
    TableRow.Matches ⟨false, pattern, 0xFFFF⟩ (.bus (writeDescriptor off) data) := ⟨rfl, h⟩

theorem size_row (write : Bool) (size : BitVec 2) (bit12 : Bool) (off : BitVec 12) :
    TableRow.Matches ⟨false, size.toNat * 0x2000, 0x6000⟩ (.bus (descriptor write size bit12 off) 0#32) := by
  refine ⟨rfl, ?_⟩
  have h : BitVec.ofNat 16 (size.toNat * 0x2000) = size.setWidth 16 <<< 13 := by revert size; decide
  rw [h]
  ext i hi
  interval_cases i <;> simp [descriptor]

theorem misaligned_row (write bit12 : Bool) {off : BitVec 12} {k : Nat} (h : off.toNat % 4 = k) :
    TableRow.Matches ⟨false, 0x4000 + k, 0x6003⟩ (.bus (descriptor write 2#2 bit12 off) 0#32) := by
  refine ⟨rfl, ?_⟩
  have h : BitVec.ofNat 16 (0x4000 + k) = 0x4000#16 ||| (off &&& 3#12).setWidth 16 := by
    subst h; revert off; decide +kernel
  rw [h]
  ext i hi
  interval_cases i <;> simp [descriptor]

theorem readReserved_050 (off : BitVec 12) (h : reservedOffset 0x050 0x05C off = true) :
    TableRow.Matches ⟨false, 0x4050, 0xFFF3⟩ (.bus (readDescriptor off) 0#32) := by
  refine ⟨rfl, ?_⟩; revert off; decide +kernel

theorem readReserved_060 (off : BitVec 12) (h : reservedOffset 0x060 0x07C off = true) :
    TableRow.Matches ⟨false, 0x4060, 0xFFE3⟩ (.bus (readDescriptor off) 0#32) := by
  refine ⟨rfl, ?_⟩; revert off; decide +kernel

theorem readReserved_080 (off : BitVec 12) (h : reservedOffset 0x080 0x0FC off = true) :
    TableRow.Matches ⟨false, 0x4080, 0xFF83⟩ (.bus (readDescriptor off) 0#32) := by
  refine ⟨rfl, ?_⟩; revert off; decide +kernel

theorem writeReserved_050 (off : BitVec 12) {data : Word} (h : reservedOffset 0x050 0x05C off = true) :
    TableRow.Matches ⟨false, 0xC050, 0xFFF3⟩ (.bus (writeDescriptor off) data) := by
  refine ⟨rfl, ?_⟩; revert off; decide +kernel

theorem writeReserved_060 (off : BitVec 12) {data : Word} (h : reservedOffset 0x060 0x07C off = true) :
    TableRow.Matches ⟨false, 0xC060, 0xFFE3⟩ (.bus (writeDescriptor off) data) := by
  refine ⟨rfl, ?_⟩; revert off; decide +kernel

theorem writeReserved_080 (off : BitVec 12) {data : Word} (h : reservedOffset 0x080 0x0FC off = true) :
    TableRow.Matches ⟨false, 0xC080, 0xFF83⟩ (.bus (writeDescriptor off) data) := by
  refine ⟨rfl, ?_⟩; revert off; decide +kernel

end Sys2Proof.Laws
end

