-- ==== Sys2Proof/Laws/PerInstr.lean ====
section
/-! SUPPORT. Families of statements with one lemma per instruction. EncodingMatchesTable: what the encoder writes for a
well-formed instruction has the format and, under the mask, the pattern of its row of spec/opcode_table.json. -/

namespace Sys2Proof.Laws

open Sys2Proof

namespace EncodingMatchesTable

/-- The encoding of a well-formed instruction matches its row. -/
def Statement (i : Instr) : Prop := i.wellFormed = true → (tableRow i).Matches (encode i)

theorem nop : Statement (.nop) := fun _ => ⟨rfl, rfl⟩
theorem keyClear : Statement (.keyClear) := fun _ => ⟨rfl, rfl⟩
theorem keyFold (imm : Byte) : Statement (.keyFold imm) := fun _ => keyFold_row imm
theorem keyPass : Statement (.keyPass) := fun _ => ⟨rfl, rfl⟩
theorem keyRaw : Statement (.keyRaw) := fun _ => ⟨rfl, rfl⟩
theorem encBlock : Statement (.encBlock) := fun _ => ⟨rfl, rfl⟩
theorem decBlock : Statement (.decBlock) := fun _ => ⟨rfl, rfl⟩
theorem encBuf : Statement (.encBuf) := fun _ => ⟨rfl, rfl⟩
theorem decBuf : Statement (.decBuf) := fun _ => ⟨rfl, rfl⟩
theorem encStream : Statement (.encStream) := fun _ => ⟨rfl, rfl⟩
theorem decStream : Statement (.decStream) := fun _ => ⟨rfl, rfl⟩
theorem rdId : Statement (.rdId) := fun _ => ⟨rfl, rfl⟩
theorem rdCfg : Statement (.rdCfg) := fun _ => ⟨rfl, rfl⟩
theorem rdCtrl : Statement (.rdCtrl) := fun _ => ⟨rfl, rfl⟩
theorem rdStatus : Statement (.rdStatus) := fun _ => ⟨rfl, rfl⟩
theorem rdCmd : Statement (.rdCmd) := fun _ => ⟨rfl, rfl⟩
theorem rdRounds : Statement (.rdRounds) := fun _ => ⟨rfl, rfl⟩
theorem rdLenLo : Statement (.rdLenLo) := fun _ => ⟨rfl, rfl⟩
theorem rdLenHi : Statement (.rdLenHi) := fun _ => ⟨rfl, rfl⟩
theorem rdKeyA : Statement (.rdKeyA) := fun _ => ⟨rfl, rfl⟩
theorem rdKeyB : Statement (.rdKeyB) := fun _ => ⟨rfl, rfl⟩
theorem rdKeyC : Statement (.rdKeyC) := fun _ => ⟨rfl, rfl⟩
theorem rdKeyD : Statement (.rdKeyD) := fun _ => ⟨rfl, rfl⟩
theorem rdBlkY : Statement (.rdBlkY) := fun _ => ⟨rfl, rfl⟩
theorem rdBlkZ : Statement (.rdBlkZ) := fun _ => ⟨rfl, rfl⟩
theorem rdFifoStat : Statement (.rdFifoStat) := fun _ => ⟨rfl, rfl⟩
theorem rdInCnt : Statement (.rdInCnt) := fun _ => ⟨rfl, rfl⟩
theorem rdOutCnt : Statement (.rdOutCnt) := fun _ => ⟨rfl, rfl⟩
theorem rdDin : Statement (.rdDin) := fun _ => ⟨rfl, rfl⟩
theorem rdDout : Statement (.rdDout) := fun _ => ⟨rfl, rfl⟩
theorem wrId (data : Word) : Statement (.wrId data) := fun _ => write_row data (by decide)
theorem wrCfg (data : Word) : Statement (.wrCfg data) := fun _ => write_row data (by decide)
theorem wrCtrl (data : Word) : Statement (.wrCtrl data) := fun _ => write_row data (by decide)
theorem wrStatus (data : Word) : Statement (.wrStatus data) := fun _ => write_row data (by decide)
theorem wrCmd (word : Word) : Statement (.wrCmd word) := fun _ => write_row word (by decide)
theorem wrRounds (data : Word) : Statement (.wrRounds data) := fun _ => write_row data (by decide)
theorem wrLenLo (data : Word) : Statement (.wrLenLo data) := fun _ => write_row data (by decide)
theorem wrLenHi (data : Word) : Statement (.wrLenHi data) := fun _ => write_row data (by decide)
theorem wrKeyA (data : Word) : Statement (.wrKeyA data) := fun _ => write_row data (by decide)
theorem wrKeyB (data : Word) : Statement (.wrKeyB data) := fun _ => write_row data (by decide)
theorem wrKeyC (data : Word) : Statement (.wrKeyC data) := fun _ => write_row data (by decide)
theorem wrKeyD (data : Word) : Statement (.wrKeyD data) := fun _ => write_row data (by decide)
theorem wrBlkY (data : Word) : Statement (.wrBlkY data) := fun _ => write_row data (by decide)
theorem wrBlkZ (data : Word) : Statement (.wrBlkZ data) := fun _ => write_row data (by decide)
theorem wrFifoStat (data : Word) : Statement (.wrFifoStat data) := fun _ => write_row data (by decide)
theorem wrInCnt (data : Word) : Statement (.wrInCnt data) := fun _ => write_row data (by decide)
theorem wrOutCnt (data : Word) : Statement (.wrOutCnt data) := fun _ => write_row data (by decide)
theorem wrDin (data : Word) : Statement (.wrDin data) := fun _ => write_row data (by decide)
theorem wrDout (data : Word) : Statement (.wrDout data) := fun _ => write_row data (by decide)
theorem rdReserved04c04c : Statement (.rdReserved04c04c) := fun _ => ⟨rfl, rfl⟩
theorem rdReserved05005c (off : BitVec 12) : Statement (.rdReserved05005c off) := fun h => readReserved_050 off h
theorem rdReserved06007c (off : BitVec 12) : Statement (.rdReserved06007c off) := fun h => readReserved_060 off h
theorem rdReserved0800fc (off : BitVec 12) : Statement (.rdReserved0800fc off) := fun h => readReserved_080 off h
theorem wrReserved04c04c (data : Word) : Statement (.wrReserved04c04c data) := fun _ => write_row data (by decide)
theorem wrReserved05005c (off : BitVec 12) (data : Word) : Statement (.wrReserved05005c off data) := fun h => writeReserved_050 off h
theorem wrReserved06007c (off : BitVec 12) (data : Word) : Statement (.wrReserved06007c off data) := fun h => writeReserved_060 off h
theorem wrReserved0800fc (off : BitVec 12) (data : Word) : Statement (.wrReserved0800fc off data) := fun h => writeReserved_080 off h
theorem buserrSize1byte (write : Bool) (bit12 : Bool) (off : BitVec 12) : Statement (.buserrSize1byte write bit12 off) := fun _ => size_row write 0#2 bit12 off
theorem buserrSize2byte (write : Bool) (bit12 : Bool) (off : BitVec 12) : Statement (.buserrSize2byte write bit12 off) := fun _ => size_row write 1#2 bit12 off
theorem buserrSize8byte (write : Bool) (bit12 : Bool) (off : BitVec 12) : Statement (.buserrSize8byte write bit12 off) := fun _ => size_row write 3#2 bit12 off
theorem buserrMisaligned1 (write : Bool) (bit12 : Bool) (off : BitVec 12) : Statement (.buserrMisaligned1 write bit12 off) := fun h => misaligned_row (k := 1) write bit12 (by simpa [Instr.wellFormed] using h)
theorem buserrMisaligned2 (write : Bool) (bit12 : Bool) (off : BitVec 12) : Statement (.buserrMisaligned2 write bit12 off) := fun h => misaligned_row (k := 2) write bit12 (by simpa [Instr.wellFormed] using h)
theorem buserrMisaligned3 (write : Bool) (bit12 : Bool) (off : BitVec 12) : Statement (.buserrMisaligned3 write bit12 off) := fun h => misaligned_row (k := 3) write bit12 (by simpa [Instr.wellFormed] using h)

end EncodingMatchesTable

end Sys2Proof.Laws
end

