-- ==== Sys2Proof/Laws/Steps.lean ====
section
/-! SUPPORT. What an instruction, an engine step and a step of the machine can do, each said once: later proofs take these
apart with `obtain` instead of unfolding `exec`, `engineStep` or `step`. -/

namespace Sys2Proof.Machine

open Sys2Proof

/-! ### Acceptance (40 R107) -/

/-- Everything `accept` can do after its first lines, to an engine at rest that holds the word's opcode in OP. -/
inductive Accepts (e : Engine) : Engine → Prop where
  /-- Illegal (40 R108). -/
  | illegal : Accepts e (e.finish false .illegalCmd)
  /-- NOP, KEY_CLEAR, KEY_FOLD, ENC_BUF with LEN = 0: OK at once, with some key. -/
  | done (key : Key) (op : e.lastOp ∈ opcodes) : Accepts e ({ e with key := key }.finish true .none)
  /-- DEC_BUF with a bad LEN. -/
  | badLen (op : e.lastOp = 0x21) : Accepts e (e.finish false .badLen)
  /-- KEY_PASS. -/
  | keyPass (op : e.lastOp = Op.keyPass.code) : Accepts e (acceptKeyPass e)
  /-- KEY_RAW. -/
  | keyRaw (op : e.lastOp = Op.keyRaw.code) : Accepts e (acceptKeyRaw e)
  /-- ENC_BLOCK. -/
  | encBlock (op : e.lastOp = Op.encBlock.code) : Accepts e (e.start .encBlock blockCtx)
  /-- DEC_BLOCK. -/
  | decBlock (op : e.lastOp = Op.decBlock.code) : Accepts e (e.start .decBlock blockCtx)
  /-- ENC_BUF and ENC_STREAM. -/
  | encrypt (o : Op) (enc : o.encrypts = true) (op : e.lastOp = o.code) : Accepts e (e.start o (encCtx e.len))
  /-- DEC_BUF with a good LEN. -/
  | decBuf (op : e.lastOp = Op.decBuf.code) (len : e.len.toNat % 8 = 0) :
      Accepts e (e.start .decBuf (decCtx (some e.len)))
  /-- DEC_STREAM. -/
  | decStream (op : e.lastOp = Op.decStream.code) : Accepts e (e.start .decStream (decCtx none))

theorem accepts_done_same (e : Engine) (op : e.lastOp ∈ opcodes) : Accepts e (e.finish true .none) :=
  Accepts.done (e := e) e.key op

theorem accepts_encBuf (e : Engine) (op : e.lastOp = 0x20) : Accepts e (acceptEncBuf e) := by
  unfold acceptEncBuf
  split
  · exact accepts_done_same e (by rw [op]; decide)
  · exact .encrypt .encBuf rfl op

theorem accepts_decBuf (e : Engine) (op : e.lastOp = 0x21) : Accepts e (acceptDecBuf e) := by
  unfold acceptDecBuf
  split
  · exact .badLen op
  · exact .decBuf op (by simp_all)

/-- What a CMD write of any word does to an engine at rest. -/
theorem acceptWord_accepts (w : Word) (e : Engine) (op : e.lastOp = cmdOp w) : Accepts e (acceptWord w e) := by
  unfold acceptWord
  split
  · rename_i h
    have hmem : cmdOp w ∈ opcodes := by
      simp only [legal, Bool.and_eq_true] at h; exact List.contains_iff_mem.1 h.1.2
    have hop : e.lastOp ∈ opcodes := op ▸ hmem
    simp only [opcodes, List.mem_cons, List.not_mem_nil, or_false] at hmem
    rcases hmem with hc | hc | hc | hc | hc | hc | hc | hc | hc | hc | hc <;> rw [hc] at op <;>
      simp only [acceptLegal, hc]
    · exact accepts_done_same e hop
    · exact .done _ hop
    · exact .done _ hop
    · exact .keyPass op
    · exact .keyRaw op
    · exact .encBlock op
    · exact .decBlock op
    · exact accepts_encBuf e op
    · exact accepts_decBuf e op
    · exact .encrypt .encStream rfl op
    · exact .decStream op
  · exact .illegal

/-! ### Instructions -/

/-- The word an instruction presents to CMD, when it presents one (40 R106). -/
def commandWord : Instr → Option Word
  | .wrCmd w => some w
  | i => match encode i with
    | .command w => some w
    | .bus _ _ => none

/-- Everything an instruction can do to the engine. -/
inductive Effect (p : Params) (i : Instr) (e : Engine) : Engine → Prop where
  /-- A read without a side effect, an ignored write, or a DOUT read of an empty FIFO. -/
  | same : Effect p i e e
  /-- A DOUT read (40 R105). -/
  | pop (b : Byte) (rest : List Byte) (h : e.outq = b :: rest) : Effect p i e { e with outq := rest }
  /-- A CTRL write (40 R102). -/
  | control (d : Word) (h : i = .wrCtrl d) : Effect p i e (Engine.control d e)
  /-- A STATUS write (40 R103). -/
  | clear (d : Word) : Effect p i e (Engine.clearFlags d e)
  /-- A DIN write (40 R104). -/
  | push (d : Word) (h : i = .wrDin d) : Effect p i e (Engine.pushIn p (dinEntry d) e)
  /-- A config or CMD write to a busy engine (40 R101, R106). -/
  | rejected (busy : e.busy = true) : Effect p i e { e with rej := true }
  /-- A config write to an idle engine (40 R101). -/
  | config (idle : e.seq = .idle) (key : Key) (rounds : Word) (len : Quad) (y z : Word) :
      Effect p i e { e with key := key, rounds := rounds, len := len, blkY := y, blkZ := z }
  /-- A command word accepted by an idle engine (40 R106, R107). -/
  | command (idle : e.seq = .idle) (w : Word) (h : commandWord i = some w) (t : Engine)
      (acc : Accepts (e.accepted (cmdOp w)) t) : Effect p i e t

theorem unlessBusy_next {f : Engine → Engine} {s t : State} (h : unlessBusy f s = .next t) :
    (s.engine.busy = true ∧ t = s.setEngine { s.engine with rej := true }) ∨
      (s.engine.seq = .idle ∧ t = s.setEngine (f s.engine)) := by
  cases hb : s.engine.busy with
  | true => rw [unlessBusy_busy hb] at h; exact .inl ⟨rfl, by simpa using h.symm⟩
  | false =>
    have hi := (Engine.busy_eq_false_iff _).1 hb
    rw [unlessBusy_idle hi] at h; exact .inr ⟨hi, by simpa using h.symm⟩

theorem popDout_next {s t : State} (h : popDout s = .next t) :
    t.params = s.params ∧ t.port = s.port ∧
      (t.engine = s.engine ∨ ∃ b rest, s.engine.outq = b :: rest ∧ t.engine = { s.engine with outq := rest }) := by
  unfold popDout at h
  split at h <;> rename_i hq <;> cases h
  · exact ⟨rfl, rfl, .inr ⟨_, _, hq, rfl⟩⟩
  · exact ⟨rfl, rfl, .inl rfl⟩

/-- A transaction that only changes the engine, as an effect. -/
theorem update_effect {p : Params} {i : Instr} {f : Engine → Engine} {s t : State} (h : updateEngine f s = .next t)
    (hf : Effect p i s.engine (f s.engine)) :
    t.params = s.params ∧ t.port = s.port ∧ Effect p i s.engine t.engine := by
  simp only [updateEngine, Host.Outcome.next.injEq] at h
  subst h; exact ⟨rfl, rfl, hf⟩

theorem answerRead_effect {p : Params} {i : Instr} {w : Word} {s t : State} (h : answerRead w s = .next t) :
    t.params = s.params ∧ t.port = s.port ∧ Effect p i s.engine t.engine := by
  simp only [answerRead, Host.Outcome.next.injEq] at h
  subst h; exact ⟨rfl, rfl, .same⟩

theorem ignoreWrite_effect {p : Params} {i : Instr} {s t : State} (h : ignoreWrite s = .next t) :
    t.params = s.params ∧ t.port = s.port ∧ Effect p i s.engine t.engine := by
  simp only [ignoreWrite, Host.Outcome.next.injEq] at h
  subst h; exact ⟨rfl, rfl, .same⟩

/-- A config write, as an effect. -/
theorem config_effect {p : Params} {i : Instr} {f : Engine → Engine} {s t : State} (h : unlessBusy f s = .next t)
    (hf : ∃ key rounds len y z,
      f s.engine = { s.engine with key := key, rounds := rounds, len := len, blkY := y, blkZ := z }) :
    t.params = s.params ∧ t.port = s.port ∧ Effect p i s.engine t.engine := by
  rcases unlessBusy_next h with ⟨hb, rfl⟩ | ⟨hi, rfl⟩
  · exact ⟨rfl, rfl, .rejected hb⟩
  · obtain ⟨key, rounds, len, y, z, hf⟩ := hf
    refine ⟨rfl, rfl, ?_⟩
    rw [State.setEngine_engine, hf]
    exact .config hi key rounds len y z

/-- A command presented, as an effect. -/
theorem command_effect {p : Params} {i : Instr} {f : Engine → Engine} {s t : State} {op : Byte} (w : Word)
    (h : presentCommand op f s = .next t) (hw : commandWord i = some w) (hop : cmdOp w = op)
    (hf : Accepts (s.engine.accepted (cmdOp w)) (f (s.engine.accepted (cmdOp w)))) :
    t.params = s.params ∧ t.port = s.port ∧ Effect p i s.engine t.engine := by
  subst hop
  rcases unlessBusy_next h with ⟨hb, rfl⟩ | ⟨hi, rfl⟩
  · exact ⟨rfl, rfl, .rejected hb⟩
  · exact ⟨rfl, rfl, .command hi w hw _ hf⟩

theorem opcode_mem {e : Engine} (op : Byte) (h : e.lastOp = op) (hop : opcodes.contains op = true) :
    e.lastOp ∈ opcodes := h ▸ List.contains_iff_mem.1 hop

/-- What an instruction that answers a next state did. -/
theorem exec_effect {i : Instr} {s t : State} (h : exec i s = .next t) :
    t.params = s.params ∧ t.port = s.port ∧ Effect s.params i s.engine t.engine := by
  cases i <;> simp only [exec] at h
  case nop => exact command_effect 0x00 h rfl rfl (accepts_done_same _ (opcode_mem 0x00 rfl rfl))
  case keyClear => exact command_effect 0x01 h rfl rfl (.done _ (opcode_mem 0x01 rfl rfl))
  case keyFold imm =>
    exact command_effect (keyFoldWord imm) h rfl (by ext i hi; interval_cases i <;> simp [cmdOp, keyFoldWord])
      (.done _ (by
        have : cmdOp (keyFoldWord imm) = 0x02 := by ext i hi; interval_cases i <;> simp [cmdOp, keyFoldWord]
        show cmdOp (keyFoldWord imm) ∈ opcodes
        rw [this]; decide))
  case keyPass => exact command_effect 0x03 h rfl rfl (.keyPass rfl)
  case keyRaw => exact command_effect 0x04 h rfl rfl (.keyRaw rfl)
  case encBlock => exact command_effect 0x10 h rfl rfl (.encBlock rfl)
  case decBlock => exact command_effect 0x11 h rfl rfl (.decBlock rfl)
  case encBuf => exact command_effect 0x20 h rfl rfl (accepts_encBuf _ rfl)
  case decBuf => exact command_effect 0x21 h rfl rfl (accepts_decBuf _ rfl)
  case encStream => exact command_effect 0x22 h rfl rfl (.encrypt .encStream rfl rfl)
  case decStream => exact command_effect 0x23 h rfl rfl (.decStream rfl)
  case wrCmd w => exact command_effect w h rfl rfl (acceptWord_accepts w _ rfl)
  case rdDout =>
    obtain ⟨hp, ho, he | ⟨b, rest, hq, he⟩⟩ := popDout_next h
    · exact ⟨hp, ho, he ▸ .same⟩
    · exact ⟨hp, ho, he ▸ .pop b rest hq⟩
  case wrCtrl d => exact update_effect h (.control d rfl)
  case wrStatus d => exact update_effect h (.clear d)
  case wrDin d => exact update_effect h (.push d rfl)
  all_goals first
    | exact answerRead_effect h
    | exact ignoreWrite_effect h
    | exact absurd h (by simp [raiseBusError, execBuserrSize1byte, execBuserrSize2byte, execBuserrSize8byte,
        execBuserrMisaligned1, execBuserrMisaligned2, execBuserrMisaligned3])
    | exact config_effect h ⟨_, _, _, _, _, rfl⟩

/-! ### The engine step -/

/-- Everything an engine step can do (40 R113). -/
inductive EngineStep (p : Params) (e : Engine) : Engine → Prop where
  /-- KEY_PASS: one byte folded (41 R146). -/
  | keyFold (ctx : Ctx) (n : Quad) (x : Byte) (rest : List InEntry) (seq : e.seq = .run .keyPass ctx)
      (rem : ctx.rem = some n) (pos : n ≠ 0) (inq : e.inq = .byte x :: rest) :
      EngineStep p e { e with inq := rest, inCnt := e.inCnt + 1,
                              seq := .run .keyPass { ctx with kacc := fold ctx.kacc x, rem := some (n - 1) } }
  /-- KEY_RAW, ENC_*, DEC_*: one byte taken into the pending bytes (41 R147, 44 R192, R195). -/
  | take (op : Op) (ctx : Ctx) (x : Byte) (rest : List InEntry) (seq : e.seq = .run op ctx)
      (inq : e.inq = .byte x :: rest) (full : op = .keyRaw ∧ ctx.acc.length ≠ 16 ∨
        (op.encrypts || op.decrypts) = true ∧ ctx.acc.length ≠ 8) (some_rem : op.encrypts = true → ctx.rem ≠ none)
      (pos : op ≠ .keyRaw → ctx.rem ≠ some 0) :
      EngineStep p e { e with inq := rest, inCnt := e.inCnt + 1,
                              seq := .run op { ctx with acc := ctx.acc ++ [x],
                                                        rem := if op = .keyRaw then ctx.rem else ctx.rem.map (· - 1) } }
  /-- End popped where a byte is needed: SHORT_INPUT. -/
  | short (op : Op) (ctx : Ctx) (rest : List InEntry) (seq : e.seq = .run op ctx) (inq : e.inq = .endMark :: rest)
      (code : errAllowed op.code 4 = true) (acc : op.encrypts || op.decrypts → ctx.acc.length ≠ 8) :
      EngineStep p e ({ e with inq := rest }.finish false .shortInput)
  /-- DEC_STREAM's End (44 R195). -/
  | streamEnd (ctx : Ctx) (rest : List InEntry) (seq : e.seq = .run .decStream ctx) (inq : e.inq = .endMark :: rest)
      (acc : ctx.acc.length ≠ 8) :
      EngineStep p e (if ctx.acc = [] then { e with inq := rest }.finish true .none
        else { e with inq := rest }.finish false .partialBlock)
  /-- A successful end of a key or block run, with its result (40 R111). -/
  | commit (op : Op) (ctx : Ctx) (key : Key) (y z : Word) (seq : e.seq = .run op ctx)
      (codec : (op.encrypts || op.decrypts) = false) :
      EngineStep p e ({ e with key := key, blkY := y, blkZ := z }.finish true .none)
  /-- A codec run that has consumed and pushed everything. -/
  | codecDone (op : Op) (ctx : Ctx) (seq : e.seq = .run op ctx) (codec : (op.encrypts || op.decrypts) = true)
      (rem : ctx.rem = some 0) (acc : ctx.acc.length ≠ 8) (empty : op.encrypts = true → ctx.acc = []) :
      EngineStep p e (e.finish true .none)
  /-- The PARTIAL_BLOCK branch of 44 R192, which R193 shows is never taken. -/
  | partialEnc (op : Op) (ctx : Ctx) (seq : e.seq = .run op ctx) (enc : op.encrypts = true)
      (rem : ctx.rem = some 0) (acc : ctx.acc.length ≠ 8) (nonempty : ctx.acc ≠ []) :
      EngineStep p e (e.finish false .partialBlock)
  /-- An encrypted block pushed (44 R192). -/
  | pushEnc (op : Op) (ctx : Ctx) (n : Quad) (seq : e.seq = .run op ctx) (enc : op.encrypts = true)
      (rem : ctx.rem = some n) (acc : ctx.acc.length = 8) (fits : e.outq.length + 8 ≤ p.outDepth) :
      EngineStep p e ((e.pushOut (encryptBlock ctx.acc e.key e.rounds)).start op { ctx with acc := [] })
  /-- The first decrypted block fails the fill check (44 R195). -/
  | badFill (op : Op) (ctx : Ctx) (seq : e.seq = .run op ctx) (dec : op.decrypts = true) (acc : ctx.acc.length = 8)
      (first : ctx.first = true) (bad : fillMarker (decryptBlock ctx.acc e.key e.rounds) > 8) :
      EngineStep p e (e.finish false .badFill)
  /-- The first decrypted block's content pushed (44 R195). -/
  | pushFirst (op : Op) (ctx : Ctx) (seq : e.seq = .run op ctx) (dec : op.decrypts = true) (acc : ctx.acc.length = 8)
      (first : ctx.first = true) (good : fillMarker (decryptBlock ctx.acc e.key e.rounds) ≤ 8)
      (fits : e.outq.length + (8 - fillMarker (decryptBlock ctx.acc e.key e.rounds)) ≤ p.outDepth) :
      EngineStep p e ((e.pushOut ((decryptBlock ctx.acc e.key e.rounds).drop
        (fillMarker (decryptBlock ctx.acc e.key e.rounds)))).start op { ctx with acc := [], first := false })
  /-- A later decrypted block pushed (44 R195). -/
  | pushLater (op : Op) (ctx : Ctx) (seq : e.seq = .run op ctx) (dec : op.decrypts = true) (acc : ctx.acc.length = 8)
      (first : ctx.first = false) (fits : e.outq.length + 8 ≤ p.outDepth) :
      EngineStep p e ((e.pushOut (decryptBlock ctx.acc e.key e.rounds)).start op { ctx with acc := [] })

theorem encryptStep_some {p : Params} {op : Op} {ctx : Ctx} {e e' : Engine} (seq : e.seq = .run op ctx)
    (enc : op.encrypts = true) (h : encryptStep p op ctx e = some e') : EngineStep p e e' := by
  have codec : (op.encrypts || op.decrypts) = true := by simp [enc]
  have hop : op ≠ .keyRaw := by rintro rfl; cases enc
  unfold encryptStep at h
  cases hn : ctx.rem with
  | none => simp [hn] at h
  | some n =>
    simp only [hn] at h
    split at h
    · rename_i hacc
      split at h
      · rename_i hroom; cases h
        have key := EngineStep.pushEnc op ctx n seq enc hn hacc ((room_iff p e 8).1 hroom)
        rwa [hn] at key
      · cases h
    · rename_i hacc
      split at h
      · rename_i hz; subst hz
        split at h
        · rename_i he; cases h; exact .codecDone op ctx seq codec hn hacc (fun _ => by simpa using he)
        · rename_i he; cases h; exact .partialEnc op ctx seq enc hn hacc (by simpa using he)
      · rename_i hz
        split at h
        · rename_i x rest hq; cases h
          rw [Engine.popIn_byte hq]
          have key := EngineStep.take (p := p) op ctx x rest seq hq (.inr ⟨codec, hacc⟩) (by simp [hn]) (fun _ => by simpa [hn] using hz)
          simpa [hop, hn, Engine.start] using key
        · rename_i rest hq; cases h
          rw [Engine.popIn_end hq]
          exact .short op ctx rest seq hq (by cases op <;> simp_all [Op.encrypts] <;> decide) (fun _ => hacc)
        · cases h

theorem decryptStep_some {p : Params} {op : Op} {ctx : Ctx} {e e' : Engine} (seq : e.seq = .run op ctx)
    (dec : op.decrypts = true) (h : decryptStep p op ctx e = some e') : EngineStep p e e' := by
  have codec : (op.encrypts || op.decrypts) = true := by simp [dec]
  have hop : op ≠ .keyRaw := by rintro rfl; cases dec
  have henc : op.encrypts = false := by cases op <;> simp_all [Op.decrypts, Op.encrypts]
  unfold decryptStep at h
  split at h
  · rename_i hacc
    split at h
    · rename_i hf
      unfold decryptFirst at h
      dsimp only at h
      split at h
      · rename_i hb; cases h; exact .badFill op ctx seq dec hacc hf hb
      · rename_i hb
        split at h
        · rename_i hroom; cases h
          exact .pushFirst op ctx seq dec hacc hf (by omega) ((room_iff p e _).1 hroom)
        · cases h
    · rename_i hf
      unfold decryptLater at h
      split at h
      · rename_i hroom; cases h
        exact .pushLater op ctx seq dec hacc (by simpa using hf) ((room_iff p e 8).1 hroom)
      · cases h
  · rename_i hacc
    split at h
    · rename_i hz; cases h; exact .codecDone op ctx seq codec hz hacc (by simp [henc])
    · rename_i hz
      split at h
      · rename_i x rest hq; cases h
        rw [Engine.popIn_byte hq]
        have key := EngineStep.take (p := p) op ctx x rest seq hq (.inr ⟨codec, hacc⟩) (by simp [henc]) (fun _ => hz)
        simpa [hop, Engine.start] using key
      · rename_i rest hq; cases h
        unfold decryptEnd
        rw [Engine.popIn_end hq]
        by_cases hb : op = .decBuf
        · subst hb; simp only [if_true]
          exact .short .decBuf ctx rest seq hq (by decide) (fun _ => hacc)
        · have : op = .decStream := by cases op <;> simp_all [Op.decrypts]
          subst this
          have key := EngineStep.streamEnd (p := p) ctx rest seq hq hacc
          simpa using key
      · cases h

/-- What an engine step did. -/
theorem engineStep_some {p : Params} {e e' : Engine} (h : engineStep p e = some e') : EngineStep p e e' := by
  unfold engineStep at h
  split at h
  · cases h
  · rename_i ctx seq
    unfold keyPassStep at h
    cases hn : ctx.rem with
    | none => simp [hn] at h
    | some n =>
      simp only [hn] at h
      split at h
      · cases h; exact .commit .keyPass ctx _ e.blkY e.blkZ seq rfl
      · rename_i hz
        split at h
        · rename_i x rest hq; cases h
          rw [Engine.popIn_byte hq]; exact .keyFold ctx n x rest seq hn hz hq
        · rename_i rest hq; cases h
          rw [Engine.popIn_end hq]; exact .short .keyPass ctx rest seq hq (by decide) (by simp [Op.encrypts, Op.decrypts])
        · cases h
  · rename_i ctx seq
    unfold keyRawStep at h
    split at h
    · cases h; exact .commit .keyRaw ctx _ e.blkY e.blkZ seq rfl
    · rename_i hacc
      split at h
      · rename_i x rest hq; cases h
        rw [Engine.popIn_byte hq]
        have key := EngineStep.take (p := p) .keyRaw ctx x rest seq hq (.inl ⟨rfl, hacc⟩) (by simp [Op.encrypts]) (by simp)
        simpa [Engine.start] using key
      · rename_i rest hq; cases h
        rw [Engine.popIn_end hq]; exact .short .keyRaw ctx rest seq hq (by decide) (by simp [Op.encrypts, Op.decrypts])
      · cases h
  · rename_i ctx seq; cases h; exact .commit .encBlock ctx e.key _ _ seq rfl
  · rename_i ctx seq; cases h; exact .commit .decBlock ctx e.key _ _ seq rfl
  · rename_i ctx seq; exact encryptStep_some seq rfl h
  · rename_i ctx seq; exact encryptStep_some seq rfl h
  · rename_i ctx seq; exact decryptStep_some seq rfl h
  · rename_i ctx seq; exact decryptStep_some seq rfl h

/-! ### What the port runs (30 R86) -/

/-- A malformed descriptor is a BUSERR row, which presents no command and pushes no entry. -/
theorem decode_malformed {d : BitVec 16} {data : Word} {i : Instr}
    (h : descSize d ≠ 2#2 ∨ (descOff d).toNat % 4 ≠ 0) (hd : decode (.bus d data) = .ok i) :
    commandWord i = none ∧ ∀ x, i ≠ .wrDin x := by
  simp only [decode, decodeBus] at hd
  split at hd
  · cases hd; exact ⟨rfl, by simp⟩
  · cases hd; exact ⟨rfl, by simp⟩
  · rename_i h2
    have h2 : descSize d = 2#2 := BitVec.eq_of_toNat_eq h2
    have hoff : (descOff d).toNat % 4 ≠ 0 := by simpa [h2] using h
    unfold decodeFourByte at hd
    split at hd
    · rename_i h0; exact absurd h0 hoff
    all_goals cases hd; exact ⟨rfl, by simp⟩
  · cases hd; exact ⟨rfl, by simp⟩

theorem decode_bus_not_illegal (d : BitVec 16) (data w : Word) :
    decode (.bus d data) ≠ .error (.illegalCommand w) := by
  simp only [decode, decodeBus]
  split <;> try simp
  unfold decodeFourByte
  split <;> try simp
  unfold decodeRegister
  split <;> [simp; split <;> [simp; split <;> simp]]

theorem decodeRead_commandWord (off : BitVec 12) :
    commandWord (decodeRead off) = none ∧ ∀ x, decodeRead off ≠ .wrDin x := by
  unfold decodeRead
  split <;> try exact ⟨rfl, by simp⟩
  split <;> [exact ⟨rfl, by simp⟩; split <;> exact ⟨rfl, by simp⟩]

/-- A write presents a command only at the offset of CMD, and pushes an entry only at the offset of DIN. -/
theorem decodeWrite_commandWord (off : BitVec 12) (data : Word) :
    (∀ w, commandWord (decodeWrite off data) = some w → off = 0x010#12 ∧ w = data) ∧
      ∀ x, decodeWrite off data = .wrDin x → off = 0x044#12 ∧ x = data := by
  unfold decodeWrite
  split
  case h_5 h => exact ⟨by rintro w ⟨⟩; exact ⟨BitVec.eq_of_toNat_eq h, rfl⟩, by simp⟩
  case h_18 h => exact ⟨by rintro w ⟨⟩, by rintro x ⟨⟩; exact ⟨BitVec.eq_of_toNat_eq h, rfl⟩⟩
  case h_21 =>
    split <;> [exact ⟨by rintro w ⟨⟩, by simp⟩; split <;> exact ⟨by rintro w ⟨⟩, by simp⟩]
  all_goals exact ⟨by rintro w ⟨⟩, by simp⟩

/-- The transactions that present the command word `w`. -/
theorem fetchInstr_commandWord {a : Access} {i : Instr} {w : Word} (h : fetchInstr a = .ok i)
    (hw : commandWord i = some w) : a = .command w ∨ a = .bus 0xC010#16 w := by
  cases a with
  | command w' =>
    left
    rcases fetchInstr_command w' with ⟨j, hd, hf⟩ | ⟨_, hf⟩ <;> rw [h] at hf <;> cases hf
    · have he := encode_decodeCommand hd
      unfold commandWord at hw
      split at hw
      · simp [encode] at he
      · rw [he] at hw; cases hw; rfl
    · cases hw; rfl
  | bus d data =>
    right
    cases hd : decode (.bus d data) with
    | error r => cases r <;> simp [fetchInstr, hd] at h; exact absurd hd (decode_bus_not_illegal _ _ _)
    | ok j =>
      rw [fetchInstr_of_decode hd] at h; cases h
      rcases decode_bus_cases hd with hm | ⟨_, _, ⟨_, hi⟩ | ⟨hdesc, hi⟩⟩
      · rw [(decode_malformed hm hd).1] at hw; cases hw
      · rw [hi, (decodeRead_commandWord _).1] at hw; cases hw
      · rw [hi] at hw
        obtain ⟨ho, rfl⟩ := (decodeWrite_commandWord _ _).1 w hw
        rw [ho] at hdesc; rw [hdesc]; rfl

/-- The one transaction that pushes the DIN word `x`. -/
theorem fetchInstr_wrDin {a : Access} {x : Word} (h : fetchInstr a = .ok (.wrDin x)) : a = .bus 0xC044#16 x := by
  cases a with
  | command w' =>
    rcases fetchInstr_command w' with ⟨j, hd, hf⟩ | ⟨_, hf⟩ <;> rw [h] at hf <;> cases hf
    have he := encode_decodeCommand hd
    simp [encode] at he
  | bus d data =>
    cases hd : decode (.bus d data) with
    | error r => cases r <;> simp [fetchInstr, hd] at h
    | ok j =>
      rw [fetchInstr_of_decode hd] at h; cases h
      rcases decode_bus_cases hd with hm | ⟨_, _, ⟨_, hi⟩ | ⟨hdesc, hi⟩⟩
      · exact absurd rfl ((decode_malformed hm hd).2 x)
      · exact absurd hi.symm ((decodeRead_commandWord _).2 x)
      · obtain ⟨ho, rfl⟩ := (decodeWrite_commandWord _ _).2 x hi.symm
        rw [ho] at hdesc; rw [hdesc]; rfl

/-! ### The step of the machine (60 R249) -/

/-- What a step that answers a next state did: it ran an instruction of a transaction, or gave the engine its turn. -/
theorem step_next {s t : State} (h : step s = .next t) :
    (∃ a rest i, s.port = .host a :: rest ∧ fetchInstr a = .ok i ∧ exec i { s with port := rest } = .next t) ∨
      ((∀ a rest, s.port ≠ .host a :: rest) ∧ t.params = s.params ∧
        (engineStep s.params s.engine = some t.engine ∨
          engineStep s.params s.engine = none ∧ t.engine = s.engine)) := by
  have turn (u : State) : (engineTurn u).params = u.params ∧ (engineStep u.params u.engine = some (engineTurn u).engine ∨
      engineStep u.params u.engine = none ∧ (engineTurn u).engine = u.engine) := by
    cases hs : engineStep u.params u.engine with
    | some e => rw [engineTurn_some hs]; exact ⟨rfl, .inl rfl⟩
    | none => rw [engineTurn_none hs]; exact ⟨rfl, .inr ⟨rfl, rfl⟩⟩
  unfold step at h
  split at h
  · rename_i a rest hp
    split at h
    · rename_i i hf; exact .inl ⟨a, rest, i, hp, hf, h⟩
    · cases h
  · rename_i rest hp; cases h
    exact .inr ⟨by simp [hp], turn { s with port := rest }⟩
  · rename_i hp; cases h
    exact .inr ⟨by simp [hp], turn s⟩

/-- A step changes the engine by an instruction's effect, by an engine step, or not at all, and never the parameters. -/
theorem step_effect {s t : State} (h : step s = .next t) :
    t.params = s.params ∧
      ((∃ a rest i, s.port = .host a :: rest ∧ fetchInstr a = .ok i ∧ Effect s.params i s.engine t.engine) ∨
        ((∀ a rest, s.port ≠ .host a :: rest) ∧ (EngineStep s.params s.engine t.engine ∨ t.engine = s.engine))) := by
  rcases step_next h with ⟨a, rest, i, hp, hf, hx⟩ | ⟨hp, hpar, hs | ⟨_, he⟩⟩
  · obtain ⟨h1, _, h3⟩ := exec_effect hx
    exact ⟨h1, .inl ⟨a, rest, i, hp, hf, h3⟩⟩
  · exact ⟨hpar, .inr ⟨hp, .inl (engineStep_some hs)⟩⟩
  · exact ⟨hpar, .inr ⟨hp, .inr he⟩⟩

end Sys2Proof.Machine
end

