-- ==== Sys2Proof/Laws/Runs.lean ====
section
/-! SUPPORT. Events at the port, each said once: what a transfer and a poll can do, what a run of events is made of, and that
an engine step does not look behind the entry it takes. -/

namespace Sys2Proof.Machine

open Sys2Proof

/-! ### One event -/

@[simp] theorem takeEvent_engine (s : State) : takeEvent .engine s = .next (engineTurn s) := rfl

theorem takeEvent_host {a : Access} {s t : State} (h : takeEvent (.host a) s = .next t) :
    ∃ i, fetchInstr a = .ok i ∧ exec i s = .next t := by
  simp only [takeEvent, step] at h
  split at h
  · exact ⟨_, ‹_›, h⟩
  · cases h

@[simp] theorem engineTurn_params (s : State) : (engineTurn s).params = s.params := by
  cases h : engineStep s.params s.engine with
  | some e => rw [engineTurn_some h]; rfl
  | none => rw [engineTurn_none h]

/-- A malformed transaction answers no next state. -/
theorem malformed_stops {d : BitVec 16} {data : Word} {i : Instr} {s t : State}
    (h : descSize d ≠ 2#2 ∨ (descOff d).toNat % 4 ≠ 0) (hd : decode (.bus d data) = .ok i) : exec i s ≠ .next t := by
  simp only [decode, decodeBus] at hd
  split at hd
  · cases hd; rintro ⟨⟩
  · cases hd; rintro ⟨⟩
  · rename_i h2
    have hoff : (descOff d).toNat % 4 ≠ 0 := by simpa [show descSize d = 2#2 from BitVec.eq_of_toNat_eq h2] using h
    unfold decodeFourByte at hd
    split at hd
    · rename_i h0; exact absurd h0 hoff
    all_goals cases hd; rintro ⟨⟩
  · cases hd; rintro ⟨⟩

/-- A read that is not of DOUT leaves the engine and the parameters as they are (20 R66). -/
theorem decodeRead_same {off : BitVec 12} {s t : State} (hoff : off ≠ 0x048#12)
    (h : exec (decodeRead off) s = .next t) : t.engine = s.engine ∧ t.params = s.params := by
  generalize hi : decodeRead off = i at h
  unfold decodeRead at hi
  split at hi <;> try (subst hi; cases h; exact ⟨rfl, rfl⟩)
  · rename_i h48; exact absurd (BitVec.eq_of_toNat_eq h48) hoff
  · split at hi <;> [skip; split at hi] <;> (subst hi; cases h; exact ⟨rfl, rfl⟩)

@[simp] theorem descWrite_readDescriptor (off : BitVec 12) : descWrite (readDescriptor off) = false := by
  simp [descWrite, readDescriptor]

@[simp] theorem descWrite_writeDescriptor (off : BitVec 12) : descWrite (writeDescriptor off) = true := by
  simp [descWrite, writeDescriptor]

/-- What a transaction in the form of a read does, when it answers a next state. -/
theorem read_next {d : BitVec 16} {w : Word} {s t : State} (hw : descWrite d = false)
    (h : takeEvent (.host (.bus d w)) s = .next t) :
    d = readDescriptor 0x048 ∧ popDout s = .next t ∨
      d ≠ readDescriptor 0x048 ∧ t.engine = s.engine ∧ t.params = s.params := by
  obtain ⟨i, hf, hx⟩ := takeEvent_host h
  cases hd : decode (.bus d w) with
  | error r => cases r <;> simp [fetchInstr, hd] at hf; exact absurd hd (decode_bus_not_illegal _ _ _)
  | ok j =>
    rw [fetchInstr_of_decode hd] at hf; cases hf
    rcases decode_bus_cases hd with hm | ⟨_, _, ⟨hdesc, hi⟩ | ⟨hdesc, _⟩⟩
    · exact absurd hx (malformed_stops hm hd)
    · subst hi
      by_cases ho : descOff d = 0x048#12
      · rw [ho] at hdesc hx; exact .inl ⟨hdesc, hx⟩
      · refine .inr ⟨fun h48 => ho ?_, decodeRead_same ho hx⟩
        rw [h48]; rfl
    · rw [hdesc, descWrite_writeDescriptor] at hw; cases hw

/-- Everything a transfer can do. -/
inductive Transfer (s : State) : PortEvent → State → Prop where
  | turn : Transfer s .engine (engineTurn s)
  | push (x : Word) : Transfer s (.host (.bus (writeDescriptor 0x044) x))
      (s.setEngine (s.engine.pushIn s.params (dinEntry x)))
  | pop (w : Word) (t : State) (h : popDout s = .next t) : Transfer s (.host (.bus (readDescriptor 0x048) w)) t
  | poll (d : BitVec 16) (w : Word) (t : State) (din : d ≠ writeDescriptor 0x044) (dout : d ≠ readDescriptor 0x048)
      (engine : t.engine = s.engine) (params : t.params = s.params) : Transfer s (.host (.bus d w)) t

theorem transfer_next {ev : PortEvent} {s t : State} (tr : isTransfer ev = true) (h : takeEvent ev s = .next t) :
    Transfer s ev t := by
  match ev with
  | .engine => cases h; exact .turn
  | .host (.command _) => cases tr
  | .host (.bus d w) =>
    by_cases hd : d = writeDescriptor 0x044
    · subst hd; cases h; exact .push w
    · have hw : descWrite d = false := by
        simp only [isTransfer, Bool.or_eq_true, Bool.not_eq_true', beq_iff_eq] at tr
        exact tr.resolve_right hd
      rcases read_next hw h with ⟨rfl, hp⟩ | ⟨hne, he, hp⟩
      · exact .pop w t hp
      · exact .poll d w t hd hne he hp

/-- A poll is a turn of the engine or leaves the engine as it is. -/
theorem poll_next {ev : PortEvent} {s t : State} (poll : isPoll ev = true) (h : takeEvent ev s = .next t) :
    t.params = s.params ∧ (ev = .engine ∧ t = engineTurn s ∨ ev ≠ .engine ∧ t.engine = s.engine) := by
  match ev with
  | .engine => cases h; exact ⟨engineTurn_params s, .inl ⟨rfl, rfl⟩⟩
  | .host (.command _) => cases poll
  | .host (.bus d w) =>
    simp only [isPoll, Bool.and_eq_true, Bool.not_eq_true', bne_iff_ne] at poll
    rcases read_next poll.1 h with ⟨rfl, _⟩ | ⟨_, he, hp⟩
    · exact absurd rfl poll.2
    · exact ⟨hp, .inr ⟨by simp, he⟩⟩

/-! ### Several events -/

theorem runEvents_cons {ev : PortEvent} {evs : List PortEvent} {s u : State} {popped : List Byte}
    (h : runEvents (ev :: evs) s = .next (u, popped)) :
    ∃ t later, takeEvent ev s = .next t ∧ runEvents evs t = .next (u, later) ∧ popped = poppedAt ev t ++ later := by
  unfold runEvents at h
  split at h
  · rename_i t ht
    split at h
    · rename_i r hr; cases h; exact ⟨t, _, ht, hr, rfl⟩
    · cases h
    · cases h
  · cases h
  · cases h

@[simp] theorem pushedEntries_nil : pushedEntries [] = [] := rfl

theorem pushedEntries_cons (ev : PortEvent) (evs : List PortEvent) :
    pushedEntries (ev :: evs) = pushedEntries [ev] ++ pushedEntries evs :=
  List.filterMap_append (l := [ev])

/-- A DIN write pushes the entry its word offers (10 R41). -/
theorem pushedEntries_din (x : Word) : pushedEntries [.host (.bus (writeDescriptor 0x044) x)] = [dinEntry x] := rfl

/-- No other bus transaction pushes an entry. -/
theorem pushedEntries_other {d : BitVec 16} (w : Word) (h : d ≠ writeDescriptor 0x044) :
    pushedEntries [.host (.bus d w)] = [] := by
  have none : (writtenTo 0x044 (.bus d w)).map dinEntry = none := by rw [writtenTo, if_neg h]; rfl
  exact List.filterMap_cons_none none

/-- Only a DOUT read pops a byte. -/
theorem poppedAt_other {d : BitVec 16} (w : Word) (t : State) (h : d ≠ readDescriptor 0x048) :
    poppedAt (.host (.bus d w)) t = [] := if_neg h

/-- A DOUT read that returned VALID = 1 gives its DATA, one with VALID = 0 gives nothing (10 R42). -/
theorem poppedBy_valid (b : Byte) : poppedBy 0x048 (0x100 ||| b.setWidth 32) = [b] := by
  unfold poppedBy
  rw [if_pos (by simp)]
  congr 1; ext i hi; interval_cases i <;> simp

@[simp] theorem poppedBy_zero (off : BitVec 12) : poppedBy off 0 = [] := by simp [poppedBy]

/-! ### The engine step and the entries behind the one it takes -/

/-- The engine with more entries behind those of its input FIFO. -/
def Engine.behind (e : Engine) (more : List InEntry) : Engine := { e with inq := e.inq ++ more }

theorem keyPassStep_behind {ctx : Ctx} {e e' : Engine} (more : List InEntry) (h : keyPassStep ctx e = some e') :
    keyPassStep ctx (e.behind more) = some (e'.behind more) := by
  unfold keyPassStep at h ⊢
  split at h
  · cases h
  · split at h <;> rename_i hn
    · cases h; rw [if_pos hn]; rfl
    · rw [if_neg hn]
      split at h <;> rename_i hq <;> cases h <;> simp [hq, Engine.behind, Engine.popIn, Engine.start, Engine.finish]

theorem keyRawStep_behind {ctx : Ctx} {e e' : Engine} (more : List InEntry) (h : keyRawStep ctx e = some e') :
    keyRawStep ctx (e.behind more) = some (e'.behind more) := by
  unfold keyRawStep at h ⊢
  split at h <;> rename_i hn
  · cases h; rw [if_pos hn]; rfl
  · rw [if_neg hn]
    split at h <;> rename_i hq <;> cases h <;> simp [hq, Engine.behind, Engine.popIn, Engine.start, Engine.finish]

theorem encryptStep_behind {p : Params} {op : Op} {ctx : Ctx} {e e' : Engine} (more : List InEntry)
    (h : encryptStep p op ctx e = some e') : encryptStep p op ctx (e.behind more) = some (e'.behind more) := by
  unfold encryptStep at h ⊢
  split at h
  · cases h
  · split at h <;> rename_i hacc
    · split at h <;> rename_i hroom <;> cases h
      rw [if_pos hacc, if_pos (by exact hroom)]; rfl
    · rw [if_neg hacc]
      split at h <;> rename_i hn
      · rw [if_pos hn]; split at h <;> rename_i he <;> cases h <;> simp [he] <;> rfl
      · rw [if_neg hn]
        split at h <;> rename_i hq <;> cases h <;> simp [hq, Engine.behind, Engine.popIn, Engine.start, Engine.finish]

theorem decryptStep_behind {p : Params} {op : Op} {ctx : Ctx} {e e' : Engine} (more : List InEntry)
    (h : decryptStep p op ctx e = some e') : decryptStep p op ctx (e.behind more) = some (e'.behind more) := by
  unfold decryptStep at h ⊢
  split at h <;> rename_i hacc
  · rw [if_pos hacc]
    split at h <;> rename_i hfirst
    · rw [if_pos hfirst]
      simp only [decryptFirst] at h ⊢
      split at h <;> rename_i hfill
      · cases h; rw [if_pos (by exact hfill)]; rfl
      · rw [if_neg (by exact hfill)]
        split at h <;> rename_i hroom <;> cases h
        rw [if_pos (by exact hroom)]; rfl
    · rw [if_neg hfirst]
      simp only [decryptLater] at h ⊢
      split at h <;> rename_i hroom <;> cases h
      rw [if_pos (by exact hroom)]; rfl
  · rw [if_neg hacc]
    split at h <;> rename_i hn
    · cases h; rw [if_pos hn]; rfl
    · rw [if_neg hn]
      split at h <;> rename_i hq <;> cases h
      · simp [hq, Engine.behind, Engine.popIn, Engine.start]
      · simp only [hq, Engine.behind, List.cons_append, decryptEnd, Engine.popIn]
        split <;> [rfl; split <;> rfl]

/-- An enabled engine step stays enabled and does the same when more entries stand behind those of the input FIFO. -/
theorem engineStep_behind {p : Params} {e e' : Engine} (more : List InEntry) (h : engineStep p e = some e') :
    engineStep p (e.behind more) = some (e'.behind more) := by
  unfold engineStep at h
  split at h <;> rename_i hs
  · cases h
  all_goals
    rw [engineStep, show (e.behind more).seq = e.seq from rfl, hs]
    first
      | exact keyPassStep_behind more h
      | exact keyRawStep_behind more h
      | exact encryptStep_behind more h
      | exact decryptStep_behind more h
      | (cases h; rfl)

end Sys2Proof.Machine
end

