-- ==== Sys2Proof/Machine/HostDuties.lean ====
section
/-! DEFINITION. One use of a command by a host: when the command has ended and when its output is complete (70 R276), and
the host's ten duties (70 R277). The engine takes every transaction, also one that breaks a duty (70 R278 says what happens
then), so a claim about a use takes `HostDuties` as its premise (log 18). -/

namespace Sys2Proof.Machine

open Sys2Proof

/-- The transaction writes CTRL with one of the actions that `action` names (10 R29). -/
def writesCtrl (action : Word → Bool) (a : Access) : Bool :=
  match writtenTo 0x008 a with
  | some d => action d
  | none => false

/-- The command with a run that a legal word starts (30 R82, R83), if it starts one. -/
def runOp (word : Word) : Option Op :=
  if legal word then
    [Op.keyPass, .keyRaw, .encBlock, .decBlock, .encBuf, .decBuf, .encStream, .decStream].find? (·.code == cmdOp word)
  else none

/-- One use of one command: the host's transactions and the engine's turns from the preparation of the command to the point
before the next command is prepared. Each event carries the number of the master that issues it (60 R262; the number says
nothing at a turn of the engine). -/
structure CommandUse where
  /-- The state before the first event. -/
  start : State
  /-- The events before the command word is written. -/
  setup : List (Nat × PortEvent)
  /-- The master that writes the command word. -/
  master : Nat
  /-- The command word. -/
  word : Word
  /-- The events after the command word is written. -/
  rest : List (Nat × PortEvent)
  /-- The bytes that the host has for the command. -/
  source : List Byte
  /-- The key and the round count under which the bytes of a decrypt command were encrypted. -/
  sealedUnder : Key × Word
  /-- The output of the command is to be told apart from an earlier one (70 R277 duty 4). The spec leaves it to the host for
  which commands it is, and so does the model (log 18). -/
  toldApart : Bool
  /-- The numbers of the reads whose values the host takes as the result of the command (70 R277 duty 5). A read of KEY or BLK
  or STATUS that is not among them only observes the run (60 R262, R264); which they are is the host's (log 18). -/
  results : List Nat
  /-- The entries that the host has already pushed for the next command when the use ends: "input entries may be pushed before
  the CMD write" (70 R274). Which they are is the host's (log 18). -/
  ahead : List InEntry
deriving DecidableEq, Repr

/-- All events of the use, the write of the command word at its place. -/
def CommandUse.events (u : CommandUse) : List (Nat × PortEvent) :=
  u.setup ++ (u.master, .host (.bus (writeDescriptor 0x010) u.word)) :: u.rest

/-- The state before event `i` (after all events, when there are `i`); none when a transaction before it is stopped ("no
BusError recorded", 60 R244). -/
def CommandUse.stateAt (u : CommandUse) (i : Nat) : Option State :=
  match runEvents ((u.events.take i).map (·.2)) u.start with
  | .next (t, _) => some t
  | .fault _ | .refused _ => none

/-- Event `i`, when it is a host transaction. -/
def CommandUse.transaction (u : CommandUse) (i : Nat) : Option Access :=
  match u.events[i]? with
  | some (_, .host a) => some a
  | some (_, .engine) | none => none

/-- The number of the event that writes the command word. -/
def CommandUse.commandAt (u : CommandUse) : Nat := u.setup.length

/-- Transaction `i` is a read of the register at `off`. -/
def CommandUse.readsAt (u : CommandUse) (off : BitVec 12) (i : Nat) : Prop :=
  ∃ a, u.transaction i = some a ∧ readsFrom off a = true

/-- Transaction `i` is a write of CTRL with one of the actions that `action` names. -/
def CommandUse.actsAt (u : CommandUse) (action : Word → Bool) (i : Nat) : Prop :=
  ∃ a, u.transaction i = some a ∧ writesCtrl action a = true

/-! ### The end of a command (70 R276) -/

/-- "Or when it was reset": a soft reset after the command word, before event `i` (70 R276, R271). -/
def CommandUse.resetBy (u : CommandUse) (i : Nat) : Prop := ∃ j, u.commandAt < j ∧ j < i ∧ u.actsAt ctrlSrst j

/-- The engine is in Idle with DONE = 1 after event `j - 1`, for the first time since the command word was written, in the
state `t`: the finish of the command (70 R276). -/
def CommandUse.finishesAt (u : CommandUse) (j : Nat) (t : State) : Prop :=
  u.commandAt < j ∧ u.stateAt j = some t ∧ t.finished ∧
    ∀ k s, u.commandAt < k → k < j → u.stateAt k = some s → ¬s.finished

/-- The engine has come to Idle with DONE = 1, after the command word was written and before event `i`. An acknowledgement
after it takes nothing back. -/
def CommandUse.finishedBy (u : CommandUse) (i : Nat) : Prop :=
  ∃ j t, u.commandAt < j ∧ j ≤ i ∧ u.stateAt j = some t ∧ t.finished

/-- "A command has ended when the engine is in `Idle` with DONE = 1, or when it was reset" (70 R276): it has ended before
event `i`. -/
def CommandUse.endedBy (u : CommandUse) (i : Nat) : Prop := u.finishedBy i ∨ u.resetBy i

/-- At event `i` the result of the command stands: DONE has been 1 (70 R277 duty 5), and no reset came before. "OK, ERR, OP and
the counters stay readable after the acknowledgement" (60 R252), so DONE need not be 1 any more. -/
def CommandUse.resultStandsAt (u : CommandUse) (i : Nat) : Prop := u.finishedBy i ∧ ¬u.resetBy i

/-- "A host observes the end by a STATUS read that returns DONE = 1, or by IRQ" (70 R276): before event `i`. With IE = 1 the
IRQ rises with the command word itself, when the command finishes at its acceptance (40 R109). -/
def CommandUse.endObservedBy (u : CommandUse) (i : Nat) : Prop :=
  ∃ j t, u.commandAt ≤ j ∧ j < i ∧ u.stateAt (j + 1) = some t ∧
    (u.readsAt 0x00C j ∧ t.v.getLsbD 1 = true ∨ t.engine.irq = true)

/-- "The output of a codec command is complete when it has ended and the host has read DOUT until VALID = 0" (70 R276). -/
def CommandUse.outputCompleteBy (u : CommandUse) (i : Nat) : Prop :=
  ∃ j t, j < i ∧ u.endedBy j ∧ u.readsAt 0x048 j ∧ u.stateAt (j + 1) = some t ∧ t.v.getLsbD 8 = false

/-! ### The ten duties (70 R277) -/

/-- What the host is to push for a command (duty 1): the promised number of bytes, or all it has and End if it has fewer; for
DEC_STREAM every byte and End; for a block command nothing. -/
def feed (op : Op) (len : Quad) (source : List Byte) : List InEntry :=
  let counted := fun n : Nat => (source.take n).map .byte ++ if source.length < n then [.endMark] else []
  match op with
  | .keyPass | .encBuf | .decBuf | .encStream => counted len.toNat
  | .keyRaw => counted 16
  | .decStream => source.map .byte ++ [.endMark]
  | .encBlock | .decBlock => []

/-- The entries meant for the command, which is accepted in `t`. -/
def CommandUse.meant (u : CommandUse) (t : State) : List InEntry :=
  match runOp u.word with
  | some op => feed op t.engine.len u.source
  | none => []

/-- The entries `l` supplied so far, after event `i`: a DIN write that is not dropped adds its entry (40 R104), and FLUSH_IN
takes back those that no engine step has consumed (40 R118). -/
def CommandUse.supplyAt (u : CommandUse) (i : Nat) (l : List InEntry) : List InEntry :=
  match u.stateAt i, u.transaction i with
  | some t, some a =>
    if writesCtrl ctrlFlushIn a then l.take (l.length - t.engine.inq.length)
    else match writtenTo 0x044 a with
      | some d => if inFull t.params t.engine then l else l ++ [dinEntry d]
      | none => l
  | some _, none | none, some _ | none, none => l

/-- The entries supplied to the command, `k` events after its command word: those that were in the input FIFO, and those that
have come in since. -/
def CommandUse.supplied (u : CommandUse) : Nat → List InEntry
  | 0 => match u.stateAt u.commandAt with
    | some t => t.engine.inq
    | none => []
  | k + 1 => u.supplyAt (u.commandAt + 1 + k) (u.supplied k)

/-- The command is ENC_BUF, DEC_BUF, ENC_STREAM or DEC_STREAM. -/
def CommandUse.isCodec (u : CommandUse) : Bool := (runOp u.word).any fun op => op.encrypts || op.decrypts

/-- The offsets of KEY, which "may be read by any master at any time" (60 R262). -/
def keyOffsets : List (BitVec 12) := [0x020, 0x024, 0x028, 0x02C]

/-- The offsets of the result of the command, which it writes in its last step (40 R111): KEY or BLK. -/
def CommandUse.resultOffsets (u : CommandUse) : List (BitVec 12) :=
  match runOp u.word with
  | some .keyPass | some .keyRaw => keyOffsets
  | some .encBlock | some .decBlock => [0x030, 0x034]
  | some .encBuf | some .decBuf | some .encStream | some .decStream | none => []

/-- The offsets of the config registers (10 R32): ROUNDS, LEN_LO, LEN_HI, KEY_A..KEY_D, BLK_Y, BLK_Z. -/
def configOffsets : List (BitVec 12) := [0x014, 0x018, 0x01C, 0x020, 0x024, 0x028, 0x02C, 0x030, 0x034]

/-- Event `i` writes `d` to DIN, while IN_FULL is `full`. -/
def CommandUse.writesDinAt (u : CommandUse) (full : Bool) (d : Word) (i : Nat) : Prop :=
  ∃ t a, u.stateAt i = some t ∧ u.transaction i = some a ∧ writtenTo 0x044 a = some d ∧ inFull t.params t.engine = full

/-- The DIN write of `d` at event `i` finds room. -/
def CommandUse.pushesAt (u : CommandUse) (d : Word) (i : Nat) : Prop := u.writesDinAt false d i

/-- The DIN write of `d` at event `i` finds the FIFO full: its entry is dropped (40 R104). -/
def CommandUse.dropsAt (u : CommandUse) (d : Word) (i : Nat) : Prop := u.writesDinAt true d i

/-- Event `i` gives the run or its input up: ABORT, SRST or FLUSH_IN. -/
def CommandUse.givesUpAt (u : CommandUse) (i : Nat) : Prop :=
  u.actsAt (fun d => ctrlAbort d || ctrlSrst d || ctrlFlushIn d) i

/-- Before event `i` an entry has been dropped, and the run or its input is still to be given up: until then what is supplied
may lack the entry (70 R277 duty 3: "check STATUS.OVF afterwards and recover"). -/
def CommandUse.recoversFrom (u : CommandUse) (i : Nat) : Prop :=
  (∃ j d, j < i ∧ u.dropsAt d j) ∧ ∃ j, i ≤ j ∧ u.givesUpAt j

/-- The host's duties in one use of a command (70 R277), the premises of a claim about it. -/
structure HostDuties (u : CommandUse) : Prop where
  /-- 1. Feed the input to the end: until the command has ended, what is supplied is a beginning of what is meant, or all of it
  and more (a surplus stays in the FIFO, 46 R222, and duty 4 flushes it), but for an overflow that the host is still to recover
  from (duty 3); and all of it is supplied unless the command ends first. -/
  feeds_input : ∀ t, u.stateAt u.commandAt = some t →
    (∀ k, ¬u.endedBy (u.commandAt + 1 + k) →
      u.supplied k <+: u.meant t ∨ u.meant t <+: u.supplied k ∨ u.recoversFrom (u.commandAt + 1 + k)) ∧
      (u.meant t <+: u.supplied u.rest.length ∨ u.endedBy u.events.length)
  /-- 2. Drain the output, during the run: after the run has come to wait for room, a DOUT read follows, or an action that ends
  the run. -/
  drains_running : ∀ i t, u.commandAt < i → i ≤ u.events.length → u.stateAt i = some t → t.outputWaits →
    ∃ j, i ≤ j ∧ (u.readsAt 0x048 j ∨ u.actsAt (fun d => ctrlAbort d || ctrlSrst d) j)
  /-- 2. Drain the output by reads: no FLUSH_OUT takes output of the command out before it is complete. So a wait for room is
  lifted by DOUT reads only, or the run is ended. -/
  drains_by_reads : u.isCodec = true → ∀ i t, u.commandAt < i → u.stateAt i = some t →
    u.actsAt (fun d => ctrlFlushOut d && !ctrlSrst d) i → t.engine.outq = [] ∨ u.outputCompleteBy i
  /-- 2. Drain the output, after DONE: until VALID = 0. -/
  drains_ended : u.isCodec = true → u.outputCompleteBy u.events.length ∨ u.resetBy u.events.length
  /-- 3. Don't overflow: write DIN only while IN_FULL = 0, or see OVF in STATUS afterwards and recover: the entry is written
  again when there is room, or the run or its input is given up (log 18). -/
  keeps_room : ∀ i d, u.dropsAt d i →
    ∃ j k t, i < j ∧ j < k ∧ u.readsAt 0x00C j ∧ u.stateAt (j + 1) = some t ∧ t.v.getLsbD 9 = true ∧
      (u.pushesAt d k ∨ u.givesUpAt k)
  /-- 4. Flush stale entries, before: the input FIFO holds only entries meant for the command, and the output FIFO is empty
  when the command's output is to be told apart from an earlier one. -/
  starts_clean : ∀ t, u.stateAt u.commandAt = some t →
    t.engine.inq <+: u.meant t ∧ (u.toldApart = true → t.engine.outq = [])
  /-- 4. Flush stale entries, after a failure and after a finish that leaves entries: FLUSH_IN (or a reset) is written, with
  the finish (one CTRL write aborts and flushes, 60 R250 item 2) or after it. An acknowledgement between changes nothing. -/
  flushes_after : ∀ j t, u.finishesAt j t → t.engine.ok = false ∨ t.engine.inq ≠ [] →
    ∃ i, j ≤ i + 1 ∧ u.actsAt (fun d => ctrlFlushIn d || ctrlSrst d) i
  /-- 4. No entry of this command is left: the input FIFO holds what is pushed ahead for the next command, and nothing else. -/
  leaves_clean : ∀ t, u.stateAt u.events.length = some t → t.engine.inq = u.ahead
  /-- 5. Wait for DONE before reading results: a read of KEY, BLK or STATUS whose value is taken as the result comes while the
  result stands. -/
  reads_results_after_done : ∀ i ∈ u.results, ∀ off ∈ 0x00C :: u.resultOffsets, u.readsAt off i → u.resultStandsAt i
  /-- 6. Set KEY, ROUNDS and LEN (and BLK) while idle. -/
  configures_while_idle : ∀ i t a, u.stateAt i = some t → u.transaction i = some a →
    ∀ off ∈ configOffsets, writtenTo off a ≠ none → t.engine.seq = .idle
  /-- 7. Read the status before the next command: STATUS is read in the use while the result stands, also after an
  acknowledgement (a reset that comes before the finish leaves no status to read). -/
  reads_status : (∃ i, u.readsAt 0x00C i ∧ u.resultStandsAt i) ∨ u.resetBy u.events.length ∧ ∀ j t, ¬u.finishesAt j t
  /-- 7. Before the next command: the command word goes to an idle engine, and no other CMD write of the use is accepted; one
  during the run is rejected (40 R106) and clears no status. -/
  one_command : (∀ i t a, u.stateAt i = some t → u.transaction i = some a → writtenTo 0x010 a ≠ none →
      i = u.commandAt ∨ u.commandAt < i ∧ t.engine.seq ≠ .idle) ∧
    ∀ t, u.stateAt u.commandAt = some t → t.engine.seq = .idle
  /-- 8. Know the length for ENC_STREAM: LEN is the number of bytes of the source, counted before. -/
  knows_length : ∀ t, u.stateAt u.commandAt = some t → runOp u.word = some .encStream →
    t.engine.len.toNat = u.source.length
  /-- 9. Use the same key and round count to decrypt. -/
  decrypts_with_same_key : ∀ t, u.stateAt u.commandAt = some t → ∀ op, runOp u.word = some op →
    (op = .decBlock ∨ op.decrypts = true) → (t.engine.key, t.engine.rounds) = u.sealedUnder
  /-- 10. One master at a time: every transaction of the use is of the master that writes the command word, but for reads of
  KEY, which are any master's at any time (60 R262). R262 leaves the means and the grain of the exclusion to the masters; that
  a whole use is one master's, with no hand-over between its CMD write and its drain, is the model's (DESIGN CHOICE, log 18). -/
  one_master : ∀ m a, (m, PortEvent.host a) ∈ u.events → m = u.master ∨ ∃ off ∈ keyOffsets, readsFrom off a = true

end Sys2Proof.Machine
end

