-- ==== Sys2Proof/Tests/Slice0.lean ====
section
/-! SUPPORT. The tests: ill-formed terms that the checks refuse, words written out from the spec's encodings, single steps
with results taken from the spec's own examples, and a state for the hypotheses of every statement that has some. -/

namespace Sys2Proof.Tests

open Sys2Proof Sys2Proof.Machine

/-! ### WellFormed refuses -/

theorem test_reserved_050_refuses :
    Instr.wellFormed (.rdReserved05005c 0x04C) = false ∧ Instr.wellFormed (.rdReserved05005c 0x060) = false ∧
    Instr.wellFormed (.rdReserved05005c 0x051) = false ∧ Instr.wellFormed (.rdReserved05005c 0x05C) = true ∧
    Instr.wellFormed (.wrReserved05005c 0x04C 0) = false ∧ Instr.wellFormed (.wrReserved05005c 0x060 0) = false ∧
    Instr.wellFormed (.wrReserved05005c 0x05E 0) = false ∧ Instr.wellFormed (.wrReserved05005c 0x050 0) = true := by decide

theorem test_reserved_060_refuses :
    Instr.wellFormed (.rdReserved06007c 0x05C) = false ∧ Instr.wellFormed (.rdReserved06007c 0x080) = false ∧
    Instr.wellFormed (.rdReserved06007c 0x062) = false ∧ Instr.wellFormed (.rdReserved06007c 0x07C) = true ∧
    Instr.wellFormed (.wrReserved06007c 0x05C 0) = false ∧ Instr.wellFormed (.wrReserved06007c 0x080 0) = false ∧
    Instr.wellFormed (.wrReserved06007c 0x063 0) = false ∧ Instr.wellFormed (.wrReserved06007c 0x060 0) = true := by decide

theorem test_reserved_080_refuses :
    Instr.wellFormed (.rdReserved0800fc 0x07C) = false ∧ Instr.wellFormed (.rdReserved0800fc 0x100) = false ∧
    Instr.wellFormed (.rdReserved0800fc 0x0FD) = false ∧ Instr.wellFormed (.rdReserved0800fc 0x0FC) = true ∧
    Instr.wellFormed (.wrReserved0800fc 0x07C 0) = false ∧ Instr.wellFormed (.wrReserved0800fc 0x100 0) = false ∧
    Instr.wellFormed (.wrReserved0800fc 0x082 0) = false ∧ Instr.wellFormed (.wrReserved0800fc 0x080 0) = true := by decide

theorem test_misaligned_refuses :
    Instr.wellFormed (.buserrMisaligned1 true false 0x010) = false ∧
    Instr.wellFormed (.buserrMisaligned1 true false 0x012) = false ∧
    Instr.wellFormed (.buserrMisaligned2 false true 0x011) = false ∧
    Instr.wellFormed (.buserrMisaligned2 false true 0x013) = false ∧
    Instr.wellFormed (.buserrMisaligned3 true true 0x010) = false ∧
    Instr.wellFormed (.buserrMisaligned3 true true 0x012) = false ∧
    Instr.wellFormed (.buserrMisaligned3 true true 0xFFF) = true := by decide

/-! ### Words written out (30 R80, R82, R85, R86) -/

/-- Bits 31:16 RES, 15:8 IMM8, 7:0 OP. -/
theorem test_decode_commands :
    decode (.command 0b00000000000000000000000000000000#32) = .ok .nop ∧
    decode (.command 0b00000000000000000000000000000001#32) = .ok .keyClear ∧
    decode (.command 0b00000000000000000110000100000010#32) = .ok (.keyFold 0x61) ∧
    decode (.command 0b00000000000000001111111100000010#32) = .ok (.keyFold 0xFF) ∧
    decode (.command 0b00000000000000000000000000000011#32) = .ok .keyPass ∧
    decode (.command 0b00000000000000000000000000000100#32) = .ok .keyRaw ∧
    decode (.command 0b00000000000000000000000000010000#32) = .ok .encBlock ∧
    decode (.command 0b00000000000000000000000000010001#32) = .ok .decBlock ∧
    decode (.command 0b00000000000000000000000000100000#32) = .ok .encBuf ∧
    decode (.command 0b00000000000000000000000000100001#32) = .ok .decBuf ∧
    decode (.command 0b00000000000000000000000000100010#32) = .ok .encStream ∧
    decode (.command 0b00000000000000000000000000100011#32) = .ok .decStream := by decide

/-- The illegal words of 30 R84 and the corner cases of 40 R108. -/
theorem test_decode_refuses_illegal_commands :
    decode (.command 0x00000005#32) = .error (.illegalCommand 0x05) ∧
    decode (.command 0x0000001F#32) = .error (.illegalCommand 0x1F) ∧
    decode (.command 0x00000024#32) = .error (.illegalCommand 0x24) ∧
    decode (.command 0x00000100#32) = .error (.illegalCommand 0x100) ∧
    decode (.command 0x00010010#32) = .error (.illegalCommand 0x10010) ∧
    decode (.command 0x00010102#32) = .error (.illegalCommand 0x10102) := by decide

/-- Bit 15 W = 0, bits 14:13 SIZE = 10, bit 12 = 0, bits 11:0 OFF. -/
theorem test_decode_reads :
    decode (.bus 0b0100000000000000#16 0) = .ok .rdId ∧
    decode (.bus 0b0100000000000100#16 0) = .ok .rdCfg ∧
    decode (.bus 0b0100000000001000#16 0) = .ok .rdCtrl ∧
    decode (.bus 0b0100000000001100#16 0) = .ok .rdStatus ∧
    decode (.bus 0b0100000000010000#16 0) = .ok .rdCmd ∧
    decode (.bus 0b0100000000010100#16 0) = .ok .rdRounds ∧
    decode (.bus 0b0100000000011000#16 0) = .ok .rdLenLo ∧
    decode (.bus 0b0100000000011100#16 0) = .ok .rdLenHi ∧
    decode (.bus 0b0100000000100000#16 0) = .ok .rdKeyA ∧
    decode (.bus 0b0100000000100100#16 0) = .ok .rdKeyB ∧
    decode (.bus 0b0100000000101000#16 0) = .ok .rdKeyC ∧
    decode (.bus 0b0100000000101100#16 0) = .ok .rdKeyD ∧
    decode (.bus 0b0100000000110000#16 0) = .ok .rdBlkY ∧
    decode (.bus 0b0100000000110100#16 0) = .ok .rdBlkZ ∧
    decode (.bus 0b0100000000111000#16 0) = .ok .rdFifoStat ∧
    decode (.bus 0b0100000000111100#16 0) = .ok .rdInCnt ∧
    decode (.bus 0b0100000001000000#16 0) = .ok .rdOutCnt ∧
    decode (.bus 0b0100000001000100#16 0) = .ok .rdDin ∧
    decode (.bus 0b0100000001001000#16 0) = .ok .rdDout := by decide

/-- The same with W = 1, and a data word of which every byte differs. -/
theorem test_decode_writes :
    decode (.bus 0b1100000000000000#16 0x1234ABCD) = .ok (.wrId 0x1234ABCD) ∧
    decode (.bus 0b1100000000000100#16 0x1234ABCD) = .ok (.wrCfg 0x1234ABCD) ∧
    decode (.bus 0b1100000000001000#16 0x1234ABCD) = .ok (.wrCtrl 0x1234ABCD) ∧
    decode (.bus 0b1100000000001100#16 0x1234ABCD) = .ok (.wrStatus 0x1234ABCD) ∧
    decode (.bus 0b1100000000010000#16 0x1234ABCD) = .ok (.wrCmd 0x1234ABCD) ∧
    decode (.bus 0b1100000000010100#16 0x1234ABCD) = .ok (.wrRounds 0x1234ABCD) ∧
    decode (.bus 0b1100000000011000#16 0x1234ABCD) = .ok (.wrLenLo 0x1234ABCD) ∧
    decode (.bus 0b1100000000011100#16 0x1234ABCD) = .ok (.wrLenHi 0x1234ABCD) ∧
    decode (.bus 0b1100000000100000#16 0x1234ABCD) = .ok (.wrKeyA 0x1234ABCD) ∧
    decode (.bus 0b1100000000100100#16 0x1234ABCD) = .ok (.wrKeyB 0x1234ABCD) ∧
    decode (.bus 0b1100000000101000#16 0x1234ABCD) = .ok (.wrKeyC 0x1234ABCD) ∧
    decode (.bus 0b1100000000101100#16 0x1234ABCD) = .ok (.wrKeyD 0x1234ABCD) ∧
    decode (.bus 0b1100000000110000#16 0x1234ABCD) = .ok (.wrBlkY 0x1234ABCD) ∧
    decode (.bus 0b1100000000110100#16 0x1234ABCD) = .ok (.wrBlkZ 0x1234ABCD) ∧
    decode (.bus 0b1100000000111000#16 0x1234ABCD) = .ok (.wrFifoStat 0x1234ABCD) ∧
    decode (.bus 0b1100000000111100#16 0x1234ABCD) = .ok (.wrInCnt 0x1234ABCD) ∧
    decode (.bus 0b1100000001000000#16 0x1234ABCD) = .ok (.wrOutCnt 0x1234ABCD) ∧
    decode (.bus 0b1100000001000100#16 0x1234ABCD) = .ok (.wrDin 0x1234ABCD) ∧
    decode (.bus 0b1100000001001000#16 0x1234ABCD) = .ok (.wrDout 0x1234ABCD) := by decide

/-- The reserved offsets, at both ends of each row's range. -/
theorem test_decode_reserved :
    decode (.bus 0b0100000001001100#16 0) = .ok .rdReserved04c04c ∧
    decode (.bus 0b0100000001010000#16 0) = .ok (.rdReserved05005c 0x050) ∧
    decode (.bus 0b0100000001011100#16 0) = .ok (.rdReserved05005c 0x05C) ∧
    decode (.bus 0b0100000001100000#16 0) = .ok (.rdReserved06007c 0x060) ∧
    decode (.bus 0b0100000001111100#16 0) = .ok (.rdReserved06007c 0x07C) ∧
    decode (.bus 0b0100000010000000#16 0) = .ok (.rdReserved0800fc 0x080) ∧
    decode (.bus 0b0100000011111100#16 0) = .ok (.rdReserved0800fc 0x0FC) ∧
    decode (.bus 0b1100000001001100#16 9) = .ok (.wrReserved04c04c 9) ∧
    decode (.bus 0b1100000001010000#16 9) = .ok (.wrReserved05005c 0x050 9) ∧
    decode (.bus 0b1100000001011100#16 9) = .ok (.wrReserved05005c 0x05C 9) ∧
    decode (.bus 0b1100000001100000#16 9) = .ok (.wrReserved06007c 0x060 9) ∧
    decode (.bus 0b1100000001111100#16 9) = .ok (.wrReserved06007c 0x07C 9) ∧
    decode (.bus 0b1100000010000000#16 9) = .ok (.wrReserved0800fc 0x080 9) ∧
    decode (.bus 0b1100000011111100#16 9) = .ok (.wrReserved0800fc 0x0FC 9) := by decide

/-- The malformed transactions: SIZE 00, 01, 11, and OFF[1:0] 01, 10, 11 at SIZE 10, whatever W and bit 12. -/
theorem test_decode_malformed :
    decode (.bus 0b1000000001000100#16 7) = .ok (.buserrSize1byte true false 0x044) ∧
    decode (.bus 0b0010000000001100#16 0) = .ok (.buserrSize2byte false false 0x00C) ∧
    decode (.bus 0b1111000000010001#16 7) = .ok (.buserrSize8byte true true 0x011) ∧
    decode (.bus 0b0100000000000001#16 0) = .ok (.buserrMisaligned1 false false 0x001) ∧
    decode (.bus 0b1101111111111110#16 7) = .ok (.buserrMisaligned2 true true 0xFFE) ∧
    decode (.bus 0b1100000001000111#16 7) = .ok (.buserrMisaligned3 true false 0x047) := by decide

/-- What is no transaction of the engine (30 R86, R85). -/
theorem test_decode_refuses :
    decode (.bus 0b0100000100000000#16 0) = .error (.outsideWindow 0x100) ∧
    decode (.bus 0b1100111111111100#16 7) = .error (.outsideWindow 0xFFC) ∧
    decode (.bus 0b0101000000001100#16 0) = .error (.reservedDescriptorBit 0x500C) := by decide

/-! ### Single steps, with the spec's examples -/

/-- The machine whose engine is `e`. -/
def withEngine (e : Engine) : State := { State.reset with engine := e }

/-- The engine of a next state. -/
def engineOf : Result → Option Engine
  | .next s => some s.engine
  | .fault _ | .refused _ => none

/-- The value a read gives the host. -/
def valueOf : Result → Option Word
  | .next s => some s.v
  | .fault _ | .refused _ => none

/-- The address of a BusError. -/
def faultOf : Result → Option Fault
  | .fault r => some r
  | .next _ | .refused _ => none

/-- The STATUS value after an instruction. -/
def statusOf (r : Result) : Option Word := (engineOf r).map statusWord

/-- A run of `op` that waits for input. -/
def running (op : Op) : Engine := { Engine.reset with
  lastOp := op.code, seq := .run op { acc := [], rem := some 8, first := false, kacc := Key.zero } }

/-- A finished command. -/
def finished : Engine := { Engine.reset with done := true, ok := true, lastOp := 0x10, rej := true, ovf := true }

theorem test_read_rounds_after_reset : valueOf (exec .rdRounds State.reset) = some 0x00000020 := by decide -- R100
theorem test_read_fifo_stat_after_reset : valueOf (exec .rdFifoStat State.reset) = some 0x00020000 := by decide -- R35
theorem test_read_id : valueOf (exec .rdId State.reset) = some 0x54454131 := by decide -- R27
theorem test_read_cfg : valueOf (exec .rdCfg State.reset) = some 0x00001010 := by decide -- R28, R10
theorem test_read_len : valueOf (exec .rdLenHi (withEngine { Engine.reset with len := 0x0000000500000007 })) = some 5 ∧
    valueOf (exec .rdLenLo (withEngine { Engine.reset with len := 0x0000000500000007 })) = some 7 := by decide -- R25
theorem test_read_dout : -- R105
    valueOf (exec .rdDout (withEngine { Engine.reset with outq := [0x73, 0xCD] })) = some 0x00000173 ∧
    (engineOf (exec .rdDout (withEngine { Engine.reset with outq := [0x73, 0xCD] }))).map (·.outq) = some [0xCD] := by
  decide
theorem test_read_dout_empty : valueOf (exec .rdDout State.reset) = some 0 := by decide -- R105
theorem test_write_key_c : (engineOf (exec (.wrKeyC 0x90B21035) State.reset)).map (·.key) =
    some { a := 0, b := 0, c := 0x90B21035, d := 0 } := by decide -- R101
theorem test_write_key_c_busy : engineOf (exec (.wrKeyC 0x90B21035) (withEngine (running .encBuf))) =
    some { running .encBuf with rej := true } := by decide -- R101
theorem test_write_len_hi : (engineOf (exec (.wrLenHi 5) (withEngine { Engine.reset with len := 7 }))).map (·.len) =
    some 0x0000000500000007 := by decide -- R25
theorem test_write_ctrl_flush : -- R102
    engineOf (exec (.wrCtrl 0x19) (withEngine { Engine.reset with inq := [.byte 1, .endMark], outq := [2] })) =
      some { Engine.reset with ie := true } := by decide
theorem test_write_ctrl_abort : statusOf (exec (.wrCtrl 0x4) (withEngine (running .encStream))) =
    some 0x00220062 := by decide -- R117
theorem test_write_status_ack : statusOf (exec (.wrStatus 0x302) (withEngine finished)) = some 0x00100004 := by decide -- R103
theorem test_write_din_end : -- R104
    (engineOf (exec (.wrDin 0x148) State.reset)).map (·.inq) = some [.endMark] := by decide
theorem test_write_din_full : -- R104
    (engineOf (exec (.wrDin 0x48) { State.reset with
      engine := { Engine.reset with inq := [.byte 1] }, params := { Params.default with inDepth := 1 } })) =
      some { Engine.reset with inq := [.byte 1], ovf := true } := by decide
theorem test_write_cmd_busy : engineOf (exec (.wrCmd 0x10) (withEngine (running .encBuf))) =
    some { running .encBuf with rej := true } := by decide -- R106
theorem test_write_cmd_illegal : statusOf (exec (.wrCmd 0x05) State.reset) = some 0x00050012 := by decide -- R108
theorem test_nop : statusOf (exec .nop State.reset) = some 0x00000006 := by decide -- R109
theorem test_key_clear : (engineOf (exec .keyClear (withEngine { Engine.reset with
    key := { a := 1, b := 2, c := 3, d := 4 } }))).map (·.key) = some { a := 0, b := 0, c := 0, d := 0 } := by decide -- R142
theorem test_key_fold : (engineOf (exec (.keyFold 0x62) (withEngine { Engine.reset with
    key := { a := 0x61, b := 0x61, c := 0x61, d := 0x61 } }))).map (·.key) =
    some { a := 0x309, b := 0x611, c := 0xC21, d := 0x1841 } := by decide -- R143
theorem test_derive : derive [0x31, 0x32, 0x33, 0x34, 0x35, 0x36, 0x37, 0x38, 0x39] =
    { a := 0x13B5B4B5, b := 0x5F99BE35, c := 0x90B21035, d := 0xA4607035 } := by decide -- R144
theorem test_from_raw : fromRaw [0, 1, 2, 3, 4, 5, 6, 7, 8, 9, 10, 11, 12, 13, 14, 15] =
    { a := 0x03020100, b := 0x07060504, c := 0x0B0A0908, d := 0x0F0E0D0C } := by decide -- R145
theorem test_encipher_zero : encipher 0 0 Key.zero 32 = (0x41EA3A0A, 0x94BAA940) := by decide +kernel -- 95, R165
theorem test_stream_of_nothing : -- R223, R226
    encStream [] { a := 0x13B5B4B5, b := 0x5F99BE35, c := 0x90B21035, d := 0xA4607035 } 32 =
      [0x02, 0x9B, 0xE9, 0xF1, 0x0B, 0x34, 0xA9, 0x0B] ∧
    decStream [0x02, 0x9B, 0xE9, 0xF1, 0x0B, 0x34, 0xA9, 0x0B]
      { a := 0x13B5B4B5, b := 0x5F99BE35, c := 0x90B21035, d := 0xA4607035 } 32 = (.none, []) := by decide +kernel
theorem test_dec_buf_bad_len : statusOf (exec .decBuf (withEngine { Engine.reset with len := 9 })) =
    some 0x00210022 := by decide -- R194, R30
theorem test_enc_buf_empty : statusOf (exec .encBuf State.reset) = some 0x00200006 := by decide -- R191, R30
theorem test_key_pass_short : -- R146
    (engineStep Params.default { running .keyPass with inq := [.endMark] }).map statusWord = some 0x00030042 := by decide
theorem test_malformed_answers_bus_error : -- R62, R244
    faultOf (step (({ State.reset with params := { Params.default with teaBase := 0x40000000 } } : State).issue
      (.bus 0xC011#16 1))) = some (.busError 0x40000011) := by decide
theorem test_withFetchWord_runs_the_row : -- R86: the descriptor 0x400C reads STATUS, the word 0x10 starts ENC_BLOCK
    valueOf (step (State.reset.withFetchWord 16 0x400C)) = some 0 ∧
    (engineOf (step (State.reset.withFetchWord 32 0x10))).map (·.lastOp) = some 0x10 := by decide

/-- The first statement of a host program after its source or sink has failed. -/
def firstOnFailure (p : HostProgram) : Option HostStmt := p.onFailure.bind (p.stmts[·]?)

theorem test_failure_goes_to_abort : -- 45 R217; 30 R88: `ABORT` is `WR CTRL, 0x4`
    firstOnFailure (encryptStreamProgram 2 [1, 2] Key.zero) = some (.wr 0x008 0x4) ∧
    firstOnFailure (encryptStreamProgram 3 [1, 2] Key.zero) = some (.wr 0x008 0x4) ∧
    firstOnFailure (decryptStreamProgram [1, 2] Key.zero) = some (.wr 0x008 0x4) := by decide
theorem test_programs_load_the_key_first : -- 45 R210; 30 R88 `SETKEY`, and the default of 32 rounds
    (encryptBytesProgram [1] { a := 1, b := 2, c := 3, d := 4 }).stmts.take 6 =
      [.wr 0x020 1, .wr 0x024 2, .wr 0x028 3, .wr 0x02C 4, .wr 0x014 32, .wr 0x018 1] := by decide

/-! ### Hypotheses that a state meets -/

/-- A block run with everything the step takes. -/
def blockRun (op : Op) : Engine := { Engine.reset with lastOp := op.code, seq := .run op blockCtx }

/-- A codec run with `acc` pending, `rem` to come and `inq` waiting. -/
def codecRun (op : Op) (acc : List Byte) (rem : Option Quad) (first : Bool) (inq : List InEntry) (outq : List Byte) : Engine :=
  { Engine.reset with lastOp := op.code, inq := inq, outq := outq,
                      seq := .run op { acc := acc, rem := rem, first := first, kacc := Key.zero } }

/-- The run and the context of every `codecRun` below, with the FIFOs it was given. -/
theorem codecRun_hypotheses (op : Op) (acc : List Byte) (rem : Option Quad) (first : Bool) (inq : List InEntry)
    (outq : List Byte) :
    (codecRun op acc rem first inq outq).seq =
      .run op { acc := acc, rem := rem, first := first, kacc := Key.zero } ∧
    (codecRun op acc rem first inq outq).inq = inq ∧ (codecRun op acc rem first inq outq).outq = outq := ⟨rfl, rfl, rfl⟩

theorem reset_params_legal : State.reset.params.Legal := by constructor <;> decide

theorem reset_reachable : Reachable State.reset := .reset _ _ _ reset_params_legal

/-- R47 in the state after reset. -/
theorem witness_inv : State.reset.Inv := by
  constructor <;> simp [Engine.reset, Params.default, Engine.busy]

theorem witness_IdAndCfgReadFixedValuesAndIgnoreWrites : State.reset.params.Legal := reset_params_legal
theorem witness_FifoStatShowsTheFifoLevels : State.reset.params.Legal ∧ State.reset.Inv := ⟨reset_params_legal, witness_inv⟩
theorem witness_DoutReadPopsOneByteOrReturnsZero :
    (withEngine { Engine.reset with outq := [0x73] }).engine.outq = 0x73 :: [] ∧ State.reset.engine.outq = [] := by decide
theorem witness_ReservedOffsetsReadZeroAndIgnoreWrites :
    (0x04C ≤ (0x04C#12).toNat ∧ (0x04C#12).toNat ≤ 0x0FC ∧ (0x04C#12).toNat % 4 = 0) ∧
    (0x04C ≤ (0x0FC#12).toNat ∧ (0x0FC#12).toNat ≤ 0x0FC ∧ (0x0FC#12).toNat % 4 = 0) := by decide
theorem witness_ReadsOtherThanDoutChangeNoEngineState :
    ∃ t, 0x044#12 ≠ 0x048#12 ∧ step (State.reset.issue (.bus (0x4000#16 ||| (0x044#12).setWidth 16) 0)) = .next t :=
  ⟨_, by decide, rfl⟩
theorem witness_ConfigWritesStoreWhenIdleAndRejectWhenBusy :
    State.reset.engine.seq = .idle ∧ (withEngine (running .keyRaw)).engine.seq ≠ .idle := by decide
theorem witness_ControlWriteAbortsFlushesAndSetsIe : (0x1D#32).getLsbD 1 = false := by decide
theorem witness_SoftResetPutsEveryRegisterAtItsResetValue : (0x1F#32).getLsbD 1 = true := by decide
theorem witness_OnlyAlignedFourByteAccessesReachARegister :
    ((0x8044#16).extractLsb' 13 2 ≠ 0b10#2) ∧ ((0x4003#16).setWidth 12).toNat % 4 ≠ 0 := by decide
theorem witness_OnlyMalformedTransactionsStopTheMachine :
    step (State.reset.issue (.bus 0x8044#16 0)) = .fault (.busError 0x44) ∧
    step (State.reset.issue (.bus 0x4100#16 0)) = .refused (.outsideWindow 0x100) ∧
    step (State.reset.issue (.bus 0x5000#16 0)) = .refused (.reservedDescriptorBit 0x5000) := ⟨rfl, rfl, rfl⟩
theorem witness_CommandsWrittenWhileBusyAreRejected : (withEngine (running .decBlock)).engine.seq ≠ .idle := by decide
theorem witness_IllegalWordFinishesIllegalCommand : State.reset.engine.seq = .idle ∧
    ¬((0x00000024#32).extractLsb' 16 16 = 0 ∧
      (0x00000024#32).setWidth 8 ∈
        [0x00#8, 0x01#8, 0x02#8, 0x03#8, 0x04#8, 0x10#8, 0x11#8, 0x20#8, 0x21#8, 0x22#8, 0x23#8] ∧
      ((0x00000024#32).setWidth 8 = 0x02#8 ∨ (0x00000024#32).extractLsb' 8 8 = 0)) := by decide
theorem witness_CommandWriteRunsTheCommandOfItsWord :
    decodeCommand 0x0000FF02#32 = .ok (.keyFold 0xFF) ∧ State.reset.engine.seq = .idle ∧
    (withEngine (running .encBuf)).engine.seq ≠ .idle := by decide
theorem witness_NopKeyClearAndKeyFoldFinishAtOnce : State.reset.engine.seq = .idle := rfl
theorem witness_KeyAndBlockCommandsStartTheirRun : State.reset.engine.seq = .idle := rfl
theorem witness_EncryptCommandsStartWithThePaddingHeader : State.reset.engine.seq = .idle ∧ State.reset.engine.len = 0 ∧
    (withEngine { Engine.reset with len := 1 }).engine.seq = .idle ∧
    (withEngine { Engine.reset with len := 1 }).engine.len ≠ 0 := by decide
theorem witness_DecryptCommandsStartOrFinishBadLen : State.reset.engine.seq = .idle ∧ State.reset.engine.len = 0 ∧
    (withEngine { Engine.reset with len := 9 }).engine.len.toNat % 8 ≠ 0 ∧
    (withEngine { Engine.reset with len := 8 }).engine.len ≠ 0 ∧
    (withEngine { Engine.reset with len := 8 }).engine.len.toNat % 8 = 0 := by decide
theorem witness_IrqIsTheLevelOfIeAndDone : State.reset.engine.seq = .idle := rfl
theorem witness_KeyPassStepFollowsItsGuards :
    (codecRun .keyPass [] (some 0) false [] []).seq =
      .run .keyPass { acc := [], rem := some 0, first := false, kacc := Key.zero } ∧
    (codecRun .keyPass [] (some 1) false [.byte 5] []).inq = .byte 5 :: [] ∧
    (codecRun .keyPass [] (some 1) false [.endMark] []).inq = .endMark :: [] ∧
    (codecRun .keyPass [] (some 1) false [] []).inq = [] ∧ (1 : Quad) ≠ 0 := by decide
theorem witness_KeyRawStepFollowsItsGuards :
    (codecRun .keyRaw (List.replicate 16 7) (some 16) false [] []).seq =
      .run .keyRaw { acc := List.replicate 16 7, rem := some 16, first := false, kacc := Key.zero } ∧
    (List.replicate 16 (7 : Byte)).length = 16 ∧ (List.replicate 15 (7 : Byte)).length ≠ 16 ∧
    (codecRun .keyRaw (List.replicate 15 7) (some 16) false [.byte 5] []).inq = .byte 5 :: [] ∧
    (codecRun .keyRaw (List.replicate 15 7) (some 16) false [.endMark] []).inq = .endMark :: [] ∧
    (codecRun .keyRaw (List.replicate 15 7) (some 16) false [] []).inq = [] := by decide
theorem witness_BlockStepTransformsBlkAndFinishes :
    (blockRun .encBlock).seq = .run .encBlock blockCtx ∧ (blockRun .decBlock).seq = .run .decBlock blockCtx := by decide
theorem witness_EncryptStepFollowsItsGuards :
    Op.encStream ∈ [Op.encBuf, Op.encStream] ∧
    (codecRun .encStream (List.replicate 8 7) (some 0) false [] []).seq =
      .run .encStream { acc := List.replicate 8 7, rem := some 0, first := false, kacc := Key.zero } ∧
    (List.replicate 8 (7 : Byte)).length = 8 ∧
    (codecRun .encStream (List.replicate 8 7) (some 0) false [] (List.replicate 8 0)).outq.length + 8 ≤ 16 ∧
    ¬(codecRun .encStream (List.replicate 8 7) (some 0) false [] (List.replicate 9 0)).outq.length + 8 ≤ 16 ∧
    ([] : List Byte).length ≠ 8 ∧ ([1] : List Byte) ≠ [] ∧ ([1] : List Byte).length ≠ 8 ∧
    (codecRun .encBuf [1] (some 7) false [.byte 5] []).inq = .byte 5 :: [] ∧
    (codecRun .encBuf [1] (some 7) false [.endMark] []).inq = .endMark :: [] ∧
    (codecRun .encBuf [1] (some 7) false [] []).inq = [] ∧ (7 : Quad) ≠ 0 := by decide

/-- Eight bytes that decrypt, with the zero key and no round, to themselves: a marker of 0, of 8 and of 9. -/
theorem witness_DecryptStepFollowsItsGuards :
    (codecRun .decBuf [9, 0, 0, 0, 0, 0, 0, 0] (some 0) true [] []).seq =
      .run .decBuf { acc := [9, 0, 0, 0, 0, 0, 0, 0], rem := some 0, first := true, kacc := Key.zero } ∧
    (9 : Byte) = (decryptBlock [9, 0, 0, 0, 0, 0, 0, 0] Key.zero 0).headD 0 ∧ 8 < (9 : Byte).toNat ∧
    (8 : Byte) = (decryptBlock [8, 0, 0, 0, 0, 0, 0, 0] Key.zero 0).headD 0 ∧ (8 : Byte).toNat ≤ 8 ∧
    (0 : Byte) = (decryptBlock [0, 0, 0, 0, 0, 0, 0, 0] Key.zero 0).headD 0 ∧
    (List.replicate 16 (0 : Byte)).length + (8 - 8) ≤ 16 ∧ ¬(List.replicate 16 (0 : Byte)).length + (8 - 0) ≤ 16 ∧
    (codecRun .decStream [1, 2, 3, 4, 5, 6, 7, 8] none false [] []).outq.length + 8 ≤ 16 ∧
    (codecRun .decStream [1] none true [.byte 5] []).inq = .byte 5 :: [] ∧
    (codecRun .decStream [] none true [.endMark] []).inq = .endMark :: [] ∧
    (codecRun .decStream [1] none true [.endMark] []).inq = .endMark :: [] ∧
    (codecRun .decBuf [1] (some 7) true [.endMark] []).inq = .endMark :: [] ∧
    (codecRun .decBuf [1] (some 7) true [] []).inq = [] ∧ (some 7 : Option Quad) ≠ some 0 ∧
    (none : Option Quad) ≠ some 0 ∧ Op.decBuf ∈ [Op.decBuf, Op.decStream] ∧ Op.decStream ∈ [Op.decBuf, Op.decStream] := by
  decide

/-- A run that waits for input, a run that waits for room, and an idle engine, all with the shape of their run. -/
theorem witness_EngineWaitsOnlyForInputOrForRoom :
    (codecRun .decStream [1] none true [] []).RunShape ∧ (codecRun .decStream [1] none true [] []).seq ≠ .idle ∧
    engineStep Params.default (codecRun .decStream [1] none true [] []) = none ∧
    (codecRun .encBuf (List.replicate 8 7) (some 0) false [] (List.replicate 9 0)).RunShape ∧
    engineStep Params.default (codecRun .encBuf (List.replicate 8 7) (some 0) false [] (List.replicate 9 0)) = none ∧
    Engine.reset.RunShape ∧ Engine.reset.seq = .idle := by
  refine ⟨?_, by decide, by decide, ?_, by decide, ?_, rfl⟩
  · rintro op ctx h; cases h; exact ⟨by decide, rfl⟩
  · rintro op ctx h; cases h; exact ⟨by decide, by decide, rfl⟩
  · rintro op ctx h; cases h
theorem witness_EngineStepCountsWhatItTakesAndPushes :
    ∃ e, engineStep Params.default (codecRun .encBuf [1] (some 7) false [.byte 5] []) = some e := ⟨_, rfl⟩
theorem witness_StepRunsTheDecodedInstruction :
    (State.reset.issue (.bus 0xC010#16 0x20)).port = .host (.bus 0xC010#16 0x20) :: [] ∧
    decode (.bus 0xC010#16 0x20) = .ok (.wrCmd 0x20) ∧
    (State.reset.issue (.command 0x05)).port = .host (.command 0x05) :: [] ∧
    ∀ i, decodeCommand 0x05 ≠ .ok i :=
  ⟨rfl, rfl, rfl, by
    intro i h
    have : decodeCommand 0x05 = .error (.illegalCommand 0x05) := rfl
    rw [this] at h; cases h⟩
/-- An engine that gets every turn: its execution is weakly fair. -/
def turns (s : State) (n : Nat) : State := engineTurn^[n] s

theorem turns_execution (s : State) : Execution (turns s) (fun _ => .engine) where
  takes n := by rw [takeEvent_engine, turns, turns, Function.iterate_succ_apply']
  fair n _ := ⟨n, le_rfl, rfl⟩

theorem witness_EngineTurnTakesTheEnabledStep :
    ({ State.reset with port := [.engine] } : State).port = .engine :: [] ∧ State.reset.port = [] ∧
    Execution (turns (withEngine (running .keyPass))) (fun _ => .engine) ∧ isPoll .engine = true ∧
    isPoll (.host (.bus 0x400C 0)) = true ∧
    ∃ e, engineRun Params.default 1 { running .keyPass with inq := [.endMark] } = some e :=
  ⟨rfl, rfl, turns_execution _, rfl, by decide, _, rfl⟩
theorem witness_DecodeOfEncodeGivesTheInstruction : Instr.wellFormed (.wrReserved0800fc 0x0FC 0xFFFFFFFF) = true := by decide
theorem witness_DecodedInstructionsAreWellFormed : decode (.bus 0x40FC#16 0) = .ok (.rdReserved0800fc 0x0FC) := by decide

/-- A step that starts a run. -/
theorem witness_step_leaves_idle :
    ∃ t, step (State.reset.issue (.bus 0xC010#16 0x10)) = .next t ∧ State.reset.engine.seq = .idle ∧ t.engine.seq ≠ .idle :=
  ⟨_, rfl, rfl, by decide⟩
theorem witness_OnlyCommandAcceptanceLeavesIdle :
    ∃ t, step (State.reset.issue (.bus 0xC010#16 0x10)) = .next t ∧
      (State.reset.issue (.bus 0xC010#16 0x10)).engine.seq = .idle ∧ t.engine.seq ≠ .idle := witness_step_leaves_idle
theorem witness_EveryStepKeepsTheInvariantOfR47 :
    (∃ t, (State.reset.issue (.bus 0xC010#16 0x10)).Inv ∧ step (State.reset.issue (.bus 0xC010#16 0x10)) = .next t) ∧
    Reachable State.reset := ⟨⟨_, witness_inv, rfl⟩, reset_reachable⟩
theorem witness_EveryStepKeepsTheRunShape :
    ∃ t, (withEngine (codecRun .decStream [1] none true [.byte 5] [])).engine.RunShape ∧
      step (withEngine (codecRun .decStream [1] none true [.byte 5] [])) = .next t :=
  ⟨_, by rintro op ctx h; cases h; exact ⟨by decide, rfl⟩, rfl⟩
theorem witness_EveryStepKeepsTheResultTable :
    ∃ t, (State.reset.issue (.bus 0xC010#16 0x10)).Inv ∧ (State.reset.issue (.bus 0xC010#16 0x10)).engine.ResultTable ∧
      step (State.reset.issue (.bus 0xC010#16 0x10)) = .next t :=
  ⟨_, witness_inv, ⟨(fun _ _ h => by cases h), rfl, (fun h => by cases h), (fun h => by cases h)⟩, rfl⟩
theorem witness_OperandsAreFrozenDuringARun :
    ∃ t, step ((withEngine (running .encBuf)).issue (.bus 0xC014#16 7)) = .next t ∧
      (withEngine (running .encBuf)).engine.seq ≠ .idle ∧ t.engine.seq ≠ .idle := ⟨_, rfl, by decide, by decide⟩
theorem witness_OnlyASuccessfulFinishCommitsAResult :
    (∃ t, step (withEngine (codecRun .keyPass [] (some 1) false [.endMark] [])) = .next t ∧
      (withEngine (codecRun .keyPass [] (some 1) false [.endMark] [])).engine.seq ≠ .idle ∧ t.engine.seq = .idle ∧
      t.engine.ok = false) ∧
    ∃ t, step ((withEngine (running .encBuf)).issue (.bus 0xC008#16 2)) = .next t ∧ t.engine.seq = .idle :=
  ⟨⟨_, rfl, by decide, rfl, rfl⟩, ⟨_, rfl, rfl⟩⟩
theorem witness_OnlyDinWritesAddInputAndOnlyTheEngineAddsOutput :
    ∃ t, step (State.reset.issue (.bus 0xC044#16 7)) = .next t ∧ t.engine.inq = [.byte 7] := ⟨_, rfl, rfl⟩
theorem witness_ReadOnlyAndReservedWritesAreIgnored :
    Instr.wrDout 7 ∈ [Instr.wrId 7, .wrCfg 7, .wrFifoStat 7, .wrInCnt 7, .wrOutCnt 7, .wrDout 7, .wrReserved04c04c 7,
      .wrReserved05005c 0x050 7, .wrReserved06007c 0x050 7, .wrReserved0800fc 0x050 7] := by decide
theorem witness_MalformedRowsAnswerBusError :
    Instr.buserrMisaligned3 true false 0x003 ∈ [Instr.buserrSize1byte true false 0x003, .buserrSize2byte true false 0x003,
      .buserrSize8byte true false 0x003, .buserrMisaligned1 true false 0x003, .buserrMisaligned2 true false 0x003,
      .buserrMisaligned3 true false 0x003] := by decide
theorem witness_DecipherUndoesEncipher : (List.replicate 8 (7 : Byte)).length = 8 := by decide
theorem witness_UnpadUndoesPadWhateverThePadBytes :
    ([5, 6] : List Byte).length = 7 - ([1, 2, 3, 4, 5] : List Byte).length % 8 ∧ 8 < (9 : Byte).toNat := by decide
theorem witness_CodecFunctionsRoundTripAndInterchange : ([0x61] : List Byte) ≠ [] := by decide
theorem witness_EncryptionKeepsLengthLawAndBlockOrder : ([0x61] : List Byte) ≠ [] := by decide

/-- An idle engine with a length and bytes to consume, and an End behind them. -/
def loaded (len : Quad) (bytes : List Byte) : State :=
  withEngine { Engine.reset with len := len, rounds := 0, inq := bytes.map .byte ++ [.endMark] }

theorem witness_KeyPassRunDerivesTheKey : (loaded 2 [1, 2]).engine.seq = .idle ∧
    (loaded 2 [1, 2]).engine.len.toNat = ([1, 2] : List Byte).length ∧
    (loaded 2 [1, 2]).engine.inq = ([1, 2] : List Byte).map .byte ++ [.endMark] := by decide
theorem witness_FoldingByteByByteDerivesTheSameKey : State.reset.engine.seq = .idle := rfl
theorem witness_KeyRawRunLoadsSixteenBytes : (loaded 0 (List.replicate 16 3)).engine.seq = .idle ∧
    (List.replicate 16 (3 : Byte)).length = 16 ∧
    (loaded 0 (List.replicate 16 3)).engine.inq = (List.replicate 16 (3 : Byte)).map .byte ++ [.endMark] := by decide
theorem witness_BlockCommandsRoundTrip : State.reset.engine.seq = .idle := rfl
theorem witness_EncryptRunPushesTheEncryptedPaddedBuffer : (loaded 8 (List.replicate 8 3)).engine.seq = .idle ∧
    (loaded 8 (List.replicate 8 3)).engine.len.toNat = (List.replicate 8 (3 : Byte)).length ∧
    (loaded 8 (List.replicate 8 3)).engine.inq = (List.replicate 8 (3 : Byte)).map .byte ++ [.endMark] ∧
    (loaded 8 (List.replicate 8 3)).engine.outq.length + (List.replicate 8 (3 : Byte)).length
      + (8 - (List.replicate 8 (3 : Byte)).length % 8) ≤ (loaded 8 (List.replicate 8 3)).params.outDepth ∧
    List.replicate 8 (3 : Byte) ≠ [] := by decide

/-- With no rounds a block decrypts to itself: 0x07 is a fill that leaves one byte, 0x09 is a bad fill. -/
theorem witness_DecryptBufferRunPushesThePlaintextOrFailsClean :
    (∀ c ∈ [[7, 0, 0, 0, 0, 0, 0, 5], ([9, 0, 0, 0, 0, 0, 0, 5] : List Byte)],
      (loaded 8 c).engine.seq = .idle ∧ (loaded 8 c).engine.len.toNat = c.length ∧
      (loaded 8 c).engine.inq = c.map .byte ++ [.endMark] ∧
      (loaded 8 c).engine.outq.length + c.length ≤ (loaded 8 c).params.outDepth) ∧
    decBuf [7, 0, 0, 0, 0, 0, 0, 5] (loaded 8 [7, 0, 0, 0, 0, 0, 0, 5]).engine.key
      (loaded 8 [7, 0, 0, 0, 0, 0, 0, 5]).engine.rounds = .ok [5] ∧
    decBuf [9, 0, 0, 0, 0, 0, 0, 5] (loaded 8 [9, 0, 0, 0, 0, 0, 0, 5]).engine.key
      (loaded 8 [9, 0, 0, 0, 0, 0, 0, 5]).engine.rounds = .error .badFill := by decide
theorem witness_DecryptStreamRunFollowsDecStream :
    (∀ c ∈ [[7, 0, 0, 0, 0, 0, 0, 5], [7, 0, 0, 0, 0, 0, 0, 5, 6], ([9, 0, 0, 0, 0, 0, 0, 5] : List Byte)],
      (loaded 0 c).engine.seq = .idle ∧ (loaded 0 c).engine.inq = c.map .byte ++ .endMark :: [] ∧
      (loaded 0 c).engine.outq.length + c.length ≤ (loaded 0 c).params.outDepth ∧
      (loaded 0 c).engine.key = Key.zero ∧ (loaded 0 c).engine.rounds = 0) ∧
    decStream [7, 0, 0, 0, 0, 0, 0, 5] Key.zero 0 = (.none, [5]) ∧
    decStream [7, 0, 0, 0, 0, 0, 0, 5, 6] Key.zero 0 = (.partialBlock, [5]) ∧
    decStream [9, 0, 0, 0, 0, 0, 0, 5] Key.zero 0 = (.badFill, []) := by decide

/-- An encrypt run with a whole block pending meets R47, and it takes its step. -/
theorem witness_encryptRun_inv :
    (codecRun .encBuf (List.replicate 8 7) (some 0) false [] []).Inv Params.default := by
  constructor <;> simp [codecRun, Engine.reset, Params.default, Engine.busy, Op.encrypts, Op.decrypts]

/-- A run that still needs one byte, which two schedules give it. -/
def lastByteRun : State := withEngine (codecRun .encBuf (List.replicate 7 7) (some 1) false [] [])

/-- The byte first, then the engine's three steps. -/
def eagerSchedule : List PortEvent := [.host (.bus 0xC044 5), .engine, .engine, .engine]

/-- The engine waits, the byte comes, and the host pops and looks at STATUS between the engine's steps. -/
def lazySchedule : List PortEvent :=
  [.engine, .host (.bus 0xC044 5), .host (.bus 0x4048 0), .engine, .engine, .host (.bus 0x4048 0), .host (.bus 0x400C 0),
   .engine]

theorem lastByteRun_inv : lastByteRun.Inv := by
  constructor <;> simp [lastByteRun, withEngine, codecRun, Engine.reset, Params.default, Engine.busy, Op.encrypts, Op.decrypts]

theorem witness_OutputDoesNotDependOnTheSchedule :
    (∃ e, (codecRun .encBuf (List.replicate 8 7) (some 0) false [] []).Inv Params.default ∧
      engineStep Params.default (codecRun .encBuf (List.replicate 8 7) (some 0) false [] []) = some e) ∧
    (∃ t, State.reset.Inv ∧ exec (.wrDin 0x41) State.reset = .next t ∧ t.engine.ovf = false) ∧
    (∃ t, exec .rdDout State.reset = .next t) ∧
    (lastByteRun.Inv ∧ (∀ ev ∈ eagerSchedule, isTransfer ev = true) ∧ (∀ ev ∈ lazySchedule, isTransfer ev = true) ∧
      pushedEntries eagerSchedule = pushedEntries lazySchedule ∧
      (∃ t popped, runEvents eagerSchedule lastByteRun = .next (t, popped) ∧ t.engine.ovf = false ∧ t.engine.seq = .idle) ∧
      ∃ t popped, runEvents lazySchedule lastByteRun = .next (t, popped) ∧ t.engine.ovf = false ∧ t.engine.seq = .idle) :=
  ⟨⟨_, witness_encryptRun_inv, rfl⟩, ⟨_, witness_inv, rfl, rfl⟩, ⟨_, rfl⟩,
    lastByteRun_inv, by decide, by decide, by decide, ⟨_, _, rfl, rfl, rfl⟩, ⟨_, _, rfl, rfl, rfl⟩⟩

/-! ### The host's duties can be met (70 R277) -/

/-- A DEC_STREAM use: End is pushed and the command written; a surplus byte is pushed, another master reads KEY, a busy NOP is
rejected, and the engine takes its one step; DONE is acknowledged and the surplus flushed; a byte is pushed for the next command before STATUS and DOUT are read. -/
def emptyStreamUse : CommandUse :=
  { start := State.reset, setup := [(1, .host (.bus 0xC044 0x100))], master := 1, word := 0x23
    rest := [(1, .host (.bus 0xC044 0xAA)), (2, .host (.bus 0x4020 0)), (1, .host (.bus 0xC010 0)), (0, .engine),
      (1, .host (.bus 0xC00C 0x302)), (1, .host (.bus 0xC008 0x8)), (1, .host (.bus 0xC044 0x55)), (1, .host (.bus 0x400C 0)),
      (1, .host (.bus 0x4048 0))]
    source := [], sealedUnder := (Key.zero, 32), toldApart := true, results := [9], ahead := [.byte 0x55] }

/-- The engine in each state of that use. -/
def emptyStreamEngines : List Engine :=
  let run : Engine :=
    { Engine.reset with
      lastOp := 0x23, inq := [.endMark, .byte 0xAA]
      seq := .run .decStream { acc := [], rem := none, first := true, kacc := Key.zero } }
  let done : Engine := { Engine.reset with lastOp := 0x23, ok := true, inq := [.byte 0xAA] }
  let next : Engine := { done with inq := [.byte 0x55] }
  [Engine.reset, { Engine.reset with inq := [.endMark] }, { run with inq := [.endMark] }, run, run, { run with rej := true },
   { done with rej := true, done := true }, done, { done with inq := [] }, next, next, next]

/-- The value the host has read in each state of that use: of STATUS, DONE = 0 and OK = 1. -/
def emptyStreamValues : List Word := [0, 0, 0, 0, 0, 0, 0, 0, 0, 0, 0x00230004, 0]

/-- The state after the first `i` events of that use. -/
def emptyStreamState (i : Nat) : State :=
  { State.reset with engine := emptyStreamEngines.getD i Engine.reset, v := emptyStreamValues.getD i 0 }

theorem emptyStreamUse_stateAt {i : Nat} {t : State} (hi : i ≤ 11) (h : emptyStreamUse.stateAt i = some t) :
    t = emptyStreamState i := by
  have : emptyStreamUse.stateAt i = some (emptyStreamState i) := by clear h; interval_cases i <;> decide +kernel
  rw [this] at h; exact (Option.some.inj h).symm

/-- The use has eleven events, and nothing changes after them. -/
theorem emptyStreamUse_stateAt_min (j : Nat) : emptyStreamUse.stateAt j = emptyStreamUse.stateAt (min j 11) := by
  simp only [CommandUse.stateAt]
  rw [show emptyStreamUse.events.take j = emptyStreamUse.events.take (min j 11) from List.take_eq_take_min]

theorem emptyStreamUse_finished {j : Nat} {t : State} (h : emptyStreamUse.stateAt j = some t) (hf : t.finished) :
    j = 6 := by
  rw [emptyStreamUse_stateAt_min] at h
  rw [emptyStreamUse_stateAt (by omega) h] at hf
  have key : ∀ k < 12, (emptyStreamState k).engine.done = true → k = 6 := by decide
  have := key _ (by omega) hf.2
  omega

theorem emptyStreamUse_finishedBy {i : Nat} (hi : 6 ≤ i) : emptyStreamUse.finishedBy i :=
  ⟨6, _, by decide, hi, rfl, rfl, rfl⟩

/-- The transactions of the use. -/
def emptyStreamAccesses : List (Nat × Access) :=
  [(0, .bus 0xC044 0x100), (1, .bus 0xC010 0x23), (2, .bus 0xC044 0xAA), (3, .bus 0x4020 0), (4, .bus 0xC010 0),
   (6, .bus 0xC00C 0x302), (7, .bus 0xC008 0x8), (8, .bus 0xC044 0x55), (9, .bus 0x400C 0), (10, .bus 0x4048 0)]

theorem emptyStreamUse_transaction {i : Nat} {a : Access} (h : emptyStreamUse.transaction i = some a) :
    (i, a) ∈ emptyStreamAccesses := by
  match i, h with
  | 0, h | 1, h | 2, h | 3, h | 4, h | 6, h | 7, h | 8, h | 9, h | 10, h => cases h; decide
  | 5, h => cases h
  | _ + 11, h => cases h

/-- No soft reset comes in the use. -/
theorem emptyStreamUse_not_reset {i : Nat} : ¬emptyStreamUse.resetBy i := by
  rintro ⟨_, _, _, a, ha, hw⟩
  have key : ∀ p ∈ emptyStreamAccesses, writesCtrl ctrlSrst p.2 = false := by decide
  exact absurd hw (by simp [key _ (emptyStreamUse_transaction ha)])

/-- The state before a transaction of the use, and the transaction. -/
theorem emptyStreamUse_at {i : Nat} {t : State} {a : Access} (ht : emptyStreamUse.stateAt i = some t)
    (ha : emptyStreamUse.transaction i = some a) : t = emptyStreamState i ∧ (i, a) ∈ emptyStreamAccesses := by
  have hm := emptyStreamUse_transaction ha
  have : ∀ p ∈ emptyStreamAccesses, p.1 ≤ 11 := by decide
  exact ⟨emptyStreamUse_stateAt (this _ hm) ht, hm⟩

/-- The ten duties can be met together. -/
theorem witness_HostDuties : HostDuties emptyStreamUse where
  feeds_input := by
    intro t h
    rw [emptyStreamUse_stateAt (by decide) h]
    refine ⟨fun k hk => ?_, .inl (by decide +kernel)⟩
    have hk : k < 4 := by
      by_contra hc
      exact hk (.inl (emptyStreamUse_finishedBy (by show 6 ≤ 1 + 1 + k; omega)))
    exact (show _ ∨ _ by clear h; interval_cases k <;> decide +kernel).imp_right .inl
  drains_running := by
    rintro i t _ h2 h ⟨k, hk, hn⟩
    rw [emptyStreamUse_stateAt h2 h] at hk hn
    have : i ≤ 11 := h2
    interval_cases i <;> simp [emptyStreamState, emptyStreamEngines, mustPush, Engine.reset] at hk
  drains_by_reads := by
    rintro _ i t _ _ ⟨a, ha, hw⟩
    have key : ∀ p ∈ emptyStreamAccesses, writesCtrl (fun d => ctrlFlushOut d && !ctrlSrst d) p.2 = false := by decide
    exact absurd hw (by simp [key _ (emptyStreamUse_transaction ha)])
  drains_ended _ := .inl
    ⟨10, _, by decide, .inl (emptyStreamUse_finishedBy (by decide)), ⟨_, rfl, by decide⟩, rfl, by rfl⟩
  keeps_room := by
    rintro i d ⟨t, a, ht, ha, _, hfull⟩
    obtain ⟨rfl, hm⟩ := emptyStreamUse_at ht ha
    have key : ∀ p ∈ emptyStreamAccesses, inFull (emptyStreamState p.1).params (emptyStreamState p.1).engine = false := by
      decide
    exact absurd hfull (by simp [key _ hm])
  starts_clean := by intro t h; rw [emptyStreamUse_stateAt (by decide) h]; decide
  flushes_after := by
    rintro j t ⟨_, ht, hf, _⟩ _
    exact ⟨7, by have := emptyStreamUse_finished ht hf; omega, _, rfl, by decide⟩
  leaves_clean := by intro t h; rw [emptyStreamUse_stateAt (by decide) h]; decide
  reads_results_after_done := by
    intro i hi _ _ _
    obtain rfl := List.mem_singleton.mp hi
    exact ⟨emptyStreamUse_finishedBy (by decide), emptyStreamUse_not_reset⟩
  configures_while_idle := by
    intro i t a ht ha off ho hw
    obtain ⟨rfl, hm⟩ := emptyStreamUse_at ht ha
    have key : ∀ p ∈ emptyStreamAccesses, ∀ off ∈ configOffsets, writtenTo off p.2 = none := by decide
    exact absurd (key _ hm _ ho) hw
  reads_status := .inl ⟨9, ⟨_, rfl, by decide⟩, emptyStreamUse_finishedBy (by decide), emptyStreamUse_not_reset⟩
  one_command := by
    refine ⟨fun i t a ht ha hw => ?_, fun t h => by rw [emptyStreamUse_stateAt (by decide) h]; decide⟩
    obtain ⟨rfl, hm⟩ := emptyStreamUse_at ht ha
    have key : ∀ p ∈ emptyStreamAccesses, writtenTo 0x010 p.2 ≠ none →
        p.1 = 1 ∨ 1 < p.1 ∧ (emptyStreamState p.1).engine.seq ≠ .idle := by decide
    exact key _ hm hw
  knows_length := by intro t _ h; exact absurd h (by decide)
  decrypts_with_same_key := by intro t h op _ _; rw [emptyStreamUse_stateAt (by decide) h]; decide
  one_master := by
    intro m a h
    simp only [CommandUse.events, emptyStreamUse, List.cons_append, List.nil_append, List.mem_cons, Prod.mk.injEq,
      List.not_mem_nil, or_false, reduceCtorEq, and_false, false_or] at h
    rcases h with ⟨rfl, h⟩ | ⟨rfl, h⟩ | ⟨rfl, h⟩ | ⟨rfl, h⟩ | ⟨rfl, h⟩ | ⟨rfl, h⟩ | ⟨rfl, h⟩ | ⟨rfl, h⟩ | ⟨rfl, h⟩ | ⟨rfl, h⟩ <;>
      cases h
    all_goals first
      | exact .inl rfl
      | exact .inr ⟨0x020, by decide, by decide⟩

end Sys2Proof.Tests
end

/-! ## The state family

What a step can do to the sequencer, to the operands, to the FIFOs and to the status, each said once over `Effect` and
`EngineStep`; the statements about the whole machine are read off these. -/

namespace Sys2Proof.Machine

open Sys2Proof

/-! ### Small facts about the state -/

/-- A predicate of the run's context and op holds whenever a run is in progress. -/
def Engine.RunsIn (P : Ctx → Op → Prop) (e : Engine) : Prop := ∀ op ctx, e.seq = .run op ctx → P ctx op

theorem Engine.runShape_iff_runsIn (e : Engine) : e.RunShape ↔ e.RunsIn Ctx.Shape := Iff.rfl

theorem Engine.runsIn_of_idle {P : Ctx → Op → Prop} {e : Engine} (idle : e.seq = .idle) : e.RunsIn P := by
  intro op ctx run
  simp [idle] at run

theorem Engine.busy_iff_not_idle (e : Engine) : e.busy = true ↔ e.seq ≠ .idle := by
  rw [Ne, ← Engine.busy_eq_false_iff, Bool.not_eq_false]

/-! ### The sequencer (10 R39, R40) -/

/-- The context with which a command starts its run (40 R107; 41 R144, R145; 42 R165, R166; 44 R191, R194; 46 R223, R226). -/
inductive Starts : Ctx → Op → Prop where
  | keyPass (n : Quad) : Starts { acc := [], rem := some n, first := false, kacc := Key.zero } .keyPass
  | keyRaw : Starts { acc := [], rem := some 16, first := false, kacc := Key.zero } .keyRaw
  | encBlock : Starts blockCtx .encBlock
  | decBlock : Starts blockCtx .decBlock
  | encrypt (op : Op) (enc : op.encrypts = true) (n : Quad) : Starts (encCtx n) op
  | decBuf (n : Quad) (len : n.toNat % 8 = 0) : Starts (decCtx (some n)) .decBuf
  | decStream : Starts (decCtx none) .decStream

/-- How an engine step that stays in the run moves its context on (41 R146, R147; 44 R192, R195). -/
inductive Advances (op : Op) (ctx : Ctx) : Ctx → Prop where
  /-- KEY_PASS folds a byte. -/
  | keyFold (n : Quad) (x : Byte) (pass : op = .keyPass) (rem : ctx.rem = some n) (pos : n ≠ 0) :
      Advances op ctx { ctx with kacc := fold ctx.kacc x, rem := some (n - 1) }
  /-- KEY_RAW takes a byte. -/
  | takeRaw (x : Byte) (raw : op = .keyRaw) (acc : ctx.acc.length ≠ 16) : Advances op ctx { ctx with acc := ctx.acc ++ [x] }
  /-- A codec run takes a byte. -/
  | take (x : Byte) (codec : (op.encrypts || op.decrypts) = true) (acc : ctx.acc.length ≠ 8) (pos : ctx.rem ≠ some 0) :
      Advances op ctx { ctx with acc := ctx.acc ++ [x], rem := ctx.rem.map (· - 1) }
  /-- A codec run has pushed the block of its pending bytes. -/
  | pushed (first : Bool) (codec : (op.encrypts || op.decrypts) = true) (acc : ctx.acc.length = 8)
      (later : ctx.first = false → first = false) : Advances op ctx { ctx with acc := [], first := first }

/-- What a step of the machine can do to the sequencer. -/
inductive SeqMove : Seq → Seq → Prop where
  | stay (seq : Seq) : SeqMove seq seq
  | stop (seq : Seq) : SeqMove seq .idle
  | start {op : Op} {ctx : Ctx} (starts : Starts ctx op) : SeqMove .idle (.run op ctx)
  | advance {op : Op} {ctx ctx' : Ctx} (advances : Advances op ctx ctx') : SeqMove (.run op ctx) (.run op ctx')

/-- Acceptance finishes at once, with some key, or starts a run. -/
theorem Accepts.finish_or_start {e t : Engine} (acc : Accepts e t) :
    (∃ key okv code, t = { e with key := key }.finish okv code) ∨ ∃ op ctx, Starts ctx op ∧ t = e.start op ctx := by
  cases acc with
  | illegal => exact .inl ⟨e.key, false, .illegalCmd, rfl⟩
  | done key => exact .inl ⟨key, true, .none, rfl⟩
  | badLen => exact .inl ⟨e.key, false, .badLen, rfl⟩
  | keyPass => exact .inr ⟨_, _, .keyPass e.len, rfl⟩
  | keyRaw => exact .inr ⟨_, _, .keyRaw, rfl⟩
  | encBlock => exact .inr ⟨_, _, .encBlock, rfl⟩
  | decBlock => exact .inr ⟨_, _, .decBlock, rfl⟩
  | encrypt op enc => exact .inr ⟨_, _, .encrypt op enc e.len, rfl⟩
  | decBuf _ len => exact .inr ⟨_, _, .decBuf e.len len, rfl⟩
  | decStream => exact .inr ⟨_, _, .decStream, rfl⟩

/-- A CTRL write leaves the sequencer alone or stops it. -/
theorem Engine.control_seq (d : Word) (e : Engine) :
    (Engine.control d e).seq = e.seq ∨ (Engine.control d e).seq = .idle := by
  obtain h | ⟨e', inq', outq', he' | ⟨_, he'⟩, _, _, h⟩ := Engine.control_cases d e
  · exact .inr (by rw [h]; rfl)
  · exact .inl (by rw [h, he'])
  · exact .inr (by rw [h, he']; rfl)

theorem Effect.seqMove {p : Params} {i : Instr} {e e' : Engine} (eff : Effect p i e e') : SeqMove e.seq e'.seq := by
  cases eff with
  | same | pop | clear | rejected | config => exact .stay _
  | control d =>
    obtain h | h := Engine.control_seq d e <;> rw [h]
    · exact .stay _
    · exact .stop _
  | push => rw [Engine.pushIn_seq]; exact .stay _
  | command idle w _ _ acc =>
    obtain ⟨key, okv, code, rfl⟩ | ⟨op, ctx, starts, rfl⟩ := acc.finish_or_start
    · exact .stop _
    · rw [idle]; exact .start starts

theorem EngineStep.seqMove {p : Params} {e e' : Engine} (st : EngineStep p e e') : SeqMove e.seq e'.seq := by
  cases st with
  | keyFold ctx n x rest seq rem pos => rw [seq]; exact .advance (.keyFold n x rfl rem pos)
  | take op ctx x rest seq _ full _ pos =>
    rw [seq]
    obtain ⟨rfl, acc⟩ | ⟨codec, acc⟩ := full
    · exact .advance (.takeRaw x rfl acc)
    · have notRaw : op ≠ .keyRaw := by rintro rfl; cases codec
      rw [if_neg notRaw]
      exact .advance (.take x codec acc (pos notRaw))
  | short | commit | codecDone | partialEnc | badFill => exact .stop _
  | streamEnd ctx => split <;> exact .stop _
  | pushEnc op ctx n seq enc _ acc =>
    rw [seq]; exact .advance (.pushed ctx.first (by simp [enc]) acc id)
  | pushFirst op ctx seq dec acc => rw [seq]; exact .advance (.pushed false (by simp [dec]) acc (fun _ => rfl))
  | pushLater op ctx seq dec acc => rw [seq]; exact .advance (.pushed ctx.first (by simp [dec]) acc id)

theorem step_seqMove {s t : State} (h : step s = .next t) : SeqMove s.engine.seq t.engine.seq := by
  obtain ⟨_, ⟨_, _, _, _, _, eff⟩ | ⟨_, st | same⟩⟩ := step_effect h
  · exact eff.seqMove
  · exact st.seqMove
  · rw [same]; exact .stay _

/-- The induction principle of runs: what holds of every initial context and is kept by every engine step inside a run holds
along the whole run. -/
theorem Engine.RunsIn.of_seqMove {P : Ctx → Op → Prop} {e e' : Engine} (inv : e.RunsIn P) (move : SeqMove e.seq e'.seq)
    (starts : ∀ ctx op, Starts ctx op → P ctx op)
    (advances : ∀ op ctx ctx', P ctx op → Advances op ctx ctx' → P ctx' op) : e'.RunsIn P := by
  intro op ctx run
  rw [run] at move
  generalize before : e.seq = seq at move
  cases move with
  | stay => exact inv op ctx before
  | start h => exact starts ctx op h
  | advance h => exact advances op _ ctx (inv op _ before) h

/-! ### The shape of a run's context (10 R40) -/

/-- The shape of ENC_BUF's and ENC_STREAM's context. -/
theorem Ctx.shape_of_encrypts {op : Op} (enc : op.encrypts = true) (ctx : Ctx) :
    ctx.Shape op ↔ ctx.acc.length ≤ 8 ∧ ctx.rem ≠ none ∧ ctx.first = false := by
  cases op <;> first | exact Iff.rfl | cases enc

theorem Op.codec_cases {op : Op} (codec : (op.encrypts || op.decrypts) = true) :
    op.encrypts = true ∨ op = .decBuf ∨ op = .decStream := by
  cases op <;> simp_all [Op.encrypts, Op.decrypts]

theorem Starts.shape {ctx : Ctx} {op : Op} (h : Starts ctx op) : ctx.Shape op := by
  cases h with
  | keyPass n => exact ⟨rfl, by simp⟩
  | keyRaw => exact ⟨by simp, rfl⟩
  | encBlock => exact ⟨rfl, rfl⟩
  | decBlock => exact ⟨rfl, rfl⟩
  | encrypt op enc n =>
    exact (Ctx.shape_of_encrypts enc _).2 ⟨by simpa [encCtx] using fill_le n.toNat, by simp [encCtx], rfl⟩
  | decBuf n => exact ⟨by simp [decCtx], by simp [decCtx]⟩
  | decStream => exact ⟨by simp [decCtx], rfl⟩

theorem Advances.shape {op : Op} {ctx ctx' : Ctx} (h : Advances op ctx ctx') (shape : ctx.Shape op) : ctx'.Shape op := by
  cases h with
  | keyFold n x pass => subst pass; exact ⟨shape.1, by simp⟩
  | takeRaw x raw acc =>
    subst raw
    obtain ⟨le, rem⟩ := shape
    exact ⟨by simp only [List.length_append, List.length_singleton]; omega, rem⟩
  | take x codec acc pos =>
    have grown (le : ctx.acc.length ≤ 8) : (ctx.acc ++ [x]).length ≤ 8 := by
      simp only [List.length_append, List.length_singleton]; omega
    obtain enc | rfl | rfl := Op.codec_cases codec
    · obtain ⟨le, rem, first⟩ := (Ctx.shape_of_encrypts enc ctx).1 shape
      exact (Ctx.shape_of_encrypts enc _).2 ⟨grown le, by simpa using rem, first⟩
    · obtain ⟨le, rem⟩ := shape
      exact ⟨grown le, by simpa using rem⟩
    · obtain ⟨le, rem⟩ := shape
      exact ⟨grown le, by simp [rem]⟩
  | pushed first codec acc later =>
    obtain enc | rfl | rfl := Op.codec_cases codec
    · obtain ⟨_, rem, notFirst⟩ := (Ctx.shape_of_encrypts enc ctx).1 shape
      exact (Ctx.shape_of_encrypts enc _).2 ⟨by simp, rem, later notFirst⟩
    · exact ⟨by simp, shape.2⟩
    · exact ⟨by simp, shape.2⟩

/-- Settles O41, by the induction principle of runs. -/
theorem everyStepKeepsTheRunShape : Obligations.EveryStepKeepsTheRunShape := by
  intro s t shape h
  rw [Engine.runShape_iff_runsIn] at shape ⊢
  exact shape.of_seqMove (step_seqMove h) (fun _ _ => Starts.shape) (fun _ _ _ shape advances => advances.shape shape)

/-! ### The FIFOs and their counters (10 R36, R37, R38) -/

theorem Engine.pushIn_inq_cases (p : Params) (x : InEntry) (e : Engine) :
    (Engine.pushIn p x e).inq = e.inq ∨ e.inq.length < p.inDepth ∧ (Engine.pushIn p x e).inq = e.inq ++ [x] := by
  by_cases lt : e.inq.length < p.inDepth
  · exact .inr ⟨lt, by rw [Engine.pushIn_of_lt x lt]⟩
  · exact .inl (by rw [Engine.pushIn_of_full x lt])

theorem Engine.control_inq (d : Word) (e : Engine) : (Engine.control d e).inq <:+ e.inq := by
  obtain h | ⟨e', inq', outq', _, rfl | rfl, _, h⟩ := Engine.control_cases d e <;> rw [h]
  · exact List.nil_suffix
  · exact List.nil_suffix

theorem Engine.control_outq (d : Word) (e : Engine) : (Engine.control d e).outq <:+ e.outq := by
  obtain h | ⟨e', inq', outq', _, _, rfl | rfl, h⟩ := Engine.control_cases d e <;> rw [h]
  · exact List.nil_suffix
  · exact List.nil_suffix

/-- Acceptance touches no FIFO (40 R107). -/
theorem Accepts.fifos {e t : Engine} (acc : Accepts e t) : t.inq = e.inq ∧ t.outq = e.outq := by
  obtain ⟨key, okv, code, rfl⟩ | ⟨op, ctx, _, rfl⟩ := acc.finish_or_start <;> exact ⟨rfl, rfl⟩

/-- An instruction only takes entries out of the FIFOs, at the head, but for a DIN write that finds room. -/
theorem Effect.fifos {p : Params} {i : Instr} {e e' : Engine} (eff : Effect p i e e') :
    (e'.inq <:+ e.inq ∨ ∃ d, i = .wrDin d ∧ e.inq.length < p.inDepth ∧ e'.inq = e.inq ++ [dinEntry d]) ∧
      e'.outq <:+ e.outq := by
  cases eff with
  | same | clear | rejected | config => exact ⟨.inl List.suffix_rfl, List.suffix_rfl⟩
  | pop b rest h => exact ⟨.inl List.suffix_rfl, h ▸ List.suffix_cons b rest⟩
  | control d => exact ⟨.inl (Engine.control_inq d e), Engine.control_outq d e⟩
  | push d hi =>
    refine ⟨?_, by rw [Engine.pushIn_outq]⟩
    obtain h | ⟨lt, h⟩ := Engine.pushIn_inq_cases p (dinEntry d) e
    · exact .inl (by rw [h])
    · exact .inr ⟨d, hi, lt, h⟩
  | command _ w _ _ acc =>
    obtain ⟨hin, hout⟩ := acc.fifos
    exact ⟨.inl (by rw [hin]; exact List.suffix_rfl), by rw [hout]; exact List.suffix_rfl⟩

/-- What an engine step takes from the input FIFO and pushes to the output FIFO, and how it counts them. -/
structure Engine.Moves (p : Params) (e e' : Engine) (taken : List InEntry) (pushed : List Byte) : Prop where
  inq : e.inq = taken ++ e'.inq
  taken_le : taken.length ≤ 1
  outq : e'.outq = e.outq ++ pushed
  inCnt : e'.inCnt = e.inCnt + BitVec.ofNat 32 (taken.filter (· ≠ .endMark)).length
  outCnt : e'.outCnt = e.outCnt + BitVec.ofNat 32 pushed.length
  pushed_le : pushed.length ≤ 8
  fits : e'.outq.length ≤ max e.outq.length p.outDepth

theorem Engine.Moves.nothing {p : Params} {e e' : Engine} (inq : e'.inq = e.inq) (outq : e'.outq = e.outq)
    (inCnt : e'.inCnt = e.inCnt) (outCnt : e'.outCnt = e.outCnt) : Engine.Moves p e e' [] [] :=
  ⟨by simp [inq], by simp, by simp [outq], by simp [inCnt], by simp [outCnt], by simp, by simp [outq]⟩

theorem Engine.Moves.byte {p : Params} {e e' : Engine} {x : Byte} (inq : e.inq = .byte x :: e'.inq)
    (outq : e'.outq = e.outq) (inCnt : e'.inCnt = e.inCnt + 1) (outCnt : e'.outCnt = e.outCnt) :
    Engine.Moves p e e' [.byte x] [] :=
  ⟨by simp [inq], by simp, by simp [outq], by simp [inCnt], by simp [outCnt], by simp, by simp [outq]⟩

theorem Engine.Moves.endMark {p : Params} {e e' : Engine} (inq : e.inq = .endMark :: e'.inq)
    (outq : e'.outq = e.outq) (inCnt : e'.inCnt = e.inCnt) (outCnt : e'.outCnt = e.outCnt) :
    Engine.Moves p e e' [.endMark] [] :=
  ⟨by simp [inq], by simp, by simp [outq], by simp [inCnt], by simp [outCnt], by simp, by simp [outq]⟩

theorem Engine.Moves.push {p : Params} {e : Engine} {l : List Byte} (op : Op) (ctx : Ctx) (le : l.length ≤ 8)
    (fits : e.outq.length + l.length ≤ p.outDepth) : Engine.Moves p e ((e.pushOut l).start op ctx) [] l :=
  ⟨rfl, by simp, rfl, by simp, rfl, le, by simp; omega⟩

theorem EngineStep.moves {p : Params} {e e' : Engine} (st : EngineStep p e e') :
    ∃ taken pushed, Engine.Moves p e e' taken pushed := by
  cases st with
  | keyFold ctx n x rest _ _ _ inq => exact ⟨_, _, .byte inq rfl rfl rfl⟩
  | take op ctx x rest _ inq => exact ⟨_, _, .byte inq rfl rfl rfl⟩
  | short op ctx rest _ inq => exact ⟨_, _, .endMark inq rfl rfl rfl⟩
  | streamEnd ctx rest _ inq =>
    refine ⟨[.endMark], [], ?_⟩
    split <;> exact .endMark inq rfl rfl rfl
  | commit | codecDone | partialEnc | badFill => exact ⟨_, _, .nothing rfl rfl rfl rfl⟩
  | pushEnc op ctx n _ _ _ _ fits => exact ⟨_, _, .push _ _ le_rfl fits⟩
  | pushFirst op ctx _ _ _ _ _ fits => exact ⟨_, _, .push _ _ (by simp) (by simpa using fits)⟩
  | pushLater op ctx _ _ _ _ fits => exact ⟨_, _, .push _ _ le_rfl fits⟩

/-- Settles O33: read off the moves of every kind of engine step. -/
theorem engineStepCountsWhatItTakesAndPushes : Obligations.EngineStepCountsWhatItTakesAndPushes := by
  intro p e e' h
  obtain ⟨taken, pushed, m⟩ := (engineStep_some h).moves
  exact ⟨taken, pushed, m.inq, m.taken_le, m.outq, m.inCnt, m.outCnt, m.pushed_le, m.fits⟩

/-- Settles O46: an instruction adds only at a DIN write and only to the input FIFO, an engine step only to the output
FIFO. -/
theorem onlyDinWritesAddInputAndOnlyTheEngineAddsOutput :
    Obligations.OnlyDinWritesAddInputAndOnlyTheEngineAddsOutput := by
  intro s t h
  obtain ⟨params, ⟨a, rest, i, port, fetch, eff⟩ | ⟨noHost, st | same⟩⟩ := step_effect h <;> refine ⟨params, ?_⟩
  · obtain ⟨hin | ⟨d, rfl, _, hin⟩, hout⟩ := eff.fifos
    · exact ⟨.inl hin, .inl hout⟩
    · exact ⟨.inr ⟨d, rest, _, by rw [port, fetchInstr_wrDin fetch], hin⟩, .inl hout⟩
  · obtain ⟨taken, pushed, m⟩ := st.moves
    exact ⟨.inl ⟨taken, m.inq.symm⟩, .inr ⟨noHost, pushed, m.outq⟩⟩
  · rw [same]
    exact ⟨.inl List.suffix_rfl, .inl List.suffix_rfl⟩

/-! ### The operands of a run (10 R32; 40 R110, R111) -/

/-- KEY, ROUNDS, LEN, BLK and OP have the same values. -/
structure Engine.SameOperands (e e' : Engine) : Prop where
  key : e'.key = e.key
  rounds : e'.rounds = e.rounds
  len : e'.len = e.len
  blkY : e'.blkY = e.blkY
  blkZ : e'.blkZ = e.blkZ
  lastOp : e'.lastOp = e.lastOp

/-- What a step that begins inside a run can do to the operands, and how the run can end. -/
inductive RunOutcome (e : Engine) : Engine → Prop where
  /-- A soft reset. -/
  | reset {e' : Engine} (eq : e' = Engine.reset) : RunOutcome e e'
  /-- The operands stand, and the run goes on or has finished. -/
  | kept {e' : Engine} (operands : e.SameOperands e') (seq : e'.seq = .idle → e'.done = true) : RunOutcome e e'
  /-- A key or block run finishes OK and commits its result. -/
  | commit {e' : Engine} (idle : e'.seq = .idle) (done : e'.done = true) (ok : e'.ok = true)
      (rounds : e'.rounds = e.rounds) (len : e'.len = e.len) : RunOutcome e e'

theorem Engine.control_runOutcome (d : Word) {e : Engine} (run : e.seq ≠ .idle) : RunOutcome e (Engine.control d e) := by
  obtain h | ⟨e', inq', outq', rfl | ⟨_, rfl⟩, _, _, h⟩ := Engine.control_cases d e <;> rw [h]
  · exact .reset rfl
  · exact .kept ⟨rfl, rfl, rfl, rfl, rfl, rfl⟩ (fun idle => absurd idle run)
  · exact .kept ⟨rfl, rfl, rfl, rfl, rfl, rfl⟩ (fun _ => rfl)

theorem Effect.runOutcome {p : Params} {i : Instr} {e e' : Engine} (eff : Effect p i e e') (run : e.seq ≠ .idle) :
    RunOutcome e e' := by
  have still (idle : e.seq = .idle) : e'.done = true := absurd idle run
  cases eff with
  | same | pop | clear | rejected => exact .kept ⟨rfl, rfl, rfl, rfl, rfl, rfl⟩ still
  | control d => exact Engine.control_runOutcome d run
  | push => exact .kept ⟨by simp, by simp, by simp, by simp, by simp, by simp⟩ (by simpa using still)
  | config idle | command idle => exact absurd idle run

theorem EngineStep.runOutcome {p : Params} {e e' : Engine} (st : EngineStep p e e') : RunOutcome e e' := by
  cases st with
  | commit => exact .commit rfl rfl rfl rfl rfl
  | streamEnd ctx => split <;> exact .kept ⟨rfl, rfl, rfl, rfl, rfl, rfl⟩ (fun _ => rfl)
  | short | codecDone | partialEnc | badFill => exact .kept ⟨rfl, rfl, rfl, rfl, rfl, rfl⟩ (fun _ => rfl)
  | keyFold | take | pushEnc | pushFirst | pushLater =>
    exact .kept ⟨rfl, rfl, rfl, rfl, rfl, rfl⟩ (fun idle => by cases idle)

theorem step_runOutcome {s t : State} (h : step s = .next t) (run : s.engine.seq ≠ .idle) :
    RunOutcome s.engine t.engine := by
  obtain ⟨_, ⟨_, _, _, _, _, eff⟩ | ⟨_, st | same⟩⟩ := step_effect h
  · exact eff.runOutcome run
  · exact st.runOutcome
  · rw [same]
    exact .kept ⟨rfl, rfl, rfl, rfl, rfl, rfl⟩ (fun idle => absurd idle run)

/-- Settles O43: only a reset and a commit change an operand, and both end the run. -/
theorem operandsAreFrozenDuringARun : Obligations.OperandsAreFrozenDuringARun := by
  intro s t h run runAfter
  cases step_runOutcome h run with
  | reset eq => exact absurd (by rw [eq]; rfl) runAfter
  | kept o => exact ⟨o.key, o.rounds, o.len, o.blkY, o.blkZ, o.lastOp⟩
  | commit idle => exact absurd idle runAfter

/-- Settles O44: a run that ends without a reset has DONE, and one that ends with OK = 0 has kept its operands. -/
theorem onlyASuccessfulFinishCommitsAResult : Obligations.OnlyASuccessfulFinishCommitsAResult := by
  intro s t h run idle
  cases step_runOutcome h run with
  | reset eq => exact .inl eq
  | kept o done => exact .inr ⟨done idle, o.rounds, o.len, fun _ => ⟨o.key, o.blkY, o.blkZ⟩⟩
  | commit _ done ok rounds len => exact .inr ⟨done, rounds, len, fun notOk => by simp [ok] at notOk⟩

/-! ### Leaving Idle (10 R39) -/

theorem cmdOp_eq_setWidth (w : Word) : cmdOp w = w.setWidth 8 := by ext i hi; simp [cmdOp]

theorem EngineStep.run {p : Params} {e e' : Engine} (st : EngineStep p e e') : ∃ op ctx, e.seq = .run op ctx := by
  cases st <;> exact ⟨_, _, ‹e.seq = _›⟩

/-- An instruction that makes the engine leave Idle presents a command word and starts a run. -/
theorem Effect.starts_of_leaves_idle {p : Params} {i : Instr} {e e' : Engine} (eff : Effect p i e e')
    (idle : e.seq = .idle) (run : e'.seq ≠ .idle) :
    ∃ w op ctx, commandWord i = some w ∧ e' = (e.accepted (cmdOp w)).start op ctx := by
  cases eff with
  | same | pop | clear | rejected | config => exact absurd idle run
  | control d => exact absurd ((Engine.control_seq d e).elim (·.trans idle) id) run
  | push d => exact absurd ((Engine.pushIn_seq p (dinEntry d) e).trans idle) run
  | command _ w hw _ acc =>
    obtain ⟨key, okv, code, rfl⟩ | ⟨op, ctx, _, rfl⟩ := acc.finish_or_start
    · exact absurd rfl run
    · exact ⟨w, op, ctx, hw, rfl⟩

/-- Settles O45: the start of a run changes nothing that acceptance has written. -/
theorem onlyCommandAcceptanceLeavesIdle : Obligations.OnlyCommandAcceptanceLeavesIdle := by
  intro s t h idle run
  obtain ⟨_, ⟨a, rest, i, port, fetch, eff⟩ | ⟨_, st | same⟩⟩ := step_effect h
  · obtain ⟨w, op, ctx, hw, started⟩ := eff.starts_of_leaves_idle idle run
    refine ⟨a, rest, w, port, fetchInstr_commandWord fetch hw, ?_⟩
    rw [started]
    exact ⟨cmdOp_eq_setWidth w, rfl, rfl, rfl, rfl, rfl⟩
  · obtain ⟨op, ctx, running⟩ := st.run
    simp [idle] at running
  · exact absurd (same ▸ idle) run

/-! ### The invariant of R47

It is the FIFO bounds, a part about DONE, OK and ERR, and a part about the run's context; each is kept by itself. -/

/-- R47's clauses about the context of a run. -/
structure Ctx.Bounds (ctx : Ctx) (op : Op) : Prop where
  acc_codec : op.encrypts || op.decrypts → ctx.acc.length ≤ 8
  acc_raw : op = .keyRaw → ctx.acc.length ≤ 16
  rem_decBuf : op = .decBuf → ∃ n, ctx.rem = some n ∧ (n.toNat + ctx.acc.length) % 8 = 0
  rem_encrypt : op.encrypts → ∃ n, ctx.rem = some n ∧ (ctx.acc.length + n.toNat) % 8 = 0

/-- R47's clauses about DONE, OK and ERR. -/
structure Engine.StatusBounds (e : Engine) : Prop where
  done_idle : e.done = true → e.seq = .idle
  ok_err : e.ok = true → e.err = 0

theorem Engine.inv_iff (p : Params) (e : Engine) :
    e.Inv p ↔ e.inq.length ≤ p.inDepth ∧ e.outq.length ≤ p.outDepth ∧ e.StatusBounds ∧ e.RunsIn Ctx.Bounds := by
  constructor
  · rintro ⟨inq, outq, _, notDone, okErr, codec, raw, decBuf, enc⟩
    refine ⟨inq, outq, ⟨fun done => ?_, okErr⟩, fun op ctx run => ⟨codec op ctx run, ?_, ?_, enc op ctx run⟩⟩
    · rw [← Engine.busy_eq_false_iff, ← Bool.not_eq_true]
      exact fun busy => notDone ⟨done, busy⟩
    · rintro rfl; exact raw ctx run
    · rintro rfl; exact decBuf ctx run
  · rintro ⟨inq, outq, ⟨doneIdle, okErr⟩, bounds⟩
    exact ⟨inq, outq, e.busy_iff_not_idle, fun ⟨done, busy⟩ => e.busy_iff_not_idle.1 busy (doneIdle done), okErr,
      fun op ctx run => (bounds op ctx run).acc_codec, fun ctx run => (bounds _ ctx run).acc_raw rfl,
      fun ctx run => (bounds _ ctx run).rem_decBuf rfl, fun op ctx run => (bounds op ctx run).rem_encrypt⟩

theorem Starts.bounds {ctx : Ctx} {op : Op} (h : Starts ctx op) : ctx.Bounds op := by
  cases h with
  | keyPass n => exact ⟨by simp, by simp, by simp, by simp [Op.encrypts]⟩
  | keyRaw => exact ⟨by simp, by simp, by simp, by simp [Op.encrypts]⟩
  | encBlock => exact ⟨by simp [blockCtx], by simp, by simp, by simp [Op.encrypts]⟩
  | decBlock => exact ⟨by simp [blockCtx], by simp, by simp, by simp [Op.encrypts]⟩
  | encrypt op enc n =>
    refine ⟨fun _ => ?_, ?_, ?_, fun _ => ⟨n, rfl, ?_⟩⟩
    · simpa [encCtx] using fill_le n.toNat
    · rintro rfl; cases enc
    · rintro rfl; cases enc
    · simpa [encCtx] using fill_add_mod n.toNat
  | decBuf n len => exact ⟨by simp [decCtx], by simp, fun _ => ⟨n, rfl, by simpa [decCtx] using len⟩, by simp [Op.encrypts]⟩
  | decStream => exact ⟨by simp [decCtx], by simp, by simp, by simp [Op.encrypts]⟩

/-- One byte fewer to come and one more pending: the sum that R47 speaks of stands. -/
theorem rem_pred_add {n : Quad} (pos : n ≠ 0) (k : Nat) : (n - 1).toNat + (k + 1) = n.toNat + k := by
  have : n.toNat ≠ 0 := fun h => pos (BitVec.eq_of_toNat_eq h)
  have one : (1 : Quad).toNat = 1 := rfl
  rw [BitVec.toNat_sub, one]
  omega

theorem Advances.bounds {op : Op} {ctx ctx' : Ctx} (h : Advances op ctx ctx') (b : ctx.Bounds op) : ctx'.Bounds op := by
  cases h with
  | keyFold n x pass => subst pass; exact ⟨by simp [Op.encrypts, Op.decrypts], by simp, by simp, by simp [Op.encrypts]⟩
  | takeRaw x raw acc =>
    subst raw
    have le := b.acc_raw rfl
    refine ⟨by simp [Op.encrypts, Op.decrypts], fun _ => ?_, by simp, by simp [Op.encrypts]⟩
    simp only [List.length_append, List.length_singleton]; omega
  | take x codec acc pos =>
    have le := b.acc_codec codec
    refine ⟨fun _ => ?_, ?_, fun dec => ?_, fun enc => ?_⟩
    · simp only [List.length_append, List.length_singleton]; omega
    · rintro rfl; cases codec
    · obtain ⟨n, rem, sum⟩ := b.rem_decBuf dec
      have npos : n ≠ 0 := by rintro rfl; exact pos rem
      refine ⟨n - 1, by simp [rem], ?_⟩
      rw [List.length_append, List.length_singleton, rem_pred_add npos, sum]
    · obtain ⟨n, rem, sum⟩ := b.rem_encrypt enc
      have npos : n ≠ 0 := by rintro rfl; exact pos rem
      refine ⟨n - 1, by simp [rem], ?_⟩
      rw [List.length_append, List.length_singleton, Nat.add_comm, rem_pred_add npos, Nat.add_comm, sum]
  | pushed first codec acc later =>
    refine ⟨by simp, by simp, fun dec => ?_, fun enc => ?_⟩
    · obtain ⟨n, rem, sum⟩ := b.rem_decBuf dec
      exact ⟨n, rem, by simpa [acc] using sum⟩
    · obtain ⟨n, rem, sum⟩ := b.rem_encrypt enc
      exact ⟨n, rem, by simpa [acc] using sum⟩

/-! #### DONE, OK and ERR -/

theorem Engine.StatusBounds.finish (e : Engine) (okv : Bool) (code : ErrCode) : (e.finish okv code).StatusBounds :=
  ⟨fun _ => rfl, fun ok => if_pos ok⟩

/-- A running engine has DONE = 0. -/
theorem Engine.StatusBounds.of_run {e e' : Engine} (b : e.StatusBounds) {op : Op} {ctx : Ctx} (run : e.seq = .run op ctx)
    (done : e'.done = e.done) (ok : e'.ok = e.ok) (err : e'.err = e.err) : e'.StatusBounds := by
  refine ⟨fun isDone => ?_, by rw [ok, err]; exact b.ok_err⟩
  have idle := b.done_idle (done ▸ isDone)
  simp [idle] at run

theorem Engine.control_statusBounds (d : Word) {e : Engine} (b : e.StatusBounds) :
    (Engine.control d e).StatusBounds := by
  obtain h | ⟨e', inq', outq', rfl | ⟨_, rfl⟩, _, _, h⟩ := Engine.control_cases d e <;> rw [h]
  · exact ⟨fun _ => rfl, fun _ => rfl⟩
  · exact ⟨b.done_idle, b.ok_err⟩
  · exact ⟨fun _ => rfl, nofun⟩

theorem Accepts.statusBounds {e t : Engine} (acc : Accepts e t) (done : e.done = false) (ok : e.ok = false) :
    t.StatusBounds := by
  obtain ⟨key, okv, code, rfl⟩ | ⟨op, ctx, _, rfl⟩ := acc.finish_or_start
  · exact .finish _ _ _
  · exact ⟨by simp [done], by simp [ok]⟩

theorem Effect.statusBounds {p : Params} {i : Instr} {e e' : Engine} (eff : Effect p i e e') (b : e.StatusBounds) :
    e'.StatusBounds := by
  cases eff with
  | same => exact b
  | pop | rejected | config => exact ⟨b.done_idle, b.ok_err⟩
  | control d => exact Engine.control_statusBounds d b
  | clear d =>
    refine ⟨fun done => ?_, b.ok_err⟩
    obtain ⟨_, wasDone⟩ : d.getLsbD 1 = false ∧ e.done = true := by simpa using done
    exact b.done_idle wasDone
  | push => exact ⟨by simpa using b.done_idle, by simpa using b.ok_err⟩
  | command _ w _ _ acc => exact acc.statusBounds rfl rfl

theorem EngineStep.statusBounds {p : Params} {e e' : Engine} (st : EngineStep p e e') (b : e.StatusBounds) :
    e'.StatusBounds := by
  obtain ⟨op, ctx, run⟩ := st.run
  cases st with
  | keyFold | take | pushEnc | pushFirst | pushLater => exact b.of_run run rfl rfl rfl
  | streamEnd ctx => split <;> exact .finish _ _ _
  | short | commit | codecDone | partialEnc | badFill => exact .finish _ _ _

/-! #### The FIFO bounds and the whole invariant -/

theorem Effect.fifo_bounds {p : Params} {i : Instr} {e e' : Engine} (eff : Effect p i e e')
    (inq : e.inq.length ≤ p.inDepth) (outq : e.outq.length ≤ p.outDepth) :
    e'.inq.length ≤ p.inDepth ∧ e'.outq.length ≤ p.outDepth := by
  obtain ⟨hin, hout⟩ := eff.fifos
  refine ⟨?_, hout.length_le.trans outq⟩
  obtain suffix | ⟨d, _, lt, h⟩ := hin
  · exact suffix.length_le.trans inq
  · rw [h, List.length_append, List.length_singleton]; omega

theorem EngineStep.fifo_bounds {p : Params} {e e' : Engine} (st : EngineStep p e e')
    (inq : e.inq.length ≤ p.inDepth) (outq : e.outq.length ≤ p.outDepth) :
    e'.inq.length ≤ p.inDepth ∧ e'.outq.length ≤ p.outDepth := by
  obtain ⟨taken, pushed, m⟩ := st.moves
  have suffix : e'.inq <:+ e.inq := ⟨taken, m.inq.symm⟩
  exact ⟨suffix.length_le.trans inq, m.fits.trans (max_le outq le_rfl)⟩

theorem step_keeps_inv {s t : State} (inv : s.Inv) (h : step s = .next t) : t.Inv := by
  obtain ⟨inq, outq, status, bounds⟩ := (Engine.inv_iff _ _).1 inv
  have bounds' : t.engine.RunsIn Ctx.Bounds :=
    bounds.of_seqMove (step_seqMove h) (fun _ _ => Starts.bounds) (fun _ _ _ b advances => advances.bounds b)
  obtain ⟨params, change⟩ := step_effect h
  refine (Engine.inv_iff _ _).2 ?_
  rw [params]
  obtain ⟨_, _, _, _, _, eff⟩ | ⟨_, st | same⟩ := change
  · obtain ⟨inq', outq'⟩ := eff.fifo_bounds inq outq
    exact ⟨inq', outq', eff.statusBounds status, bounds'⟩
  · obtain ⟨inq', outq'⟩ := st.fifo_bounds inq outq
    exact ⟨inq', outq', st.statusBounds status, bounds'⟩
  · rw [same]
    exact ⟨inq, outq, status, bounds⟩

theorem reset_inv (p : Params) : Engine.reset.Inv p :=
  (Engine.inv_iff _ _).2 ⟨Nat.zero_le _, Nat.zero_le _, ⟨fun _ => rfl, fun _ => rfl⟩, Engine.runsIn_of_idle rfl⟩

theorem reachable_inv {s : State} (r : Reachable s) : s.Inv := by
  induction r with
  | reset p v port legal => exact reset_inv p
  | step s t _ h ih => exact step_keeps_inv ih h

/-- Settles O39: the FIFO bounds, the status and the run's context are kept one by one; reachability by induction. -/
theorem everyStepKeepsTheInvariantOfR47 : Obligations.EveryStepKeepsTheInvariantOfR47 :=
  ⟨fun _ _ => step_keeps_inv, fun _ => reachable_inv⟩

/-- Settles O40: the engine is idle, so no clause speaks of a run, and the FIFOs are empty. -/
theorem resetStateSatisfiesTheInvariants : Obligations.ResetStateSatisfiesTheInvariants :=
  ⟨reset_inv _, Engine.runsIn_of_idle rfl, ⟨nofun, rfl, nofun, nofun⟩⟩

/-- Settles O14: every field as R46 and R10 give it. -/
theorem resetStateHoldsTheSpecsResetValues : Obligations.ResetStateHoldsTheSpecsResetValues := ⟨rfl, rfl, rfl⟩

/-! ### The registers computed from the state (10 R27, R28, R30, R35) -/

/-- A legal depth, and a level below it, fits its 8-bit field. -/
theorem toNat_ofNat_byte {n : Nat} (le : n ≤ 255) : (BitVec.ofNat 8 n).toNat = n := by
  rw [BitVec.toNat_ofNat]; omega

/-- A flag is bit 0 of its word, and the only bit set. -/
theorem flagBit_getElem (b : Bool) {i : Nat} (hi : i < 32) : (flagBit b)[i] = (decide (i = 0) && b) := by
  cases i <;> simp [flagBit]

theorem cfgWord_fields (p : Params) :
    (cfgWord p).extractLsb' 0 8 = BitVec.ofNat 8 p.inDepth ∧ (cfgWord p).extractLsb' 8 8 = BitVec.ofNat 8 p.outDepth ∧
      (cfgWord p).extractLsb' 16 16 = 0 := by
  unfold cfgWord
  generalize BitVec.ofNat 8 p.inDepth = a
  generalize BitVec.ofNat 8 p.outDepth = b
  refine ⟨?_, ?_, ?_⟩ <;> ext i hi <;> interval_cases i <;> simp

theorem statusWord_flags (e : Engine) :
    (statusWord e).getLsbD 0 = e.busy ∧ (statusWord e).getLsbD 1 = e.done ∧ (statusWord e).getLsbD 2 = e.ok ∧
      (statusWord e).getLsbD 3 = false ∧ (statusWord e).getLsbD 8 = e.rej ∧ (statusWord e).getLsbD 9 = e.ovf := by
  simp [statusWord, flagBit_getElem]

theorem statusWord_fields (e : Engine) :
    (statusWord e).extractLsb' 4 4 = e.err ∧ (statusWord e).extractLsb' 10 6 = 0 ∧
      (statusWord e).extractLsb' 16 8 = e.lastOp ∧ (statusWord e).extractLsb' 24 8 = 0 := by
  refine ⟨?_, ?_, ?_, ?_⟩ <;> ext i hi <;> interval_cases i <;> simp [statusWord, flagBit_getElem]

theorem fifoStatWord_flags (p : Params) (e : Engine) :
    (fifoStatWord p e).getLsbD 16 = inFull p e ∧ (fifoStatWord p e).getLsbD 17 = outEmpty e := by
  simp [fifoStatWord, flagBit_getElem]

theorem fifoStatWord_fields (p : Params) (e : Engine) :
    (fifoStatWord p e).extractLsb' 0 8 = BitVec.ofNat 8 e.inq.length ∧
      (fifoStatWord p e).extractLsb' 8 8 = BitVec.ofNat 8 e.outq.length ∧ (fifoStatWord p e).extractLsb' 18 14 = 0 := by
  unfold fifoStatWord
  generalize BitVec.ofNat 8 e.inq.length = a
  generalize BitVec.ofNat 8 e.outq.length = b
  refine ⟨?_, ?_, ?_⟩ <;> ext i hi <;> interval_cases i <;> simp [flagBit_getElem]

/-- Settles O1: ID is a constant, and the fields of CFG are the depths, which fit under `Params.Legal`. -/
theorem idAndCfgReadFixedValuesAndIgnoreWrites : Obligations.IdAndCfgReadFixedValuesAndIgnoreWrites := by
  refine fun s => ⟨rfl, fun legal => ⟨cfgWord s.params, rfl, ?_⟩, fun _ => rfl, fun _ => rfl⟩
  obtain ⟨inDepth, outDepth, rest⟩ := cfgWord_fields s.params
  exact ⟨by rw [inDepth, toNat_ofNat_byte legal.inDepth_le], by rw [outDepth, toNat_ofNat_byte legal.outDepth_le], rest⟩

/-- Settles O3: the word is `statusWord`, flag by flag and field by field. -/
theorem statusReadShowsEveryFlagInItsBits : Obligations.StatusReadShowsEveryFlagInItsBits := by
  intro s
  obtain ⟨busy, done, ok, bit3, rej, ovf⟩ := statusWord_flags s.engine
  obtain ⟨err, res10, lastOp, res24⟩ := statusWord_fields s.engine
  exact ⟨statusWord s.engine, rfl, by rw [busy]; exact s.engine.busy_iff_not_idle, done, ok, bit3, err, rej, ovf,
    res10, lastOp, res24⟩

/-- Settles O4: R47 bounds the levels by the depths, and the legal depths fit the 8-bit fields. -/
theorem fifoStatShowsTheFifoLevels : Obligations.FifoStatShowsTheFifoLevels := by
  refine ⟨fun s legal inv => ⟨fifoStatWord s.params s.engine, rfl, ?_⟩, rfl, fun _ _ => rfl⟩
  obtain ⟨inLevel, outLevel, rest⟩ := fifoStatWord_fields s.params s.engine
  obtain ⟨full, empty⟩ := fifoStatWord_flags s.params s.engine
  exact ⟨by rw [inLevel, toNat_ofNat_byte (inv.inq_le.trans legal.inDepth_le)],
    by rw [outLevel, toNat_ofNat_byte (inv.outq_le.trans legal.outDepth_le)],
    by rw [full]; exact beq_iff_eq, by rw [empty]; exact beq_iff_eq, rest⟩

/-! ### Reserved offsets (10 R45, 30 R86) -/

/-- An aligned 4-byte transaction inside the window is the row of its offset (30 R86). -/
theorem decode_register {off : BitVec 12} (aligned : off.toNat % 4 = 0) (inside : off.toNat < 0x100) (data : Word) :
    decode (.bus (readDescriptor off) data) = .ok (decodeRead off) ∧
      decode (.bus (writeDescriptor off) data) = .ok (decodeWrite off data) := by
  have notOutside : ¬0x100 ≤ off.toNat := by omega
  constructor <;>
    simp [decode, decodeBus, decodeFourByte, decodeRegister, readDescriptor_eq, writeDescriptor_eq, aligned, notOutside]

/-- A transaction that is issued is the next step. -/
theorem step_issue {s : State} {a : Access} {i : Instr} (h : decode a = .ok i) : step (s.issue a) = exec i s := by
  simp [step, State.issue, fetchInstr_of_decode h]

/-- Every reserved offset reads 0. -/
theorem exec_decodeRead_reserved {off : BitVec 12} (ge : 0x04C ≤ off.toNat) (s : State) :
    exec (decodeRead off) s = .next (s.setV 0) := by
  unfold decodeRead
  split
  case h_20 => rfl
  case h_21 => split <;> [rfl; split <;> rfl]
  all_goals omega

/-- Every reserved offset ignores a write. -/
theorem exec_decodeWrite_reserved {off : BitVec 12} (ge : 0x04C ≤ off.toNat) (data : Word) (s : State) :
    exec (decodeWrite off data) s = .next s := by
  unfold decodeWrite
  split
  case h_20 => rfl
  case h_21 => split <;> [rfl; split <;> rfl]
  all_goals omega

/-- Settles O6: a reserved offset is inside the window, so the port runs one of the eight rows. -/
theorem reservedOffsetsReadZeroAndIgnoreWrites : Obligations.ReservedOffsetsReadZeroAndIgnoreWrites := by
  refine ⟨fun s off d ge le aligned => ?_, fun s off d => ⟨rfl, rfl, rfl, rfl, rfl, rfl, rfl, rfl⟩⟩
  obtain ⟨read, write⟩ := decode_register aligned (by omega) d
  exact ⟨(step_issue read).trans (exec_decodeRead_reserved ge s), (step_issue write).trans (exec_decodeWrite_reserved ge d s)⟩

/-! ### The interrupt line (10 R43) -/

theorem Engine.irq_finish (okv : Bool) (code : ErrCode) (e : Engine) : (e.finish okv code).irq = e.ie := by
  simp [Engine.irq]

/-- After a CTRL write without SRST and ABORT the line is the new IE and the old DONE. -/
theorem Engine.irq_control {d : Word} (srst : ctrlSrst d = false) (abort : ctrlAbort d = false) (e : Engine) :
    (Engine.control d e).irq = (ctrlIe d && e.done) := by
  simp [Engine.control_eq srst, Engine.irq, abort]

/-- Settles O25: each of the four instructions as its effect on IE and DONE. -/
theorem irqIsTheLevelOfIeAndDone : Obligations.IrqIsTheLevelOfIeAndDone := by
  refine fun s => ⟨rfl, fun idle => ⟨_, presentCommand_idle idle _ _, ?_⟩, ⟨_, rfl, ?_⟩, ⟨_, rfl, ?_⟩, ⟨_, rfl, ?_⟩⟩
  · exact Engine.irq_finish true .none (s.engine.accepted 0x00)
  · simp [Engine.irq]
  · exact (Engine.irq_control rfl rfl s.engine).trans (Bool.true_and _)
  · exact (Engine.irq_control rfl rfl s.engine).trans (Bool.false_and _)

end Sys2Proof.Machine

/-! ## The memory family

A malformed transaction decodes to a BUSERR row, and those rows raise BusError; a read of any register but DOUT leaves the
engine alone; the words of a block and of a raw key as their bytes put one after the other. -/

namespace Sys2Proof.Machine

open Sys2Proof

/-! ### Malformed transactions (20 R62, 60 R244) -/

/-- The six malformed rows. -/
def busErrorRows (write bit12 : Bool) (off : BitVec 12) : List Instr :=
  [.buserrSize1byte write bit12 off, .buserrSize2byte write bit12 off, .buserrSize8byte write bit12 off,
    .buserrMisaligned1 write bit12 off, .buserrMisaligned2 write bit12 off, .buserrMisaligned3 write bit12 off]

theorem exec_busErrorRow {write bit12 : Bool} {off : BitVec 12} {i : Instr} (row : i ∈ busErrorRows write bit12 off)
    (s : State) : exec i s = .fault (.busError (s.params.teaBase + off.toNat)) := by
  simp only [busErrorRows, List.mem_cons, List.not_mem_nil, or_false] at row
  obtain rfl | rfl | rfl | rfl | rfl | rfl := row <;> rfl

/-- Settles O15: each row's meaning is `raiseBusError`. -/
theorem malformedRowsAnswerBusError : Obligations.MalformedRowsAnswerBusError :=
  fun s _ _ _ _ row => exec_busErrorRow row s

/-- A misaligned 4-byte transaction is the row of its offset modulo 4. -/
theorem decodeFourByte_misaligned {d : BitVec 16} (misaligned : (descOff d).toNat % 4 ≠ 0) (data : Word) :
    ∃ i ∈ busErrorRows (descWrite d) (descBit12 d) (descOff d), decodeFourByte d data = .ok i := by
  unfold decodeFourByte
  split
  case h_1 aligned => exact absurd aligned misaligned
  all_goals exact ⟨_, by simp [busErrorRows], rfl⟩

/-- A malformed transaction decodes to one of the six rows, with the write bit, bit 12 and offset of its descriptor
(30 R86, first line). -/
theorem decode_malformed_row {d : BitVec 16} (malformed : descSize d ≠ 2#2 ∨ (descOff d).toNat % 4 ≠ 0) (data : Word) :
    ∃ i ∈ busErrorRows (descWrite d) (descBit12 d) (descOff d), decode (.bus d data) = .ok i := by
  simp only [decode, decodeBus]
  split
  case h_3 size =>
    have notSize : ¬descSize d ≠ 2#2 := not_not_intro (BitVec.eq_of_toNat_eq size)
    exact decodeFourByte_misaligned (malformed.resolve_left notSize) data
  all_goals exact ⟨_, by simp [busErrorRows], rfl⟩

/-- OFF is the low 12 bits of the descriptor. -/
theorem descOff_eq_setWidth (d : BitVec 16) : descOff d = d.setWidth 12 :=
  (BitVec.setWidth_eq_extractLsb' (by decide)).symm

/-- Settles O16: the port runs one of the six rows. -/
theorem onlyAlignedFourByteAccessesReachARegister : Obligations.OnlyAlignedFourByteAccessesReachARegister := by
  intro s d data malformed
  rw [← descOff_eq_setWidth] at malformed ⊢
  obtain ⟨i, row, decoded⟩ := decode_malformed_row malformed data
  rw [step_issue decoded, exec_busErrorRow row]

/-! ### The reads (20 R66) -/

theorem readDescriptor_injective : Function.Injective readDescriptor := fun off off' same => by
  simpa only [readDescriptor_eq, descOff_descriptor] using congrArg descOff same

/-- Settles O7: `read_next` for the engine and the parameters; no instruction touches the port. -/
theorem readsOtherThanDoutChangeNoEngineState : Obligations.ReadsOtherThanDoutChangeNoEngineState := by
  intro s t off d notDout h
  have event : takeEvent (.host (.bus (readDescriptor off) d)) s = .next t := h
  obtain ⟨i, _, ran⟩ := takeEvent_host event
  obtain ⟨_, port, _⟩ := exec_effect ran
  obtain ⟨dout, _⟩ | ⟨_, engine, params⟩ := read_next (descWrite_readDescriptor off) event
  · exact absurd (readDescriptor_injective dout) notDout
  · exact ⟨engine, params, port⟩

/-! ### Byte order (20 R60, R61) -/

/-- `be32` puts its bytes one after the other, the first one on top. The width is written `8 + 8 + 8 + 8`, or `getLsbD_append`
does not see an append of bytes in it. -/
theorem be32_eq_append (b0 b1 b2 b3 : Byte) : be32 b0 b1 b2 b3 = b0 ++ b1 ++ b2 ++ b3 := by
  refine BitVec.eq_of_getLsbD_eq (w := 8 + 8 + 8 + 8) fun i hi => ?_
  simp only [BitVec.getLsbD_append]
  interval_cases i <;> simp [be32]

/-- The little-endian word is the big-endian word of the reversed bytes. -/
theorem le32_eq_be32 (b0 b1 b2 b3 : Byte) : le32 b0 b1 b2 b3 = be32 b3 b2 b1 b0 := rfl

/-- A word's byte view gives back the bytes the word was made of. -/
theorem bytesBE32_be32 (b0 b1 b2 b3 : Byte) : bytesBE32 (be32 b0 b1 b2 b3) = [b0, b1, b2, b3] := by
  simp only [bytesBE32, List.cons.injEq, and_true]
  refine ⟨?_, ?_, ?_, ?_⟩ <;> ext i hi <;> interval_cases i <;> simp [be32]

theorem blockBytes_be32 (p0 p1 p2 p3 p4 p5 p6 p7 : Byte) :
    blockBytes (be32 p0 p1 p2 p3) (be32 p4 p5 p6 p7) = [p0, p1, p2, p3, p4, p5, p6, p7] := by
  rw [blockBytes, bytesBE32_be32, bytesBE32_be32]
  rfl

/-- Settles O28: each word is the `be32` or `le32` of its four bytes, and those are the bytes put one after the other. -/
theorem blocksAreBigEndianAndRawKeysLittleEndian : Obligations.BlocksAreBigEndianAndRawKeysLittleEndian := by
  refine ⟨fun p0 p1 p2 p3 p4 p5 p6 p7 => ⟨be32_eq_append .., be32_eq_append .., blockBytes_be32 ..⟩, ?_⟩
  intro r0 r1 r2 r3 r4 r5 r6 r7 r8 r9 r10 r11 r12 r13 r14 r15
  simp only [← be32_eq_append, ← le32_eq_be32]
  rfl

end Sys2Proof.Machine

/-! ## The encoding family

A command word is decoded exactly when it is legal. What the decoder names is well-formed: the range of a reserved row and
the remainder of a misaligned one are what the decoder's branches test. Encoding and decoding again gives the row back,
by `decode_register` inside the register window and by the fields of the descriptor for the malformed rows. -/

namespace Sys2Proof.Machine

open Sys2Proof

/-! ### Command words (30 R82, R83) -/

theorem legal_iff (w : Word) :
    legal w = true ↔ cmdRes w = 0 ∧ cmdOp w ∈ opcodes ∧ (cmdOp w = 0x02 ∨ cmdImm w = 0) := by
  simp [legal, and_assoc]

theorem decodeCommand_keyFoldWord (imm : Byte) : decodeCommand (keyFoldWord imm) = .ok (.keyFold imm) := by
  simp [decodeCommand]

/-- What is decoded is legal, and no row of format CMD has an operand that could be ill-formed. -/
theorem legal_and_wellFormed_of_decodeCommand {w : Word} {i : Instr} (h : decodeCommand w = .ok i) :
    legal w = true ∧ i.wellFormed = true := by
  rw [legal_iff]
  unfold decodeCommand at h
  split at h
  · cases h
  next res =>
    have res : cmdRes w = 0 := not_not.1 res
    split at h
    next fold => cases h; exact ⟨⟨res, by rw [fold]; decide, .inl fold⟩, rfl⟩
    next =>
      split at h
      · cases h
      next imm =>
        have imm : cmdImm w = 0 := not_not.1 imm
        split at h <;> cases h
        all_goals
          rename_i op
          exact ⟨⟨res, by simp [opcodes, ← BitVec.toNat_inj, op], .inr imm⟩, rfl⟩

/-- Every opcode of R82 has its arm. -/
theorem decodeCommand_of_legal {w : Word} (h : legal w = true) : ∃ i, decodeCommand w = .ok i := by
  obtain ⟨res, op, imm⟩ := (legal_iff w).1 h
  by_cases fold : cmdOp w = 0x02
  · exact ⟨.keyFold (cmdImm w), by simp [decodeCommand, res, fold]⟩
  · have imm : cmdImm w = 0 := imm.resolve_left fold
    simp only [opcodes, List.mem_cons, List.not_mem_nil, or_false, fold, false_or] at op
    rcases op with op | op | op | op | op | op | op | op | op | op <;> simp [decodeCommand, res, imm, op]

/-! ### Aligned 4-byte transactions (30 R86, 10 R45) -/

theorem reservedOffset_iff {lo hi : Nat} {off : BitVec 12} :
    reservedOffset lo hi off = true ↔ lo ≤ off.toNat ∧ off.toNat ≤ hi ∧ off.toNat % 4 = 0 := by
  simp [reservedOffset, and_assoc]

/-- Above 0x04C the row of a read is the one whose range holds the offset. -/
theorem decodeRead_reserved {off : BitVec 12} (ge : 0x050 ≤ off.toNat) :
    decodeRead off = if off.toNat < 0x060 then .rdReserved05005c off
      else if off.toNat < 0x080 then .rdReserved06007c off else .rdReserved0800fc off := by
  unfold decodeRead
  split
  case h_21 => rfl
  all_goals omega

/-- Above 0x04C the row of a write is the one whose range holds the offset. -/
theorem decodeWrite_reserved {off : BitVec 12} (ge : 0x050 ≤ off.toNat) (data : Word) :
    decodeWrite off data = if off.toNat < 0x060 then .wrReserved05005c off data
      else if off.toNat < 0x080 then .wrReserved06007c off data else .wrReserved0800fc off data := by
  unfold decodeWrite
  split
  case h_21 => rfl
  all_goals omega

theorem decodeRead_wellFormed {off : BitVec 12} (aligned : off.toNat % 4 = 0) (inside : off.toNat < 0x100) :
    (decodeRead off).wellFormed = true := by
  unfold decodeRead
  split
  case h_21 =>
    split_ifs <;> simp only [Instr.wellFormed, reservedOffset_iff] <;> grind
  all_goals rfl

theorem decodeWrite_wellFormed {off : BitVec 12} (aligned : off.toNat % 4 = 0) (inside : off.toNat < 0x100)
    (data : Word) : (decodeWrite off data).wellFormed = true := by
  unfold decodeWrite
  split
  case h_21 =>
    split_ifs <;> simp only [Instr.wellFormed, reservedOffset_iff] <;> grind
  all_goals rfl

/-! ### Decoding names well-formed rows -/

/-- A misaligned row carries an offset of its own remainder modulo 4. -/
theorem decodeFourByte_misaligned_wellFormed {d : BitVec 16} {data : Word} {i : Instr}
    (misaligned : (descOff d).toNat % 4 ≠ 0) (h : decodeFourByte d data = .ok i) : i.wellFormed = true := by
  unfold decodeFourByte at h
  split at h
  case h_1 aligned => exact absurd aligned misaligned
  all_goals
    cases h
    simp only [Instr.wellFormed, beq_iff_eq]
    grind

theorem decode_malformed_wellFormed {d : BitVec 16} {data : Word} {i : Instr}
    (malformed : descSize d ≠ 2#2 ∨ (descOff d).toNat % 4 ≠ 0) (h : decode (.bus d data) = .ok i) :
    i.wellFormed = true := by
  simp only [decode, decodeBus] at h
  split at h
  case h_3 size =>
    have notSize : ¬descSize d ≠ 2#2 := not_not_intro (BitVec.eq_of_toNat_eq size)
    exact decodeFourByte_misaligned_wellFormed (malformed.resolve_left notSize) h
  all_goals cases h; rfl

theorem decode_wellFormed {a : Access} {i : Instr} (h : decode a = .ok i) : i.wellFormed = true := by
  cases a with
  | command w => exact (legal_and_wellFormed_of_decodeCommand h).2
  | bus d data =>
    obtain malformed | ⟨aligned, inside, ⟨_, rfl⟩ | ⟨_, rfl⟩⟩ := decode_bus_cases h
    · exact decode_malformed_wellFormed malformed h
    · exact decodeRead_wellFormed aligned inside
    · exact decodeWrite_wellFormed aligned inside data

/-- Settles O37: the rows by the descriptor's fields; for command words, `legal` is R83 and the decoder follows it. -/
theorem decodedInstructionsAreWellFormed : Obligations.DecodedInstructionsAreWellFormed := by
  refine ⟨fun _ _ => decode_wellFormed, fun w => ?_⟩
  rw [← cmdOp_eq_setWidth]
  calc (∃ i, decodeCommand w = .ok i)
      ↔ legal w = true := ⟨fun ⟨_, h⟩ => (legal_and_wellFormed_of_decodeCommand h).1, decodeCommand_of_legal⟩
    _ ↔ _ := legal_iff w

/-! ### Encoding and decoding again -/

/-- Settles O36: a row without an operand in its first word has one encoding, which the decoder evaluates; KEY_FOLD by the
fields of its word, the reserved rows by the ranges of their offsets, the malformed rows by the fields of `descriptor`. -/
theorem decodeOfEncodeGivesTheInstruction : Obligations.DecodeOfEncodeGivesTheInstruction := by
  intro i wf
  cases i with
  | keyFold imm => exact decodeCommand_keyFoldWord imm
  | rdReserved05005c off | rdReserved06007c off | rdReserved0800fc off =>
    obtain ⟨lo, hi, aligned⟩ := reservedOffset_iff.1 wf
    rw [encode, (decode_register aligned (by omega) _).1, decodeRead_reserved (by omega)]
    grind
  | wrReserved05005c off data | wrReserved06007c off data | wrReserved0800fc off data =>
    obtain ⟨lo, hi, aligned⟩ := reservedOffset_iff.1 wf
    rw [encode, (decode_register aligned (by omega) _).2, decodeWrite_reserved (by omega)]
    grind
  | buserrSize1byte write bit12 off | buserrSize2byte write bit12 off | buserrSize8byte write bit12 off =>
    simp [encode, decode, decodeBus]
  | buserrMisaligned1 write bit12 off | buserrMisaligned2 write bit12 off | buserrMisaligned3 write bit12 off =>
    simp [encode, decode, decodeBus, decodeFourByte, beq_iff_eq.1 wf]
  | _ => rfl

/-- Settles O38: closed words, evaluated. -/
theorem writtenOutWordsDecodeToTheirInstruction : Obligations.WrittenOutWordsDecodeToTheirInstruction := by
  unfold Obligations.WrittenOutWordsDecodeToTheirInstruction
  decide

/-! ### The step at a host transaction (30 R84, 60 R249) -/

/-- The transaction at the head of the port is taken off, and what the port runs for it is executed. -/
theorem step_host {s : State} {a : Access} {rest : List PortEvent} {i : Instr} (port : s.port = .host a :: rest)
    (fetched : fetchInstr a = .ok i) : step s = exec i { s with port := rest } := by
  simp [step, port, fetched]

/-- Settles O34: `fetchInstr` gives the decoded row, or the CMD write of a command word that has none. -/
theorem stepRunsTheDecodedInstruction : Obligations.StepRunsTheDecodedInstruction := by
  refine ⟨fun s a rest i port decoded => ⟨decode_wellFormed decoded, step_host port (fetchInstr_of_decode decoded)⟩, ?_⟩
  intro s w rest port noRow
  obtain ⟨i, decoded, _⟩ | ⟨_, fetched⟩ := fetchInstr_command w
  · exact absurd decoded (noRow i)
  · exact step_host port fetched

end Sys2Proof.Machine

/-! ## The control and bus family

A command row and a CMD write of its word are one path, and every command is rejected or accepted there. When the engine
waits is said for each of its step rules by itself. That polling does not hold the engine up is an induction over its steps:
each is taken at some turn, because until then nothing changes and the step stays enabled. -/

namespace Sys2Proof.Machine

open Sys2Proof

/-! ### Command acceptance (40 R106, R107, R108) -/

/-- A row of format CMD presents the word it is decoded from. -/
theorem decodeCommand_commandWord {w : Word} {i : Instr} (h : decodeCommand w = .ok i) : commandWord i = some w := by
  have enc := encode_decodeCommand h
  cases i with
  | wrCmd => cases enc
  | _ => simp only [commandWord, enc]

/-- KEY_FOLD is the one row whose word has an operand. -/
theorem acceptWord_keyFoldWord (imm : Byte) : acceptWord (keyFoldWord imm) = acceptKeyFold imm := by
  simp [acceptWord, legal_keyFoldWord, acceptLegal]

/-- An instruction that presents a word to CMD is the CMD write of that word (log 7). -/
theorem exec_of_commandWord {i : Instr} {w : Word} (h : commandWord i = some w) (s : State) :
    exec i s = exec (.wrCmd w) s := by
  cases i with
  | keyFold imm =>
    cases h
    simp only [exec, execWrCmd, execKeyFold, cmdOp_keyFoldWord, acceptWord_keyFoldWord]
  | _ => cases h <;> rfl

theorem exec_wrCmd_idle {s : State} (idle : s.engine.seq = .idle) (w : Word) :
    exec (.wrCmd w) s = .next (s.setEngine (acceptWord w (s.engine.accepted (cmdOp w)))) :=
  presentCommand_idle idle _ _

/-- A busy engine does not look at the word (60 R250 item 3). -/
theorem exec_wrCmd_busy {s : State} (run : s.engine.seq ≠ .idle) (w : Word) :
    exec (.wrCmd w) s = .next (s.setEngine { s.engine with rej := true }) :=
  presentCommand_busy (s.engine.busy_iff_not_idle.2 run) _ _

/-- Acceptance keeps OP and the counters as its first lines have set them. -/
theorem Accepts.lastOp_and_counters {e t : Engine} (acc : Accepts e t) :
    t.lastOp = e.lastOp ∧ t.inCnt = e.inCnt ∧ t.outCnt = e.outCnt := by
  obtain ⟨key, okv, code, rfl⟩ | ⟨op, ctx, _, rfl⟩ := acc.finish_or_start <;> exact ⟨rfl, rfl, rfl⟩

/-- Settles O20: a decoded row presents its word, and acceptance keeps what its first lines have written. -/
theorem commandWriteRunsTheCommandOfItsWord : Obligations.CommandWriteRunsTheCommandOfItsWord := by
  refine ⟨fun s w i decoded => (exec_of_commandWord (decodeCommand_commandWord decoded) s).symm, fun s w => ?_⟩
  by_cases idle : s.engine.seq = .idle
  · obtain ⟨lastOp, inCnt, outCnt⟩ := (acceptWord_accepts w (s.engine.accepted (cmdOp w)) rfl).lastOp_and_counters
    exact ⟨_, exec_wrCmd_idle idle w, fun _ => ⟨lastOp.trans (cmdOp_eq_setWidth w), inCnt, outCnt⟩, absurd idle⟩
  · exact ⟨_, exec_wrCmd_busy idle w, fun isIdle => absurd isIdle idle, fun _ => rfl⟩

/-! ### The waits of the engine (40 R113) -/

theorem keyPassStep_eq_none_iff {ctx : Ctx} (counted : ctx.rem ≠ none) (e : Engine) :
    keyPassStep ctx e = none ↔ ctx.rem ≠ some 0 ∧ e.inq = [] := by
  obtain ⟨n, rem⟩ := Option.ne_none_iff_exists'.1 counted
  simp only [keyPassStep, rem]
  split
  next zero => simp [zero]
  next pos => split <;> simp_all

theorem keyRawStep_eq_none_iff (ctx : Ctx) (e : Engine) :
    keyRawStep ctx e = none ↔ ctx.acc.length ≠ 16 ∧ e.inq = [] := by
  unfold keyRawStep
  split
  next full => simp [full]
  next more => split <;> simp_all

theorem encryptStep_eq_none_iff (p : Params) (op : Op) {ctx : Ctx} (counted : ctx.rem ≠ none) (e : Engine) :
    encryptStep p op ctx e = none ↔
      (ctx.acc.length ≠ 8 ∧ ctx.rem ≠ some 0) ∧ e.inq = [] ∨
        ctx.acc.length = 8 ∧ ¬e.outq.length + 8 ≤ p.outDepth := by
  obtain ⟨n, rem⟩ := Option.ne_none_iff_exists'.1 counted
  simp only [encryptStep, rem]
  split
  next full => simp [full, room_iff]
  next more =>
    split
    next zero => split <;> simp [zero, more]
    next pos => split <;> simp_all

/-- The full block of a decrypt run pushes `k` bytes: all 8, but for the first block of the run, which must pass the fill
check and leaves out the marker and the pad bytes (44 R195). -/
def decryptPushes (ctx : Ctx) (e : Engine) (k : Nat) : Prop :=
  if ctx.first then
    fillMarker (decryptBlock ctx.acc e.key e.rounds) ≤ 8 ∧ k = 8 - fillMarker (decryptBlock ctx.acc e.key e.rounds)
  else k = 8

theorem decryptFirst_eq_none_iff (p : Params) (op : Op) {ctx : Ctx} (first : ctx.first = true) (e : Engine) :
    decryptFirst p op ctx e = none ↔ ∃ k, decryptPushes ctx e k ∧ ¬e.outq.length + k ≤ p.outDepth := by
  simp only [decryptFirst, decryptPushes, first, if_true]
  split
  next bad => simp [bad]
  next good => simp [room_iff, not_lt.1 good]

theorem decryptLater_eq_none_iff (p : Params) (op : Op) {ctx : Ctx} (later : ctx.first = false) (e : Engine) :
    decryptLater p op ctx e = none ↔ ∃ k, decryptPushes ctx e k ∧ ¬e.outq.length + k ≤ p.outDepth := by
  simp [decryptLater, decryptPushes, later, room_iff]

theorem decryptStep_eq_none_iff (p : Params) (op : Op) (ctx : Ctx) (e : Engine) :
    decryptStep p op ctx e = none ↔
      (ctx.acc.length ≠ 8 ∧ ctx.rem ≠ some 0) ∧ e.inq = [] ∨
        ctx.acc.length = 8 ∧ ∃ k, decryptPushes ctx e k ∧ ¬e.outq.length + k ≤ p.outDepth := by
  unfold decryptStep
  split
  next full =>
    simp only [full, ne_eq, not_true, false_and, false_or, true_and]
    split
    next first => exact decryptFirst_eq_none_iff p op first e
    next later => exact decryptLater_eq_none_iff p op (Bool.eq_false_iff.2 later) e
  next more =>
    split
    next zero => simp [zero, more]
    next pos => split <;> simp_all

/-- Settles O32: the wait of each step rule; the shape gives a counted run its `rem`. -/
theorem engineWaitsOnlyForInputOrForRoom : Obligations.EngineWaitsOnlyForInputOrForRoom := by
  intro p e shape
  refine ⟨fun idle => by simp only [engineStep, idle], fun run => ?_⟩
  cases seq : e.seq with
  | idle => exact absurd seq run
  | run op ctx =>
    have shape := shape op ctx seq
    simp only [engineStep, needsInput, mustPush, seq]
    cases op with
    | keyPass => simpa using keyPassStep_eq_none_iff shape.2 e
    | keyRaw => simpa using keyRawStep_eq_none_iff ctx e
    | encBlock => simp [encBlockStep]
    | decBlock => simp [decBlockStep]
    | encBuf => simpa [and_assoc] using encryptStep_eq_none_iff p .encBuf shape.2.1 e
    | encStream => simpa [and_assoc] using encryptStep_eq_none_iff p .encStream shape.2.1 e
    | decBuf => simpa [and_assoc, decryptPushes] using decryptStep_eq_none_iff p .decBuf ctx e
    | decStream => simpa [and_assoc, decryptPushes] using decryptStep_eq_none_iff p .decStream ctx e

/-! ### The turns of the engine (40 R113, R115) -/

theorem engineTurn_eq (s : State) :
    engineTurn s = { s with engine := (engineStep s.params s.engine).getD s.engine } := by
  cases h : engineStep s.params s.engine with
  | some e => rw [engineTurn_some h]; rfl
  | none => rw [engineTurn_none h]; rfl

theorem engineRun_succ_some {p : Params} {k : Nat} {e e' : Engine} (h : engineRun p (k + 1) e = some e') :
    ∃ u, engineStep p e = some u ∧ engineRun p k u = some e' := by
  rw [engineRun] at h
  split at h
  next u stepped => exact ⟨u, stepped, h⟩
  next => cases h

section Polling

variable {states : Nat → State} {events : Nat → PortEvent}

theorem Execution.polls_keep_params (ex : Execution states events) {n : Nat}
    (polls : ∀ m, n ≤ m → isPoll (events m) = true) {m : Nat} (le : n ≤ m) : (states m).params = (states n).params := by
  induction m, le using Nat.le_induction with
  | base => rfl
  | succ m le ih => exact (poll_next (polls m le) (ex.takes m)).1.trans ih

/-- While the host polls, an enabled engine step is taken at some turn: without such a turn the engine would stay as it is,
with the step enabled, which weak fairness excludes. -/
theorem Execution.takes_enabled_step (ex : Execution states events) {n : Nat} {e : Engine}
    (polls : ∀ m, n ≤ m → isPoll (events m) = true)
    (enabled : engineStep (states n).params (states n).engine = some e) : ∃ m, n ≤ m ∧ (states m).engine = e := by
  by_contra never
  have enabledAt {m : Nat} (le : n ≤ m) (same : (states m).engine = (states n).engine) :
      engineStep (states m).params (states m).engine = some e := by
    rw [ex.polls_keep_params polls le, same, enabled]
  have noTurn {m : Nat} (le : n ≤ m) (same : (states m).engine = (states n).engine) : events m ≠ .engine := by
    intro turn
    obtain ⟨_, next⟩ | ⟨other, _⟩ := (poll_next (polls m le) (ex.takes m)).2
    · exact never ⟨m + 1, by omega, by rw [next, engineTurn_some (enabledAt le same)]; rfl⟩
    · exact other turn
  have stays {m : Nat} (le : n ≤ m) : (states m).engine = (states n).engine := by
    induction m, le using Nat.le_induction with
    | base => rfl
    | succ m le ih =>
      obtain ⟨turn, _⟩ | ⟨_, same⟩ := (poll_next (polls m le) (ex.takes m)).2
      · exact absurd turn (noTurn le ih)
      · exact same.trans ih
  obtain ⟨m, le, turn⟩ := ex.fair n fun m le => ⟨e, enabledAt le (stays le)⟩
  exact noTurn le (stays le) turn

/-- While the host polls, the engine comes to every state that its enabled steps lead to. -/
theorem Execution.reaches_engineRun (ex : Execution states events) {n k : Nat} {e : Engine}
    (polls : ∀ m, n ≤ m → isPoll (events m) = true)
    (run : engineRun (states n).params k (states n).engine = some e) : ∃ m, n ≤ m ∧ (states m).engine = e := by
  induction k generalizing n with
  | zero => exact ⟨n, le_rfl, Option.some.inj run⟩
  | succ k ih =>
    obtain ⟨u, enabled, later⟩ := engineRun_succ_some run
    obtain ⟨m, le, rfl⟩ := ex.takes_enabled_step polls enabled
    rw [← ex.polls_keep_params polls le] at later
    obtain ⟨m', le', reached⟩ := ih (fun j hj => polls j (le.trans hj)) later
    exact ⟨m', le.trans le', reached⟩

end Polling

/-- Settles O35: a turn is `engineTurn`, and the engine's steps are taken one after the other, by induction on their
number. -/
theorem engineTurnTakesTheEnabledStep : Obligations.EngineTurnTakesTheEnabledStep := by
  refine ⟨fun s rest => ⟨fun port => ?_, fun port => ?_⟩, fun _ _ ex _ _ _ polls run => ex.reaches_engineRun polls run⟩
  · simp only [step, port, engineTurn_eq]
  · simp only [step, port, engineTurn_eq]

/-! ### The reads (40 R100, R105) -/

theorem lenLo_eq_setWidth (n : Quad) : lenLo n = n.setWidth 32 :=
  (BitVec.setWidth_eq_extractLsb' (by decide)).symm

theorem lenHi_eq_setWidth (n : Quad) : lenHi n = (n >>> 32).setWidth 32 := by
  ext i hi
  simp [lenHi]

theorem ctrlWord_eq (e : Engine) : ctrlWord e = if e.ie then 1#32 else 0#32 := by
  unfold ctrlWord
  cases e.ie <;> rfl

/-- Settles O2: each read answers its register; LEN by its halves, and CTRL by its one flag. -/
theorem plainReadsReturnTheRegister : Obligations.PlainReadsReturnTheRegister := by
  intro s
  refine ⟨rfl, ?lenLo, ?lenHi, rfl, rfl, rfl, rfl, rfl, rfl, rfl, rfl, ?ctrl, rfl, rfl⟩
  case lenLo => rw [← lenLo_eq_setWidth]; rfl
  case lenHi => rw [← lenHi_eq_setWidth]; rfl
  case ctrl => rw [← ctrlWord_eq]; rfl

/-- Settles O5: the two cases of the output FIFO. -/
theorem doutReadPopsOneByteOrReturnsZero : Obligations.DoutReadPopsOneByteOrReturnsZero :=
  ⟨fun _ _ _ => popDout_cons, fun _ => popDout_nil, rfl⟩

/-! ### The writes (40 R101, R103, R104, R112, R117, R118) -/

/-- A write to LEN_LO keeps the upper half. -/
theorem lenOf_lenHi (n : Quad) (lo : Word) : lenOf (lenHi n) lo = (n >>> 32 <<< 32) ||| lo.setWidth 64 := by
  have upper : (lenHi n).setWidth 64 <<< 32 = n >>> 32 <<< 32 := by
    ext i hi
    by_cases low : i < 32
    · simp [low]
    · have inHalf : i - 32 < 32 := by omega
      simp [low, inHalf, lenHi]
  rw [lenOf, upper]

/-- The writes of the config registers. -/
def configWrites (d : Word) : List Instr :=
  [.wrRounds d, .wrLenLo d, .wrLenHi d, .wrKeyA d, .wrKeyB d, .wrKeyC d, .wrKeyD d, .wrBlkY d, .wrBlkZ d]

/-- What an idle engine stores for a config write; nothing for another instruction. -/
def configUpdate : Instr → Engine → Engine
  | .wrRounds d, e => { e with rounds := d }
  | .wrLenLo d, e => { e with len := lenOf (lenHi e.len) d }
  | .wrLenHi d, e => { e with len := lenOf d (lenLo e.len) }
  | .wrKeyA d, e => { e with key := { e.key with a := d } }
  | .wrKeyB d, e => { e with key := { e.key with b := d } }
  | .wrKeyC d, e => { e with key := { e.key with c := d } }
  | .wrKeyD d, e => { e with key := { e.key with d := d } }
  | .wrBlkY d, e => { e with blkY := d }
  | .wrBlkZ d, e => { e with blkZ := d }
  | _, e => e

theorem exec_configWrite {d : Word} {i : Instr} (write : i ∈ configWrites d) (s : State) :
    exec i s = unlessBusy (configUpdate i) s := by
  simp only [configWrites, List.mem_cons, List.not_mem_nil, or_false] at write
  obtain rfl | rfl | rfl | rfl | rfl | rfl | rfl | rfl | rfl := write <;> rfl

/-- Settles O8: an idle engine takes the write and a busy one turns every config write away; LEN is written by halves. -/
theorem configWritesStoreWhenIdleAndRejectWhenBusy : Obligations.ConfigWritesStoreWhenIdleAndRejectWhenBusy := by
  refine fun s d => ⟨fun idle => ?_, fun run i write => ?_, rfl, rfl, rfl, rfl, rfl, rfl, rfl, rfl, rfl⟩
  · have stores : ∀ i ∈ configWrites d, exec i s = .next (s.setEngine (configUpdate i s.engine)) :=
      fun i write => (exec_configWrite write s).trans (unlessBusy_idle idle _)
    simp only [configWrites, List.forall_mem_cons] at stores
    obtain ⟨rounds, lenLo, lenHi, keyA, keyB, keyC, keyD, blkY, blkZ, _⟩ := stores
    rw [← lenOf_lenHi, ← lenLo_eq_setWidth]
    exact ⟨rounds, lenLo, lenHi, keyA, keyB, keyC, keyD, blkY, blkZ⟩
  · exact (exec_configWrite write s).trans (unlessBusy_busy (s.engine.busy_iff_not_idle.2 run) _)

/-- Settles O9: each row's meaning is `ignoreWrite`. -/
theorem readOnlyAndReservedWritesAreIgnored : Obligations.ReadOnlyAndReservedWritesAreIgnored := by
  intro s off d i write
  have ignored : exec i s = ignoreWrite s := by
    simp only [List.mem_cons, List.not_mem_nil, or_false] at write
    obtain rfl | rfl | rfl | rfl | rfl | rfl | rfl | rfl | rfl | rfl := write <;> rfl
  exact ignored

theorem dinEntry_eq (d : Word) : dinEntry d = if d.getLsbD 8 then .endMark else .byte (d.setWidth 8) := by
  rw [dinEntry, BitVec.setWidth_eq_extractLsb' (by decide)]

/-- Settles O10: the write pushes `dinEntry`, for which `pushIn` looks for room. -/
theorem dinWritePushesOneEntryOrSetsOvf : Obligations.DinWritePushesOneEntryOrSetsOvf := by
  refine ⟨fun s d => ?_, fun _ => rfl⟩
  rw [← dinEntry_eq]
  rfl

/-- Settles O11: a flag that is cleared where the bit is 1 is the flag and not the bit. -/
theorem statusWriteClearsOnlyTheNamedFlags : Obligations.StatusWriteClearsOnlyTheNamedFlags := by
  refine ⟨fun s d => ?_, fun _ => rfl⟩
  have cleared (flag bit : Bool) : (flag && !bit) = if bit then false else flag := by cases bit <;> simp
  simp only [cleared]
  rfl

/-- ABORT as an update: it does nothing to an idle engine (40 R117). -/
theorem Engine.abort_eq (e : Engine) :
    e.abort = if e.seq ≠ .idle then { e with seq := .idle, done := true, ok := false, err := 6 } else e := by
  split
  next run => exact Engine.abort_of_busy (e.busy_iff_not_idle.2 run)
  next idle => exact Engine.abort_of_idle (e.busy_eq_false_iff.2 (not_not.1 idle))

/-- Settles O12: the CTRL write as one update, with ABORT's. -/
theorem controlWriteAbortsFlushesAndSetsIe : Obligations.ControlWriteAbortsFlushesAndSetsIe := by
  refine fun s d noReset => ⟨?_, rfl⟩
  have control := Engine.control_eq (d := d) noReset s.engine
  rw [Engine.abort_eq, ← ite_and] at control
  exact congrArg (fun e => Host.Outcome.next (s.setEngine e)) control

/-! ### The commands that finish at once, and those that are turned away (40 R106, R108, R109; 41 R142, R143) -/

/-- Settles O18: each of the twelve presents a word to CMD. -/
theorem commandsWrittenWhileBusyAreRejected : Obligations.CommandsWrittenWhileBusyAreRejected := by
  intro s w imm run i command
  have presents : ∃ x, commandWord i = some x := by
    simp only [List.mem_cons, List.not_mem_nil, or_false] at command
    obtain rfl | rfl | rfl | rfl | rfl | rfl | rfl | rfl | rfl | rfl | rfl | rfl := command <;> exact ⟨_, rfl⟩
  obtain ⟨x, hx⟩ := presents
  exact (exec_of_commandWord hx s).trans (exec_wrCmd_busy run x)

/-- A command that finishes at once leaves the sequencer as it was, in Idle. -/
theorem Engine.accepted_finish {e : Engine} (idle : e.seq = .idle) (op : Byte) (okv : Bool) (code : ErrCode) :
    (e.accepted op).finish okv code = { e with
      done := true, ok := okv, err := if okv then 0 else code.bits, lastOp := op, inCnt := 0, outCnt := 0 } := by
  simp only [Engine.finish, Engine.accepted, idle]

/-- Settles O19: R83 is `legal`, and acceptance looks at it before the op. -/
theorem illegalWordFinishesIllegalCommand : Obligations.IllegalWordFinishesIllegalCommand := by
  intro s w idle notLegal
  rw [← cmdOp_eq_setWidth] at notLegal ⊢
  have illegal : acceptWord w = acceptIllegal := if_neg fun legal => notLegal ((legal_iff w).1 legal)
  rw [exec_wrCmd_idle idle, illegal, acceptIllegal, Engine.accepted_finish idle]
  rfl

/-- A command that finishes OK at once, with some key, leaves everything but the key and the status as it was. -/
theorem presentCommand_done {s : State} (idle : s.engine.seq = .idle) (op : Byte) {body : Engine → Engine} (key : Key)
    (done : body (s.engine.accepted op) = { s.engine.accepted op with key := key }.finish true .none) :
    presentCommand op body s = .next { s with engine := { s.engine with
      key := key, done := true, ok := true, err := 0, lastOp := op, inCnt := 0, outCnt := 0 } } := by
  rw [presentCommand_idle idle, done]
  exact congrArg (fun e => Host.Outcome.next (s.setEngine e))
    (Engine.accepted_finish (e := { s.engine with key := key }) idle op true .none)

/-- Settles O21: each of the three is accepted and finishes OK, NOP with the key it finds. -/
theorem nopKeyClearAndKeyFoldFinishAtOnce : Obligations.NopKeyClearAndKeyFoldFinishAtOnce := fun s imm idle =>
  ⟨presentCommand_done idle 0x00 s.engine.key rfl, presentCommand_done idle 0x01 Key.zero rfl,
    presentCommand_done idle 0x02 (fold s.engine.key imm) rfl, rfl, rfl, decodeCommand_keyFoldWord imm⟩

end Sys2Proof.Machine

/-! ## The key scheduler family

A key run takes one byte per engine step until it has all of them, and its context is a function of the bytes taken so far.
The run's end is then one more step, which commits what that context holds. -/

namespace Sys2Proof.Machine

open Sys2Proof

/-! ### The key of a byte list (41 R141) -/

theorem derive_append_singleton (bytes : List Byte) (x : Byte) : derive (bytes ++ [x]) = fold (derive bytes) x := by
  simp [derive]

/-! ### The starts (41 R144, R145; 42 R165, R166) -/

/-- A command that starts a run commits nothing: the status, OP and the counters are what acceptance has written. -/
theorem presentCommand_start {s : State} (idle : s.engine.seq = .idle) (code : Byte) {body : Engine → Engine} (op : Op)
    (ctx : Ctx) (start : body (s.engine.accepted code) = (s.engine.accepted code).start op ctx) :
    presentCommand code body s = .next { s with engine := { s.engine with
      done := false, ok := false, err := 0, lastOp := code, inCnt := 0, outCnt := 0, seq := .run op ctx } } := by
  rw [presentCommand_idle idle, start]
  rfl

/-- Settles O22: each of the four is accepted and starts its run. -/
theorem keyAndBlockCommandsStartTheirRun : Obligations.KeyAndBlockCommandsStartTheirRun := fun _ idle =>
  ⟨presentCommand_start idle 0x03 .keyPass _ rfl, presentCommand_start idle 0x04 .keyRaw _ rfl,
    presentCommand_start idle 0x10 .encBlock _ rfl, presentCommand_start idle 0x11 .decBlock _ rfl⟩

/-! ### A run that takes bytes -/

/-- In the context `ctx` a run of `op` takes the byte `x` from the head of the input FIFO and goes on in `ctx'`. -/
def TakesByte (p : Params) (op : Op) (ctx : Ctx) (x : Byte) (ctx' : Ctx) : Prop :=
  ∀ (e : Engine) (rest : List InEntry), e.seq = .run op ctx → e.inq = .byte x :: rest →
    engineStep p e = some { e with inq := rest, inCnt := e.inCnt + 1, seq := .run op ctx' }

/-- A run whose context is a function of the bytes taken so far takes one byte per engine step, and nothing else changes. -/
theorem engineRun_takesBytes {p : Params} {op : Op} {ctx : List Byte → Ctx} (bytes : List Byte)
    (takes : ∀ taken x, taken.length < bytes.length → TakesByte p op (ctx taken) x (ctx (taken ++ [x])))
    {e : Engine} {rest : List InEntry} (seq : e.seq = .run op (ctx [])) (inq : e.inq = bytes.map .byte ++ rest) :
    engineRun p bytes.length e = some { e with
      inq := rest, inCnt := e.inCnt + BitVec.ofNat 32 bytes.length, seq := .run op (ctx bytes) } := by
  induction bytes using List.reverseRecOn generalizing rest with
  | nil =>
    cases e
    simp_all [engineRun]
  | append_singleton bytes x ih =>
    rw [List.length_append, List.length_singleton] at takes ⊢
    have before := ih (fun taken y lt => takes taken y (by omega)) (rest := .byte x :: rest) (by simpa using inq)
    rw [engineRun_add bytes.length 1 before, engineRun_one (takes bytes x (by omega) _ rest rfl rfl), BitVec.ofNat_add,
      ← BitVec.add_assoc]
    rfl

/-! ### The KEY_PASS engine step (41 R146) -/

section KeyPassStep

variable {p : Params} {e : Engine} {ctx : Ctx} {n : Quad}

theorem engineStep_keyPass (p : Params) (seq : e.seq = .run .keyPass ctx) : engineStep p e = keyPassStep ctx e := by
  simp only [engineStep, seq]

theorem engineStep_keyPass_done (seq : e.seq = .run .keyPass ctx) (rem : ctx.rem = some 0) :
    engineStep p e = some ({ e with key := ctx.kacc }.finish true .none) := by
  rw [engineStep_keyPass p seq, keyPassStep, rem]
  rfl

theorem keyPass_takesByte (rem : ctx.rem = some n) (pos : n ≠ 0) (x : Byte) :
    TakesByte p .keyPass ctx x { ctx with kacc := fold ctx.kacc x, rem := some (n - 1) } := by
  intro e rest seq inq
  simp only [engineStep_keyPass p seq, keyPassStep, rem, if_neg pos, inq, Engine.popIn_byte inq]
  rfl

theorem engineStep_keyPass_end {rest : List InEntry} (seq : e.seq = .run .keyPass ctx) (rem : ctx.rem = some n)
    (pos : n ≠ 0) (inq : e.inq = .endMark :: rest) :
    engineStep p e = some ({ e with inq := rest }.finish false .shortInput) := by
  simp only [engineStep_keyPass p seq, keyPassStep, rem, if_neg pos, inq, Engine.popIn_end inq]

end KeyPassStep

/-- Settles O26: the four guards, the wait by `keyPassStep_eq_none_iff`. -/
theorem keyPassStepFollowsItsGuards : Obligations.KeyPassStepFollowsItsGuards := by
  intro p e ctx n seq rem
  refine ⟨?done, fun pos x rest inq => keyPass_takesByte rem pos x e rest seq inq,
    fun pos rest inq => engineStep_keyPass_end seq rem pos inq, fun pos empty => ?wait⟩
  case done =>
    rintro rfl
    exact engineStep_keyPass_done seq rem
  case wait =>
    rw [engineStep_keyPass p seq, keyPassStep_eq_none_iff (by simp [rem])]
    exact ⟨by simpa [rem] using pos, empty⟩

/-! ### The KEY_RAW engine step (41 R147) -/

section KeyRawStep

variable {p : Params} {e : Engine} {ctx : Ctx}

theorem engineStep_keyRaw (p : Params) (seq : e.seq = .run .keyRaw ctx) : engineStep p e = keyRawStep ctx e := by
  simp only [engineStep, seq]

theorem engineStep_keyRaw_done (seq : e.seq = .run .keyRaw ctx) (full : ctx.acc.length = 16) :
    engineStep p e = some ({ e with key := fromRaw ctx.acc }.finish true .none) := by
  rw [engineStep_keyRaw p seq, keyRawStep, if_pos full]

theorem keyRaw_takesByte (more : ctx.acc.length ≠ 16) (x : Byte) :
    TakesByte p .keyRaw ctx x { ctx with acc := ctx.acc ++ [x] } := by
  intro e rest seq inq
  simp only [engineStep_keyRaw p seq, keyRawStep, if_neg more, inq, Engine.popIn_byte inq]
  rfl

theorem engineStep_keyRaw_end {rest : List InEntry} (seq : e.seq = .run .keyRaw ctx) (more : ctx.acc.length ≠ 16)
    (inq : e.inq = .endMark :: rest) :
    engineStep p e = some ({ e with inq := rest }.finish false .shortInput) := by
  simp only [engineStep_keyRaw p seq, keyRawStep, if_neg more, inq, Engine.popIn_end inq]

end KeyRawStep

/-- Settles O27: the four guards, the wait by `keyRawStep_eq_none_iff`. -/
theorem keyRawStepFollowsItsGuards : Obligations.KeyRawStepFollowsItsGuards := fun p e ctx seq =>
  ⟨engineStep_keyRaw_done seq, fun more x rest inq => keyRaw_takesByte more x e rest seq inq,
    fun more _ inq => engineStep_keyRaw_end seq more inq,
    fun more empty => (engineStep_keyRaw p seq).trans ((keyRawStep_eq_none_iff ctx e).2 ⟨more, empty⟩)⟩

/-! ### Whole runs (41 R144-R147; 70 R282) -/

/-- A key command takes its bytes, one per engine step, and commits its key with one step more. -/
theorem exec_engineRun_key {s : State} {i : Instr} {code : Byte} {op : Op} {ctx : List Byte → Ctx} {bytes : List Byte}
    {rest : List InEntry} {key : Key} (idle : s.engine.seq = .idle)
    (starts : exec i s = .next { s with engine := { s.engine with
      done := false, ok := false, err := 0, lastOp := code, inCnt := 0, outCnt := 0, seq := .run op (ctx []) } })
    (inq : s.engine.inq = bytes.map .byte ++ rest)
    (takes : ∀ taken x, taken.length < bytes.length → TakesByte s.params op (ctx taken) x (ctx (taken ++ [x])))
    (commits : ∀ e : Engine, e.seq = .run op (ctx bytes) →
      engineStep s.params e = some ({ e with key := key }.finish true .none)) :
    ∃ t, exec i s = .next t ∧ engineRun t.params (bytes.length + 1) t.engine = some { s.engine with
      key := key, inq := rest, inCnt := BitVec.ofNat 32 bytes.length, outCnt := 0
      lastOp := code, done := true, ok := true, err := 0 } := by
  have taken := engineRun_takesBytes (e := (s.engine.accepted code).start op (ctx [])) bytes takes rfl inq
  refine ⟨_, starts, (engineRun_add bytes.length 1 taken).trans ?_⟩
  rw [engineRun_one (commits _ rfl)]
  simp [Engine.finish, idle]

/-- The context of a KEY_PASS run over `len` bytes that has taken the bytes `taken`. -/
def keyPassCtx (len : Quad) (taken : List Byte) : Ctx :=
  { acc := [], rem := some (len - BitVec.ofNat 64 taken.length), first := false, kacc := derive taken }

theorem acceptKeyPass_eq_start (e : Engine) : acceptKeyPass e = e.start .keyPass (keyPassCtx e.len []) := by
  simp [acceptKeyPass, keyPassCtx, derive]

theorem keyPassCtx_takesByte {p : Params} {len : Quad} {taken : List Byte} (more : taken.length < len.toNat) (x : Byte) :
    TakesByte p .keyPass (keyPassCtx len taken) x (keyPassCtx len (taken ++ [x])) := by
  have pos : len - BitVec.ofNat 64 taken.length ≠ 0 := by bv_omega
  have next : len - BitVec.ofNat 64 (taken.length + 1) = len - BitVec.ofNat 64 taken.length - 1 := by bv_omega
  have takes := keyPass_takesByte (p := p) (ctx := keyPassCtx len taken) rfl pos x
  simpa only [keyPassCtx, List.length_append, List.length_singleton, next, derive_append_singleton] using takes

/-- Settles O52: the bytes taken are as many as LEN says, and their fold is committed. -/
theorem keyPassRunDerivesTheKey : Obligations.KeyPassRunDerivesTheKey := by
  intro s bytes rest idle len inq
  have all_taken : (keyPassCtx s.engine.len bytes).rem = some 0 := by simp [keyPassCtx, ← len]
  exact exec_engineRun_key idle (presentCommand_start idle 0x03 .keyPass _ (acceptKeyPass_eq_start _)) inq
    (fun _ x lt => keyPassCtx_takesByte (len ▸ lt) x) (fun _ seq => engineStep_keyPass_done seq all_taken)

/-- The context of a KEY_RAW run that has taken the bytes `taken`. -/
def keyRawCtx (taken : List Byte) : Ctx := { acc := taken, rem := some 16, first := false, kacc := Key.zero }

/-- Settles O54: a byte is taken while fewer than sixteen are pending, and the sixteen are committed. -/
theorem keyRawRunLoadsSixteenBytes : Obligations.KeyRawRunLoadsSixteenBytes := by
  intro s bytes rest idle sixteen inq
  have start := presentCommand_start (body := acceptKeyRaw) idle 0x04 .keyRaw (keyRawCtx []) rfl
  have run := exec_engineRun_key (i := .keyRaw) (ctx := keyRawCtx) idle start inq
    (fun _ x lt => keyRaw_takesByte (sixteen ▸ lt).ne x) (fun _ seq => engineStep_keyRaw_done seq sixteen)
  rwa [sixteen] at run

/-! ### The key by KEY_CLEAR and KEY_FOLD (41 R148) -/

theorem execAll_cons {i : Instr} {s t : State} (is : List Instr) (h : exec i s = .next t) :
    execAll (i :: is) s = execAll is t := by simp only [execAll, h]

/-- KEY_FOLD of each byte folds the bytes into the key there is, and leaves an idle engine with its input. -/
theorem execAll_keyFold (bytes : List Byte) {s : State} (idle : s.engine.seq = .idle) :
    ∃ t, execAll (bytes.map .keyFold) s = .next t ∧ t.engine.key = bytes.foldl fold s.engine.key ∧
      t.engine.seq = .idle ∧ t.engine.inq = s.engine.inq := by
  induction bytes generalizing s with
  | nil => exact ⟨s, rfl, rfl, idle, rfl⟩
  | cons x xs ih =>
    obtain ⟨-, -, keyFold, -⟩ := nopKeyClearAndKeyFoldFinishAtOnce s x idle
    rw [List.map_cons, execAll_cons _ keyFold]
    exact ih idle

/-- Settles O53: KEY_CLEAR leaves the key from which `derive` folds. -/
theorem foldingByteByByteDerivesTheSameKey : Obligations.FoldingByteByByteDerivesTheSameKey := by
  refine ⟨fun s bytes idle => ?_, derive_append_singleton⟩
  obtain ⟨-, keyClear, -⟩ := nopKeyClearAndKeyFoldFinishAtOnce s 0 idle
  rw [execAll_cons _ keyClear]
  exact execAll_keyFold bytes idle

end Sys2Proof.Machine

/-! ## The block cipher family

Every sum of a decipher round is the sum of the encipher round it undoes (42 R168): the first encipher round is undone by the
last decipher round, with the other rounds between them. -/

namespace Sys2Proof.Machine

open Sys2Proof

/-! ### The rounds (42 R161-R163) -/

/-- Settles O48: the equations of `encRounds` and `decRounds`, with `mix` and `delta` written out. -/
theorem cipherRoundsFollowTheSourceLines : Obligations.CipherRoundsFollowTheSourceLines :=
  fun _ _ _ _ _ => ⟨rfl, rfl, rfl, rfl, fun _ => ⟨rfl, rfl⟩⟩

theorem encRounds_succ (k : Key) (n : Nat) (sum y z : Word) :
    encRounds k (n + 1) sum y z =
      encRounds k n (sum + delta) (encRounds k 1 sum y z).1 (encRounds k 1 sum y z).2 := rfl

theorem decRounds_succ (k : Key) (n : Nat) (sum y z : Word) :
    decRounds k (n + 1) sum y z =
      decRounds k n (sum - delta) (decRounds k 1 sum y z).1 (decRounds k 1 sum y z).2 := rfl

theorem delta_mul_succ (n : Nat) : delta * BitVec.ofNat 32 (n + 1) = delta + delta * BitVec.ofNat 32 n := by
  rw [BitVec.ofNat_add, BitVec.mul_succ, BitVec.add_comm]

/-- The last of `n + 1` decipher rounds has the sum that `n` rounds leave. -/
theorem decRounds_succ_last (k : Key) (n : Nat) (sum y z : Word) :
    decRounds k (n + 1) sum y z =
      decRounds k 1 (sum - delta * BitVec.ofNat 32 n) (decRounds k n sum y z).1 (decRounds k n sum y z).2 := by
  induction n generalizing sum y z with
  | zero => simp [decRounds]
  | succ n ih => rw [decRounds_succ k (n + 1), ih, delta_mul_succ, sub_add_eq_sub_sub, ← decRounds_succ]

/-- One round is undone with the sum it has used: `z` first, since its half-round has used the `y` just written. -/
theorem decRounds_encRounds_one (k : Key) (sum y z : Word) :
    decRounds k 1 (sum + delta) (encRounds k 1 sum y z).1 (encRounds k 1 sum y z).2 = (y, z) := by
  simp only [encRounds, decRounds, BitVec.add_sub_cancel]

/-- Decipher rounds from the sum that the encipher rounds have reached undo them. -/
theorem decRounds_encRounds (k : Key) (n : Nat) (sum y z : Word) :
    decRounds k n (sum + delta * BitVec.ofNat 32 n) (encRounds k n sum y z).1 (encRounds k n sum y z).2 = (y, z) := by
  induction n generalizing sum y z with
  | zero => rfl
  | succ n ih =>
    have sums : sum + delta * BitVec.ofNat 32 (n + 1) = sum + delta + delta * BitVec.ofNat 32 n := by
      rw [delta_mul_succ, BitVec.add_assoc]
    rw [decRounds_succ_last, sums, encRounds_succ, ih, BitVec.add_sub_cancel, decRounds_encRounds_one]

/-! ### The transforms (42 R162-R164, R168) -/

theorem decipher_encipher (y z : Word) (k : Key) (r : Word) :
    decipher (encipher y z k r).1 (encipher y z k r).2 k r = (y, z) := by
  simpa [decipher, encipher] using decRounds_encRounds k r.toNat 0 y z

/-- A word is made of the bytes of its byte view. -/
theorem be32_extract (w : Word) :
    be32 (w.extractLsb' 24 8) (w.extractLsb' 16 8) (w.extractLsb' 8 8) (w.extractLsb' 0 8) = w := by
  rw [be32_eq_append]
  have high : w.extractLsb' 24 8 ++ w.extractLsb' 16 8 = w.extractLsb' 16 16 :=
    BitVec.extractLsb'_append_extractLsb'_eq_extractLsb' rfl
  have upper : w.extractLsb' 16 16 ++ w.extractLsb' 8 8 = w.extractLsb' 8 24 :=
    BitVec.extractLsb'_append_extractLsb'_eq_extractLsb' rfl
  have whole : w.extractLsb' 8 24 ++ w.extractLsb' 0 8 = w.extractLsb' 0 32 :=
    BitVec.extractLsb'_append_extractLsb'_eq_extractLsb' rfl
  rw [high, upper, whole, BitVec.extractLsb'_eq_self]

theorem blockY_blockBytes (y z : Word) : blockY (blockBytes y z) = y := be32_extract y
theorem blockZ_blockBytes (y z : Word) : blockZ (blockBytes y z) = z := be32_extract z

theorem blockBytes_blockY_blockZ {b : List Byte} (h : b.length = 8) : blockBytes (blockY b) (blockZ b) = b := by
  obtain ⟨b0, b1, b2, b3, b4, b5, b6, b7, rfl⟩ := eight_bytes h
  exact blockBytes_be32 b0 b1 b2 b3 b4 b5 b6 b7

theorem decryptBlock_encryptBlock {b : List Byte} (h : b.length = 8) (k : Key) (r : Word) :
    decryptBlock (encryptBlock b k r) k r = b := by
  simp only [decryptBlock, encryptBlock, blockY_blockBytes, blockZ_blockBytes, decipher_encipher, blockBytes_blockY_blockZ h]

/-- Settles O47: on words round by round, on bytes through the words of the block. -/
theorem decipherUndoesEncipher : Obligations.DecipherUndoesEncipher :=
  ⟨decipher_encipher, fun _ k r eight => decryptBlock_encryptBlock eight k r, fun _ _ _ => ⟨rfl, rfl⟩⟩

/-! ### The commands (42 R165-R167) -/

theorem engineStep_encBlock (p : Params) {e : Engine} {ctx : Ctx} (seq : e.seq = .run .encBlock ctx) :
    engineStep p e = encBlockStep e := by simp only [engineStep, seq]

theorem engineStep_decBlock (p : Params) {e : Engine} {ctx : Ctx} (seq : e.seq = .run .decBlock ctx) :
    engineStep p e = decBlockStep e := by simp only [engineStep, seq]

/-- Settles O29: each step rule has one branch, which finishes OK. -/
theorem blockStepTransformsBlkAndFinishes : Obligations.BlockStepTransformsBlkAndFinishes :=
  fun p _ _ => ⟨engineStep_encBlock p, engineStep_decBlock p⟩

/-- What a block command and its run leave of an idle engine: the transformed block and the status. -/
def Engine.blockDone (code : Byte) (w : Word × Word) (e : Engine) : Engine :=
  { e with blkY := w.1, blkZ := w.2, done := true, ok := true, err := 0, lastOp := code, inCnt := 0, outCnt := 0 }

/-- A block command that starts its run is done after one engine step, if that step writes the block and finishes OK. -/
theorem exec_engineRun_block {s : State} {i : Instr} {code : Byte} {op : Op} {w : Word × Word}
    (idle : s.engine.seq = .idle)
    (starts : exec i s = .next { s with engine := { s.engine with
      done := false, ok := false, err := 0, lastOp := code, inCnt := 0, outCnt := 0, seq := .run op blockCtx } })
    (ends : engineStep s.params ((s.engine.accepted code).start op blockCtx) =
      some ((((s.engine.accepted code).start op blockCtx).setBlk w).finish true .none)) :
    ∃ t, exec i s = .next t ∧ engineRun t.params 1 t.engine = some (s.engine.blockDone code w) := by
  refine ⟨_, starts, (engineRun_one ends).trans ?_⟩
  simp only [Engine.finish, Engine.setBlk, Engine.start, Engine.accepted, Engine.blockDone, idle, if_true]

theorem exec_engineRun_encBlock {s : State} (idle : s.engine.seq = .idle) :
    ∃ t, exec .encBlock s = .next t ∧ engineRun t.params 1 t.engine = some (s.engine.blockDone 0x10
      (encipher s.engine.blkY s.engine.blkZ s.engine.key s.engine.rounds)) := by
  obtain ⟨-, -, starts, -⟩ := keyAndBlockCommandsStartTheirRun s idle
  exact exec_engineRun_block idle starts (engineStep_encBlock _ rfl)

theorem exec_engineRun_decBlock {s : State} (idle : s.engine.seq = .idle) :
    ∃ t, exec .decBlock s = .next t ∧ engineRun t.params 1 t.engine = some (s.engine.blockDone 0x11
      (decipher s.engine.blkY s.engine.blkZ s.engine.key s.engine.rounds)) := by
  obtain ⟨-, -, -, starts⟩ := keyAndBlockCommandsStartTheirRun s idle
  exact exec_engineRun_block idle starts (engineStep_decBlock _ rfl)

/-- The second command finds the key and the round count of the first, so its block is the one there was. -/
theorem Engine.blockDone_decipher_encipher (e : Engine) (c c' : Byte) :
    (e.blockDone c (encipher e.blkY e.blkZ e.key e.rounds)).blockDone c'
        (decipher (encipher e.blkY e.blkZ e.key e.rounds).1 (encipher e.blkY e.blkZ e.key e.rounds).2 e.key e.rounds) =
      { e with done := true, ok := true, err := 0, lastOp := c', inCnt := 0, outCnt := 0 } := by
  rw [decipher_encipher]
  rfl

/-- Settles O55: ENC_BLOCK's run leaves an idle engine, in which DEC_BLOCK's run deciphers what was enciphered. -/
theorem blockCommandsRoundTrip : Obligations.BlockCommandsRoundTrip := by
  intro s idle
  obtain ⟨t, encBlock, enciphered⟩ := exec_engineRun_encBlock idle
  obtain ⟨u, decBlock, deciphered⟩ := exec_engineRun_decBlock (s := { t with
    engine := s.engine.blockDone 0x10 (encipher s.engine.blkY s.engine.blkZ s.engine.key s.engine.rounds) }) idle
  exact ⟨t, u, _, encBlock, enciphered, decBlock,
    deciphered.trans (congrArg some (s.engine.blockDone_decipher_encipher 0x10 0x11))⟩

end Sys2Proof.Machine

/-! ## The framer family

The two guards of `unpad`, and the law that the content survives any pad bytes, of which `pad` writes zeros
(43 R181, R184, R186). -/

namespace Sys2Proof.Machine

open Sys2Proof

/-! ### The two outcomes of unpadding (43 R184) -/

theorem unpad_bad {q : List Byte} (bad : 8 < fillMarker q) : unpad q = .error .badFill := if_pos bad

theorem unpad_good {q : List Byte} (good : fillMarker q ≤ 8) : unpad q = .ok (q.drop (fillMarker q)) :=
  if_neg good.not_gt

/-! ### Unpadding undoes padding (43 R186) -/

/-- Read back as an unsigned byte, the marker that `header` writes is the fill count, since that is at most 8. -/
theorem fillMarker_fill_cons (n : Nat) (q : List Byte) : fillMarker (BitVec.ofNat 8 (fill n) :: q) = fill n :=
  toNat_ofNat_byte ((fill_le n).trans (by decide))

/-- Any bytes that fill up the header are dropped with the marker. -/
theorem unpad_fill_cons {n : Nat} {padBytes : List Byte} (fills : padBytes.length + 1 = fill n) (p : List Byte) :
    unpad (BitVec.ofNat 8 (fill n) :: (padBytes ++ p)) = .ok p := by
  have marker := fillMarker_fill_cons n (padBytes ++ p)
  rw [unpad_good (marker.trans_le (fill_le n)), marker, ← fills, List.drop_succ_cons, List.drop_left]

theorem unpad_pad (p : List Byte) : unpad (pad p) = .ok p := by
  refine unpad_fill_cons ?_ p
  rw [List.length_replicate, Nat.sub_add_cancel (fill_pos _)]

/-- Settles O49: the marker alone says where the content starts, so the zeros of `pad` are one choice of pad bytes. -/
theorem unpadUndoesPadWhateverThePadBytes : Obligations.UnpadUndoesPadWhateverThePadBytes := by
  refine ⟨unpad_pad, fun p padBytes len => ?_, fun _ _ bad => unpad_bad bad⟩
  have fills : padBytes.length + 1 = fill p.length := by unfold fill; omega
  exact unpad_fill_cons fills p

end Sys2Proof.Machine

/-! ## The buffer codec family

The two codec modes share the encrypt step and the decrypt step, so each guard of the two is said once, for both of its
commands. A run alternates between taking bytes up to a full block and pushing what the block becomes, and this is said once
for both directions; only a decrypt run's first block is by itself. The output functions are taken apart block by block in the
same way, which is what ties a run to them. -/

namespace Sys2Proof.Machine

open Sys2Proof

/-! ### The starts (44 R191, R194; 46 R223, R226) -/

/-- The header with its marker and its zeros written out from LEN (43 R180, R181). -/
theorem header_eq (n : Nat) : header n = BitVec.ofNat 8 (8 - n % 8) :: List.replicate (7 - n % 8) 0 := by
  rw [header, fill, Nat.sub_right_comm]

/-- Settles O23: both commands start with `encCtx`, unless ENC_BUF finds nothing to encrypt. -/
theorem encryptCommandsStartWithThePaddingHeader : Obligations.EncryptCommandsStartWithThePaddingHeader := by
  intro s idle
  rw [← header_eq]
  exact ⟨fun zero => presentCommand_done idle 0x20 s.engine.key (acceptEncBuf_zero zero),
    fun pos => presentCommand_start idle 0x20 .encBuf (encCtx s.engine.len) (acceptEncBuf_start pos),
    presentCommand_start idle 0x22 .encStream (encCtx s.engine.len) rfl⟩

/-- Settles O24: both commands start with `decCtx`, unless DEC_BUF finds a LEN that no ciphertext has. -/
theorem decryptCommandsStartOrFinishBadLen : Obligations.DecryptCommandsStartOrFinishBadLen := by
  refine fun s idle => ⟨fun bad => ?badLen,
    fun pos whole => presentCommand_start idle 0x21 .decBuf (decCtx (some s.engine.len)) (acceptDecBuf_start pos whole),
    presentCommand_start idle 0x23 .decStream (decCtx none) rfl⟩
  case badLen =>
    have fails : acceptDecBuf (s.engine.accepted 0x21) = (s.engine.accepted 0x21).finish false .badLen :=
      acceptDecBuf_badLen bad
    refine (presentCommand_idle idle 0x21 acceptDecBuf).trans ?_
    rw [fails, Engine.accepted_finish idle]
    rfl

/-! ### The encrypt engine step (44 R192) -/

section EncryptStep

variable {p : Params} {e : Engine} {op : Op} {ctx : Ctx} {n : Quad}

theorem engineStep_encrypts (p : Params) (enc : op.encrypts = true) (seq : e.seq = .run op ctx) :
    engineStep p e = encryptStep p op ctx e := by
  cases op <;> cases enc <;> simp only [engineStep, seq]

theorem encryptStep_block (rem : ctx.rem = some n) (full : ctx.acc.length = 8) (fits : e.outq.length + 8 ≤ p.outDepth) :
    encryptStep p op ctx e =
      some ((e.pushOut (encryptBlock ctx.acc e.key e.rounds)).start op { ctx with acc := [] }) := by
  simp only [encryptStep, rem, if_pos full, if_pos ((room_iff p e 8).2 fits)]

theorem encryptStep_done (rem : ctx.rem = some 0) (empty : ctx.acc = []) :
    encryptStep p op ctx e = some (e.finish true .none) := by
  simp [encryptStep, rem, empty]

theorem encryptStep_partial (rem : ctx.rem = some 0) (more : ctx.acc.length ≠ 8) (pending : ctx.acc ≠ []) :
    encryptStep p op ctx e = some (e.finish false .partialBlock) := by
  simp [encryptStep, rem, more, pending]

theorem encryptStep_byte (rem : ctx.rem = some n) (more : ctx.acc.length ≠ 8) (pos : n ≠ 0) {x : Byte}
    {rest : List InEntry} (inq : e.inq = .byte x :: rest) :
    encryptStep p op ctx e = some { e with
      inq := rest, inCnt := e.inCnt + 1, seq := .run op { ctx with acc := ctx.acc ++ [x], rem := some (n - 1) } } := by
  simp only [encryptStep, rem, if_neg more, if_neg pos, inq, Engine.popIn_byte inq]
  rfl

theorem encryptStep_end (rem : ctx.rem = some n) (more : ctx.acc.length ≠ 8) (pos : n ≠ 0) {rest : List InEntry}
    (inq : e.inq = .endMark :: rest) :
    encryptStep p op ctx e = some ({ e with inq := rest }.finish false .shortInput) := by
  simp only [encryptStep, rem, if_neg more, if_neg pos, inq, Engine.popIn_end inq]

end EncryptStep

/-- Settles O30: the guards one by one, the two waits by `encryptStep_eq_none_iff`. -/
theorem encryptStepFollowsItsGuards : Obligations.EncryptStepFollowsItsGuards := by
  intro p e op ctx n isEncrypt seq rem
  have enc : op.encrypts = true := by
    obtain rfl | rfl : op = .encBuf ∨ op = .encStream := by simpa using isEncrypt
    all_goals rfl
  have waits := encryptStep_eq_none_iff p op (ctx := ctx) (by simp [rem]) e
  rw [engineStep_encrypts p enc seq]
  refine ⟨encryptStep_block rem, fun full noRoom => waits.2 (.inr ⟨full, noRoom⟩), ?done, ?partialBlock,
    fun more pos x rest inq => encryptStep_byte rem more pos inq, fun more pos rest inq => encryptStep_end rem more pos inq,
    fun more pos empty => waits.2 (.inl ⟨⟨more, by simpa [rem] using pos⟩, empty⟩)⟩
  case done =>
    rintro - rfl empty
    exact encryptStep_done rem empty
  case partialBlock =>
    rintro more rfl pending
    exact encryptStep_partial rem more pending

/-! ### The decrypt engine step (44 R195) -/

section DecryptStep

variable {p : Params} {e : Engine} {op : Op} {ctx : Ctx}

theorem engineStep_decrypts (p : Params) (dec : op.decrypts = true) (seq : e.seq = .run op ctx) :
    engineStep p e = decryptStep p op ctx e := by
  cases op <;> cases dec <;> simp only [engineStep, seq]

theorem decryptStep_badFill (full : ctx.acc.length = 8) (first : ctx.first = true)
    (bad : 8 < fillMarker (decryptBlock ctx.acc e.key e.rounds)) :
    decryptStep p op ctx e = some (e.finish false .badFill) := by
  rw [decryptStep, if_pos full, if_pos first, decryptFirst, if_pos bad]

theorem decryptStep_firstBlock (full : ctx.acc.length = 8) (first : ctx.first = true)
    (good : fillMarker (decryptBlock ctx.acc e.key e.rounds) ≤ 8)
    (fits : e.outq.length + (8 - fillMarker (decryptBlock ctx.acc e.key e.rounds)) ≤ p.outDepth) :
    decryptStep p op ctx e = some ((e.pushOut ((decryptBlock ctx.acc e.key e.rounds).drop
      (fillMarker (decryptBlock ctx.acc e.key e.rounds)))).start op { ctx with acc := [], first := false }) := by
  rw [decryptStep, if_pos full, if_pos first, decryptFirst, if_neg good.not_gt, if_pos ((room_iff p e _).2 fits)]

theorem decryptStep_laterBlock (full : ctx.acc.length = 8) (later : ctx.first = false)
    (fits : e.outq.length + 8 ≤ p.outDepth) :
    decryptStep p op ctx e =
      some ((e.pushOut (decryptBlock ctx.acc e.key e.rounds)).start op { ctx with acc := [] }) := by
  rw [decryptStep, if_pos full, if_neg (by simp [later]), decryptLater, if_pos ((room_iff p e 8).2 fits)]

theorem decryptStep_done (more : ctx.acc.length ≠ 8) (rem : ctx.rem = some 0) :
    decryptStep p op ctx e = some (e.finish true .none) := by
  rw [decryptStep, if_neg more, if_pos rem]

theorem decryptStep_byte (more : ctx.acc.length ≠ 8) (pos : ctx.rem ≠ some 0) {x : Byte} {rest : List InEntry}
    (inq : e.inq = .byte x :: rest) :
    decryptStep p op ctx e = some { e with
      inq := rest, inCnt := e.inCnt + 1
      seq := .run op { ctx with acc := ctx.acc ++ [x], rem := ctx.rem.map (· - 1) } } := by
  simp only [decryptStep, if_neg more, if_neg pos, inq, Engine.popIn_byte inq]
  rfl

/-- End in a decrypt run: SHORT_INPUT for DEC_BUF; for DEC_STREAM the regular end, or PARTIAL_BLOCK inside a block. -/
theorem decryptStep_end (more : ctx.acc.length ≠ 8) (pos : ctx.rem ≠ some 0) {rest : List InEntry}
    (inq : e.inq = .endMark :: rest) :
    decryptStep p op ctx e = some (
      if op = .decBuf then { e with inq := rest }.finish false .shortInput
      else if ctx.acc = [] then { e with inq := rest }.finish true .none
      else { e with inq := rest }.finish false .partialBlock) := by
  simp only [decryptStep, if_neg more, if_neg pos, inq, decryptEnd, Engine.popIn_end inq, List.isEmpty_iff]

end DecryptStep

/-- Settles O31: the guards one by one, the waits by `decryptStep_eq_none_iff`. -/
theorem decryptStepFollowsItsGuards : Obligations.DecryptStepFollowsItsGuards := by
  intro p e op ctx isDecrypt seq
  have dec : op.decrypts = true := by
    obtain rfl | rfl : op = .decBuf ∨ op = .decStream := by simpa using isDecrypt
    all_goals rfl
  have waits := decryptStep_eq_none_iff p op ctx e
  rw [engineStep_decrypts p dec seq]
  refine ⟨fun full q f isBlock isMarker => ?block, decryptStep_done, fun more pos x rest inq => ?byte,
    fun more pos rest inq => ?endMark, fun more pos empty => waits.2 (.inl ⟨⟨more, pos⟩, empty⟩)⟩
  case block =>
    rw [← fillMarker_eq] at isMarker
    subst isBlock isMarker
    refine ⟨decryptStep_badFill full, fun first good fits => ?_,
      fun first good noRoom => waits.2 (.inr ⟨full, _, ?_, noRoom⟩), decryptStep_laterBlock full,
      fun later noRoom => waits.2 (.inr ⟨full, 8, ?_, noRoom⟩)⟩
    · rw [decryptStep_firstBlock full first good fits, Engine.pushOut, List.length_drop, decryptBlock_length]
      rfl
    · rw [decryptPushes, if_pos first]
      exact ⟨good, rfl⟩
    · rw [decryptPushes, if_neg (by simp [later])]
  case byte =>
    rw [decryptStep_byte more pos inq]
    cases ctx.rem <;> rfl
  case endMark =>
    rw [decryptStep_end more pos inq]
    refine ⟨?_, ?_, ?_⟩
    · rintro rfl
      rfl
    · rintro rfl empty
      rw [if_neg (by decide), if_pos empty]
      rfl
    · rintro rfl pending
      rw [if_neg (by decide), if_neg pending]
      rfl

/-! ### The output functions (44 R190, R198-R200; 46 R224, R225, R227, R228) -/

theorem chunks8_encBlocks (q : List Byte) (k : Key) (r : Word) :
    chunks8 (encBlocks q k r) = (chunks8 q).map (encryptBlock · k r) := by
  induction q using blocks_induction with
  | short q short => rw [encBlocks_short short, chunks8_short short]; rfl
  | block b rest eight ih =>
    rw [encBlocks_block eight, chunks8_block (encryptBlock_length b k r), ih, chunks8_block eight, List.map_cons]

theorem decBlocks_encBlocks {q : List Byte} (whole : q.length % 8 = 0) (k : Key) (r : Word) :
    decBlocks (encBlocks q k r) k r = q := by
  induction q using blocks_induction with
  | short q short =>
    have nil : q = [] := List.eq_nil_of_length_eq_zero (by omega)
    rw [nil]; rfl
  | block b rest eight ih =>
    have restWhole : rest.length % 8 = 0 := by rw [List.length_append] at whole; omega
    rw [encBlocks_block eight, decBlocks_block (encryptBlock_length b k r), ih restWhole, decryptBlock_encryptBlock eight]

theorem pad_length_mod (p : List Byte) : (pad p).length % 8 = 0 := by rw [pad_length, fill_add_mod]

/-- The length law (44 R198). -/
theorem encStream_length (p : List Byte) (k : Key) (r : Word) :
    (encStream p k r).length = p.length + (8 - p.length % 8) := by
  have whole := pad_length_mod p
  have padded : (pad p).length = p.length + (8 - p.length % 8) := by rw [pad_length, Nat.add_comm, fill]
  rw [encStream, encBlocks_length, ← padded]
  omega

/-- Of something to encrypt, the two modes make the same ciphertext (46 R228). -/
theorem encBuf_eq_encStream {p : List Byte} (nonempty : p ≠ []) (k : Key) (r : Word) : encBuf p k r = encStream p k r := by
  rw [encBuf, if_neg (by simpa using nonempty), encStream]

theorem unpad_eq_ok_iff (q x : List Byte) : unpad q = .ok x ↔ fillMarker q ≤ 8 ∧ x = q.drop (fillMarker q) := by
  by_cases good : fillMarker q ≤ 8
  · simp [unpad_good good, good, eq_comm]
  · simp [unpad_bad (not_le.1 good), good]

theorem decBuf_of_whole {c : List Byte} (nonempty : c ≠ []) (whole : c.length % 8 = 0) (k : Key) (r : Word) :
    decBuf c k r = unpad (decBlocks c k r) := by
  simp [decBuf, nonempty, whole]

theorem decBuf_badLen {c : List Byte} (bad : ¬(c ≠ [] ∧ c.length % 8 = 0)) (k : Key) (r : Word) :
    decBuf c k r = .error .badLen := by
  rw [decBuf, if_pos]
  rwa [ne_eq, not_and_or, not_not, ← List.length_eq_zero_iff] at bad

/-- DEC_BUF's function has a plaintext, or fails for another reason than the length, of whole blocks only. -/
theorem whole_of_decBuf {c : List Byte} {k : Key} {r : Word} (h : decBuf c k r ≠ .error .badLen) :
    c ≠ [] ∧ c.length % 8 = 0 := by
  by_contra bad
  exact h (decBuf_badLen bad k r)

theorem decBuf_encStream (p : List Byte) (k : Key) (r : Word) : decBuf (encStream p k r) k r = .ok p := by
  have length := encStream_length p k r
  have nonempty : encStream p k r ≠ [] := List.ne_nil_of_length_pos (by omega)
  rw [decBuf_of_whole nonempty (by omega), encStream, decBlocks_encBlocks (pad_length_mod p), unpad_pad]

/-- The stream function gives every plaintext that DEC_BUF's function gives (46 R228). -/
theorem decStream_of_decBuf_ok {c x : List Byte} {k : Key} {r : Word} (h : decBuf c k r = .ok x) :
    decStream c k r = (.none, x) := by
  obtain ⟨nonempty, whole⟩ := whole_of_decBuf (c := c) (k := k) (r := r) (by simp [h])
  rw [decBuf_of_whole nonempty whole, unpad_eq_ok_iff] at h
  obtain ⟨good, rfl⟩ := h
  have full : 8 ≤ c.length := by
    have := List.length_pos_of_ne_nil nonempty
    omega
  simp [decStream, nonempty, whole, full, good.not_gt]

/-- Settles O50: the padded plaintext comes back block by block and is unpadded; the modes share their ciphertexts. -/
theorem codecFunctionsRoundTripAndInterchange : Obligations.CodecFunctionsRoundTripAndInterchange := by
  intro p k r
  have buf := decBuf_encStream p k r
  refine ⟨fun nonempty => ?_, decStream_of_decBuf_ok buf, buf, fun nonempty => ?_, rfl, rfl, rfl, rfl, rfl⟩
  · rwa [encBuf_eq_encStream nonempty]
  · rw [encBuf_eq_encStream nonempty]
    exact decStream_of_decBuf_ok buf

/-- Settles O51: the law of whole blocks, for the padded plaintext of either mode. -/
theorem encryptionKeepsLengthLawAndBlockOrder : Obligations.EncryptionKeepsLengthLawAndBlockOrder := by
  refine ⟨fun p k r nonempty => ?_, fun _ _ => rfl, fun p k r nonempty => ?_, fun p => chunks8_encBlocks (pad p), chunks8_encBlocks⟩
  · rw [encBuf_eq_encStream nonempty, encStream_length]
  · rw [encBuf_eq_encStream nonempty]
    exact chunks8_encBlocks (pad p) k r

/-! ### The blocks of a codec run -/

/-- The blocks of `q` as a run of the codec op `op` transforms them. -/
def Op.blocks (op : Op) (q : List Byte) (k : Key) (r : Word) : List Byte :=
  if op.encrypts then encBlocks q k r else decBlocks q k r

theorem Op.blocks_of_encrypts {op : Op} (enc : op.encrypts = true) : op.blocks = encBlocks := by
  funext q k r
  exact if_pos enc

theorem Op.blocks_of_decrypts {op : Op} (dec : op.decrypts = true) : op.blocks = decBlocks := by
  funext q k r
  have notEnc : ¬op.encrypts = true := by cases op <;> simp_all [Op.encrypts, Op.decrypts]
  exact if_neg notEnc

@[simp] theorem Op.blocks_nil (op : Op) (k : Key) (r : Word) : op.blocks [] k r = [] := ite_self []

theorem encBlocks_one {b : List Byte} (eight : b.length = 8) (k : Key) (r : Word) :
    encBlocks b k r = encryptBlock b k r := by
  simpa [encBlocks_short] using encBlocks_block eight [] k r

theorem decBlocks_one {b : List Byte} (eight : b.length = 8) (k : Key) (r : Word) :
    decBlocks b k r = decryptBlock b k r := by
  simpa [decBlocks_short] using decBlocks_block eight [] k r

theorem Op.blocks_one (op : Op) {b : List Byte} (eight : b.length = 8) (k : Key) (r : Word) :
    op.blocks b k r = if op.encrypts then encryptBlock b k r else decryptBlock b k r := by
  rw [Op.blocks, encBlocks_one eight, decBlocks_one eight]

theorem Op.blocks_append (op : Op) {b : List Byte} (eight : b.length = 8) (q : List Byte) (k : Key) (r : Word) :
    op.blocks (b ++ q) k r = op.blocks b k r ++ op.blocks q k r := by
  unfold Op.blocks
  split
  · rw [encBlocks_block eight, encBlocks_one eight]
  · rw [decBlocks_block eight, decBlocks_one eight]

theorem Op.blocks_length (op : Op) (q : List Byte) (k : Key) (r : Word) :
    (op.blocks q k r).length = q.length / 8 * 8 := by
  unfold Op.blocks
  split
  · exact encBlocks_length q k r
  · exact decBlocks_length q k r

/-! ### What a codec run has done so far -/

/-- The context of a codec run that has taken the bytes `taken` into its pending bytes. -/
def Ctx.took (ctx : Ctx) (taken : List Byte) : Ctx :=
  { ctx with acc := ctx.acc ++ taken, rem := ctx.rem.map (· - BitVec.ofNat 64 taken.length) }

@[simp] theorem Ctx.took_acc (ctx : Ctx) (taken : List Byte) : (ctx.took taken).acc = ctx.acc ++ taken := rfl
@[simp] theorem Ctx.took_rem (ctx : Ctx) (taken : List Byte) :
    (ctx.took taken).rem = ctx.rem.map (· - BitVec.ofNat 64 taken.length) := rfl
@[simp] theorem Ctx.took_first (ctx : Ctx) (taken : List Byte) : (ctx.took taken).first = ctx.first := rfl
@[simp] theorem Ctx.took_kacc (ctx : Ctx) (taken : List Byte) : (ctx.took taken).kacc = ctx.kacc := rfl

@[simp] theorem Ctx.took_nil (ctx : Ctx) : ctx.took [] = ctx := by
  cases ctx with
  | mk acc rem first kacc => cases rem <;> simp [Ctx.took]

/-- What is still to come is counted alike, whatever became of the pending bytes in between. -/
theorem rem_took_took (rem : Option Quad) (a b : List Byte) :
    (rem.map (· - BitVec.ofNat 64 a.length)).map (· - BitVec.ofNat 64 b.length) =
      rem.map (· - BitVec.ofNat 64 (a ++ b).length) := by
  cases rem with
  | none => rfl
  | some n => simp only [Option.map_some, List.length_append, BitVec.ofNat_add, sub_add_eq_sub_sub]

theorem Ctx.took_took (ctx : Ctx) (a b : List Byte) : (ctx.took a).took b = ctx.took (a ++ b) := by
  simp only [Ctx.took, rem_took_took, List.append_assoc]

/-- The context of a codec run that has pushed the block of its pending bytes. -/
def Ctx.emptied (ctx : Ctx) : Ctx := { ctx with acc := [] }

@[simp] theorem Ctx.emptied_acc (ctx : Ctx) : ctx.emptied.acc = [] := rfl
@[simp] theorem Ctx.emptied_rem (ctx : Ctx) : ctx.emptied.rem = ctx.rem := rfl
@[simp] theorem Ctx.emptied_first (ctx : Ctx) : ctx.emptied.first = ctx.first := rfl
@[simp] theorem Ctx.emptied_kacc (ctx : Ctx) : ctx.emptied.kacc = ctx.kacc := rfl

theorem Ctx.emptied_took_took (ctx : Ctx) (a b : List Byte) :
    ((ctx.took a).emptied.took b).emptied = (ctx.took (a ++ b)).emptied := by
  simp only [Ctx.emptied, Ctx.took, rem_took_took]

theorem Ctx.emptied_of_nil {ctx : Ctx} (acc : ctx.acc = []) : ctx.emptied = ctx := by rw [Ctx.emptied, ← acc]

/-- In the context `ctx` a run of `op` is to take at least `k` more bytes, or does not count them and takes any number. -/
structure Ctx.Wants (ctx : Ctx) (op : Op) (k : Nat) : Prop where
  counted : op.encrypts = true → ctx.rem ≠ none
  enough : ∀ n, ctx.rem = some n → k ≤ n.toNat

theorem Ctx.Wants.of_rem {ctx : Ctx} {op : Op} {k : Nat} {n : Quad} (rem : ctx.rem = some n) (le : k ≤ n.toNat) :
    ctx.Wants op k :=
  ⟨fun _ => by simp [rem], fun m hm => by rw [rem, Option.some_inj] at hm; exact hm ▸ le⟩

/-- The wants of a context are those of its `rem`. -/
theorem Ctx.Wants.congr {ctx ctx' : Ctx} {op : Op} {k : Nat} (w : ctx.Wants op k) (rem : ctx'.rem = ctx.rem) :
    ctx'.Wants op k := ⟨rem ▸ w.counted, rem ▸ w.enough⟩

theorem Ctx.Wants.mono {ctx : Ctx} {op : Op} {j k : Nat} (w : ctx.Wants op k) (le : j ≤ k) : ctx.Wants op j :=
  ⟨w.counted, fun n rem => le.trans (w.enough n rem)⟩

theorem Ctx.Wants.took {ctx : Ctx} {op : Op} {taken : List Byte} {k : Nat} (w : ctx.Wants op (taken.length + k)) :
    (ctx.took taken).Wants op k := by
  refine ⟨fun enc => by simpa using w.counted enc, fun n rem => ?_⟩
  obtain ⟨m, was, rfl⟩ := Option.map_eq_some_iff.1 rem
  have enough := w.enough m was
  have := m.isLt
  rw [BitVec.toNat_sub_of_le] <;> simp [BitVec.le_def] <;> omega

theorem Ctx.Wants.pos {ctx : Ctx} {op : Op} {k : Nat} (w : ctx.Wants op (k + 1)) : ctx.rem ≠ some 0 := fun zero => by
  simpa using w.enough 0 zero

/-- The engine in a run of `op` at `ctx`, after it has taken `n` bytes, which leaves `inq`, and pushed `out`. -/
def Engine.moved (e : Engine) (op : Op) (ctx : Ctx) (n : Nat) (inq : List InEntry) (out : List Byte) : Engine :=
  { e with
    inq := inq, outq := e.outq ++ out
    inCnt := e.inCnt + BitVec.ofNat 32 n, outCnt := e.outCnt + BitVec.ofNat 32 out.length
    seq := .run op ctx }

section Moved

variable (e : Engine) (op : Op) (ctx ctx' : Ctx) (n m : Nat) (inq inq' : List InEntry) (out out' : List Byte)

@[simp] theorem Engine.moved_inq : (e.moved op ctx n inq out).inq = inq := rfl
@[simp] theorem Engine.moved_outq : (e.moved op ctx n inq out).outq = e.outq ++ out := rfl
@[simp] theorem Engine.moved_seq : (e.moved op ctx n inq out).seq = .run op ctx := rfl
@[simp] theorem Engine.moved_key : (e.moved op ctx n inq out).key = e.key := rfl
@[simp] theorem Engine.moved_rounds : (e.moved op ctx n inq out).rounds = e.rounds := rfl

theorem Engine.moved_moved :
    (e.moved op ctx n inq out).moved op ctx' m inq' out' = e.moved op ctx' (n + m) inq' (out ++ out') := by
  simp only [Engine.moved, List.append_assoc, List.length_append, BitVec.ofNat_add, BitVec.add_assoc]

theorem Engine.moved_push :
    ((e.moved op ctx n inq []).pushOut out).start op ctx' = e.moved op ctx' n inq out := by
  simp [Engine.moved, Engine.pushOut, Engine.start]

end Moved

theorem Engine.moved_nothing {e : Engine} {op : Op} {ctx : Ctx} (seq : e.seq = .run op ctx) :
    e.moved op ctx 0 e.inq [] = e := by
  simp [Engine.moved, ← seq]

/-! ### Runs of whole blocks (44 R192, R195) -/

section BlockRuns

variable {p : Params} {e : Engine} {op : Op} {ctx : Ctx} {rest : List InEntry}

theorem codec_takesByte (codec : (op.encrypts || op.decrypts) = true) (more : ctx.acc.length ≠ 8)
    (w : ctx.Wants op 1) (x : Byte) : TakesByte p op ctx x (ctx.took [x]) := by
  intro e rest seq inq
  obtain enc | dec := (Bool.or_eq_true _ _).mp codec
  · obtain ⟨n, rem⟩ := Option.ne_none_iff_exists'.1 (w.counted enc)
    have pos : n ≠ 0 := fun zero => w.pos (zero ▸ rem)
    rw [engineStep_encrypts p enc seq, encryptStep_byte rem more pos inq, Ctx.took, rem]
    rfl
  · exact (engineStep_decrypts p dec seq).trans (decryptStep_byte more w.pos inq)

/-- A codec run takes bytes up to a full block, one per engine step. -/
theorem engineRun_takesBlock (codec : (op.encrypts || op.decrypts) = true) (bytes : List Byte)
    (fill : ctx.acc.length + bytes.length ≤ 8) (w : ctx.Wants op bytes.length) (seq : e.seq = .run op ctx)
    (inq : e.inq = bytes.map .byte ++ rest) :
    engineRun p bytes.length e = some (e.moved op (ctx.took bytes) bytes.length rest []) := by
  have takes (taken : List Byte) (x : Byte) (lt : taken.length < bytes.length) :
      TakesByte p op (ctx.took taken) x (ctx.took (taken ++ [x])) := by
    rw [← Ctx.took_took]
    refine codec_takesByte codec ?_ (w.mono lt).took x
    rw [Ctx.took_acc, List.length_append]; omega
  rw [engineRun_takesBytes bytes takes (seq.trans (by rw [Ctx.took_nil])) inq]
  simp [Engine.moved]

/-- A full block is pushed, and the run goes on without pending bytes; the first block of a decrypt run apart. -/
theorem engineStep_pushesBlock (codec : (op.encrypts || op.decrypts) = true) (later : ctx.first = false)
    (w : ctx.Wants op 0) (seq : e.seq = .run op ctx) (full : ctx.acc.length = 8) (fits : e.outq.length + 8 ≤ p.outDepth) :
    engineStep p e = some ((e.pushOut (op.blocks ctx.acc e.key e.rounds)).start op ctx.emptied) := by
  rw [Op.blocks_one op full]
  cases enc : op.encrypts with
  | true =>
    obtain ⟨n, rem⟩ := Option.ne_none_iff_exists'.1 (w.counted enc)
    exact (engineStep_encrypts p enc seq).trans (encryptStep_block rem full fits)
  | false =>
    have dec : op.decrypts = true := by simpa [enc] using codec
    exact (engineStep_decrypts p dec seq).trans (decryptStep_laterBlock full later fits)

/-- A run whose pending bytes `bytes` fill up to a block takes them and pushes the block. -/
theorem engineRun_block (codec : (op.encrypts || op.decrypts) = true) (later : ctx.first = false) (bytes : List Byte)
    (full : ctx.acc.length + bytes.length = 8) (w : ctx.Wants op bytes.length) (seq : e.seq = .run op ctx)
    (inq : e.inq = bytes.map .byte ++ rest) (fits : e.outq.length + 8 ≤ p.outDepth) :
    engineRun p (bytes.length + 1) e = some (e.moved op (ctx.took bytes).emptied bytes.length rest
      (op.blocks (ctx.acc ++ bytes) e.key e.rounds)) := by
  have taken := engineRun_takesBlock (p := p) codec bytes full.le w seq inq
  have pushed := engineStep_pushesBlock (p := p) (e := e.moved op (ctx.took bytes) bytes.length rest [])
    (ctx := ctx.took bytes) codec later (w.mono (Nat.le_add_right _ 0)).took rfl (by simpa using full) (by simpa using fits)
  rw [Engine.moved_push] at pushed
  rw [engineRun_add _ 1 taken, engineRun_one pushed]
  rfl

/-- When the pending bytes and `q` make `m` whole blocks, the run takes `q` and pushes the `m` blocks, one by one. -/
theorem engineRun_blocks (codec : (op.encrypts || op.decrypts) = true) (later : ctx.first = false) {q : List Byte} {m : Nat}
    (whole : ctx.acc.length + q.length = 8 * m) (acc : ctx.acc.length ≤ 8) (w : ctx.Wants op q.length)
    (seq : e.seq = .run op ctx) (inq : e.inq = q.map .byte ++ rest) (fits : e.outq.length + 8 * m ≤ p.outDepth) :
    engineRun p (q.length + m) e = some (e.moved op (ctx.took q).emptied q.length rest
      (op.blocks (ctx.acc ++ q) e.key e.rounds)) := by
  induction m generalizing e ctx q with
  | zero =>
    have noAcc : ctx.acc = [] := List.eq_nil_of_length_eq_zero (by omega)
    obtain rfl : q = [] := List.eq_nil_of_length_eq_zero (by omega)
    have nothing := Engine.moved_nothing seq
    rw [show e.inq = rest from inq] at nothing
    simp [engineRun, noAcc, Ctx.emptied_of_nil noAcc, nothing]
  | succ m ih =>
    obtain ⟨a, q', rfl, full⟩ : ∃ a q', q = a ++ q' ∧ ctx.acc.length + a.length = 8 :=
      ⟨q.take (8 - ctx.acc.length), q.drop (8 - ctx.acc.length), (List.take_append_drop _ q).symm, by
        rw [List.length_take]; omega⟩
    have eight : (ctx.acc ++ a).length = 8 := by rw [List.length_append, full]
    rw [List.length_append] at whole w
    rw [List.map_append, List.append_assoc] at inq
    have block := engineRun_block (p := p) codec later a full (w.mono (Nat.le_add_right _ _)) seq inq (by omega)
    have others := ih (ctx := (ctx.took a).emptied) (e := e.moved op (ctx.took a).emptied a.length (q'.map .byte ++ rest)
      (op.blocks (ctx.acc ++ a) e.key e.rounds)) later (by rw [Ctx.emptied_acc, List.length_nil]; omega) (Nat.zero_le _)
      (w.took.congr rfl) rfl rfl (by rw [Engine.moved_outq, List.length_append, Op.blocks_length, eight]; omega)
    rw [Engine.moved_moved, Ctx.emptied_took_took] at others
    have steps : (a ++ q').length + (m + 1) = a.length + 1 + (q'.length + m) := by rw [List.length_append]; omega
    rw [steps, engineRun_add _ _ block, others, List.length_append, ← List.append_assoc, Op.blocks_append op eight]
    rfl

end BlockRuns

/-! ### Whole runs (44 R191, R194, R197, R198; 46 R223, R224; 70 R282) -/

/-- A codec run has taken all its bytes when they are as many as its `rem` has counted. -/
theorem Ctx.took_rem_all {ctx : Ctx} {n : Quad} {q : List Byte} (rem : ctx.rem = some n) (len : n.toNat = q.length) :
    (ctx.took q).rem = some 0 := by
  rw [Ctx.took_rem, rem, ← len, Option.map_some, BitVec.ofNat_toNat, BitVec.setWidth_eq, BitVec.sub_self]
  rfl

/-- A codec command, its run up to the last step, and the step that finishes it leave an idle engine with these values. -/
theorem exec_engineRun_codec {s : State} {i : Instr} {code : Byte} {op : Op} {ctx ctx' : Ctx} {k n : Nat}
    {rest : List InEntry} {out : List Byte} {okv : Bool} {err : ErrCode} (idle : s.engine.seq = .idle)
    (starts : exec i s = .next (s.setEngine ((s.engine.accepted code).start op ctx)))
    (run : engineRun s.params k ((s.engine.accepted code).start op ctx) =
      some (((s.engine.accepted code).start op ctx).moved op ctx' n rest out))
    (ends : ∀ e : Engine, e.seq = .run op ctx' → e.key = s.engine.key → e.rounds = s.engine.rounds →
      engineStep s.params e = some (e.finish okv err)) :
    ∃ t, exec i s = .next t ∧ engineRun t.params (k + 1) t.engine = some { s.engine with
      inq := rest, outq := s.engine.outq ++ out
      inCnt := BitVec.ofNat 32 n, outCnt := BitVec.ofNat 32 out.length
      lastOp := code, done := true, ok := okv, err := if okv then 0 else err.bits } := by
  refine ⟨_, starts, ((engineRun_add k 1 run).trans (engineRun_one (ends _ rfl rfl rfl))).trans ?_⟩
  simp [Engine.finish, Engine.moved, Engine.start, Engine.accepted, idle]

/-- The header and the plaintext are the blocks of an encrypt run, and the run ends when they are pushed. -/
theorem exec_engineRun_encrypt {s : State} {i : Instr} {code : Byte} {op : Op} {p : List Byte} {rest : List InEntry}
    (enc : op.encrypts = true) (idle : s.engine.seq = .idle)
    (starts : exec i s = .next (s.setEngine ((s.engine.accepted code).start op (encCtx s.engine.len))))
    (len : s.engine.len.toNat = p.length) (inq : s.engine.inq = p.map .byte ++ rest)
    (fits : s.engine.outq.length + p.length + (8 - p.length % 8) ≤ s.params.outDepth) :
    ∃ t, exec i s = .next t ∧
      engineRun t.params (p.length + (p.length + (8 - p.length % 8)) / 8 + 1) t.engine = some { s.engine with
        inq := rest, outq := s.engine.outq ++ encStream p s.engine.key s.engine.rounds
        inCnt := BitVec.ofNat 32 p.length, outCnt := BitVec.ofNat 32 (p.length + (8 - p.length % 8))
        lastOp := code, done := true, ok := true, err := 0 } := by
  have header_len : (encCtx s.engine.len).acc.length = 8 - p.length % 8 := by rw [encCtx, header_length, fill, len]
  have padded : (encCtx s.engine.len).acc ++ p = pad p := by rw [encCtx, pad, len]
  have run := engineRun_blocks (p := s.params) (e := (s.engine.accepted code).start op (encCtx s.engine.len))
    (ctx := encCtx s.engine.len) (q := p) (m := (p.length + (8 - p.length % 8)) / 8) (by simp [enc]) rfl (by omega)
    (by omega) (.of_rem rfl len.ge) rfl inq (by simp only [Engine.start_outq, Engine.accepted_outq]; omega)
  rw [padded, Op.blocks_of_encrypts enc] at run
  have taken_all : ((encCtx s.engine.len).took p).rem = some 0 := Ctx.took_rem_all rfl len
  have finished := exec_engineRun_codec (out := encStream p s.engine.key s.engine.rounds) idle starts run fun e seq _ _ =>
    (engineStep_encrypts s.params enc seq).trans (encryptStep_done taken_all rfl)
  rwa [encStream_length] at finished

/-- Settles O56: the two commands start the same run, and of something to encrypt they make the same ciphertext. -/
theorem encryptRunPushesTheEncryptedPaddedBuffer : Obligations.EncryptRunPushesTheEncryptedPaddedBuffer := by
  intro s p rest idle len inq fits
  refine ⟨exec_engineRun_encrypt rfl idle (presentCommand_start idle 0x22 .encStream _ rfl) len inq fits,
    fun nonempty => ?_⟩
  have pos : s.engine.len ≠ 0 := fun zero => nonempty (List.eq_nil_of_length_eq_zero (by rw [← len, zero]; rfl))
  rw [encBuf_eq_encStream nonempty]
  exact exec_engineRun_encrypt rfl idle (presentCommand_start idle 0x20 .encBuf _ (acceptEncBuf_start pos)) len inq fits

/-! #### The first block of a decrypt run decides on the others -/

theorem whole_blocks_cons {c : List Byte} (nonempty : c ≠ []) (whole : c.length % 8 = 0) :
    ∃ b q, c = b ++ q ∧ b.length = 8 ∧ q.length % 8 = 0 := by
  have pos := List.length_pos_of_ne_nil nonempty
  refine ⟨c.take 8, c.drop 8, (List.take_append_drop 8 c).symm, ?_, ?_⟩
  · rw [List.length_take]; omega
  · rw [List.length_drop]; omega

/-- The marker of the first block decides, and is the only one: the later blocks are all content (43 R184, R185). -/
theorem unpad_decBlocks {b : List Byte} (eight : b.length = 8) (q : List Byte) (k : Key) (r : Word) :
    unpad (decBlocks (b ++ q) k r) =
      if 8 < fillMarker (decryptBlock b k r) then .error .badFill
      else .ok ((decryptBlock b k r).drop (fillMarker (decryptBlock b k r)) ++ decBlocks q k r) := by
  have notNil : decryptBlock b k r ≠ [] := List.ne_nil_of_length_pos (by simp)
  rw [decBlocks_block eight, unpad, fillMarker_append _ notNil]
  split
  next => rfl
  next good => rw [List.drop_append_of_le_length (by simpa using good)]

section DecryptRun

variable {p : Params} {e : Engine} {op : Op} {ctx : Ctx} {rest : List InEntry} {b q : List Byte}

/-- The first block passes the fill check, and its content is pushed. -/
theorem engineRun_firstBlock (dec : op.decrypts = true) (first : ctx.first = true) (acc : ctx.acc = [])
    (eight : b.length = 8) (w : ctx.Wants op b.length) (seq : e.seq = .run op ctx) (inq : e.inq = b.map .byte ++ rest)
    (good : fillMarker (decryptBlock b e.key e.rounds) ≤ 8)
    (fits : e.outq.length + (8 - fillMarker (decryptBlock b e.key e.rounds)) ≤ p.outDepth) :
    engineRun p (b.length + 1) e = some (e.moved op { (ctx.took b).emptied with first := false } b.length rest
      ((decryptBlock b e.key e.rounds).drop (fillMarker (decryptBlock b e.key e.rounds)))) := by
  have block : (ctx.took b).acc = b := by rw [Ctx.took_acc, acc, List.nil_append]
  have taken := engineRun_takesBlock (p := p) (by simp [dec]) b (by simp [acc, eight]) w seq inq
  have pushed := decryptStep_firstBlock (p := p) (e := e.moved op (ctx.took b) b.length rest []) (op := op)
    (ctx := ctx.took b) (by rw [block, eight]) first (by simpa [acc] using good) (by simpa [acc] using fits)
  rw [block, Engine.moved_push, Engine.moved_key, Engine.moved_rounds] at pushed
  rw [engineRun_add _ 1 taken, engineRun_one ((engineStep_decrypts p dec rfl).trans pushed)]
  rfl

/-- A decrypt run over whole blocks that unpad to `x` pushes `x`. -/
theorem engineRun_decrypt (dec : op.decrypts = true) (first : ctx.first = true) (acc : ctx.acc = []) {c x : List Byte}
    (nonempty : c ≠ []) (whole : c.length % 8 = 0) (w : ctx.Wants op c.length) (seq : e.seq = .run op ctx)
    (inq : e.inq = c.map .byte ++ rest) (fits : e.outq.length + c.length ≤ p.outDepth)
    (unpadded : unpad (decBlocks c e.key e.rounds) = .ok x) :
    engineRun p (c.length + c.length / 8) e =
      some (e.moved op { (ctx.took c).emptied with first := false } c.length rest x) := by
  obtain ⟨b, q, rfl, eight, qWhole⟩ := whole_blocks_cons nonempty whole
  rw [unpad_decBlocks eight] at unpadded
  split at unpadded
  next => cases unpadded
  next good =>
    cases unpadded
    rw [List.length_append] at w fits
    rw [List.map_append, List.append_assoc] at inq
    have start := engineRun_firstBlock (p := p) dec first acc eight (w.mono (Nat.le_add_right _ _)) seq inq
      (not_lt.1 good) (by omega)
    have later := engineRun_blocks (p := p) (op := op) (ctx := { (ctx.took b).emptied with first := false })
      (e := e.moved op { (ctx.took b).emptied with first := false } b.length (q.map .byte ++ rest)
        ((decryptBlock b e.key e.rounds).drop (fillMarker (decryptBlock b e.key e.rounds))))
      (q := q) (m := q.length / 8) (by simp [dec]) rfl (by simp; omega) (by simp) (w.took.congr rfl) rfl rfl
      (by simp; omega)
    have steps : (b ++ q).length + (b ++ q).length / 8 = b.length + 1 + (q.length + q.length / 8) := by
      rw [List.length_append]; omega
    have ctxs : ({ (ctx.took b).emptied with first := false }.took q).emptied =
        { (ctx.took (b ++ q)).emptied with first := false } := by rw [← Ctx.emptied_took_took]; rfl
    rw [Engine.moved_moved, ctxs, Op.blocks_of_decrypts dec] at later
    rw [steps, engineRun_add _ _ start, later, List.length_append]
    rfl

end DecryptRun

/-- Settles O57: the marker of the first block decides whether the run goes on to the end or stops there. -/
theorem decryptBufferRunPushesThePlaintextOrFailsClean : Obligations.DecryptBufferRunPushesThePlaintextOrFailsClean := by
  intro s c rest idle len inq fits
  have starts (nonempty : c ≠ []) (whole : c.length % 8 = 0) :
      exec .decBuf s = .next (s.setEngine ((s.engine.accepted 0x21).start .decBuf (decCtx (some s.engine.len)))) := by
    have pos : s.engine.len ≠ 0 := fun zero => nonempty (List.eq_nil_of_length_eq_zero (by rw [← len, zero]; rfl))
    exact presentCommand_start idle 0x21 .decBuf _ (acceptDecBuf_start pos (len ▸ whole))
  refine ⟨fun x plaintext => ?ok, fun failed => ?badFill⟩
  case ok =>
    obtain ⟨nonempty, whole⟩ := whole_of_decBuf (by rw [plaintext]; nofun)
    rw [decBuf_of_whole nonempty whole] at plaintext
    have run := engineRun_decrypt (p := s.params) (e := (s.engine.accepted 0x21).start .decBuf (decCtx (some s.engine.len)))
      (ctx := decCtx (some s.engine.len)) rfl rfl rfl nonempty whole (.of_rem rfl len.ge) rfl inq fits plaintext
    have taken_all : ((decCtx (some s.engine.len)).took c).rem = some 0 := Ctx.took_rem_all rfl len
    exact exec_engineRun_codec idle (starts nonempty whole) run fun e seq _ _ =>
      (engineStep_decrypts s.params rfl seq).trans (decryptStep_done (by simp) taken_all)
  case badFill =>
    obtain ⟨nonempty, whole⟩ := whole_of_decBuf (by rw [failed]; nofun)
    rw [decBuf_of_whole nonempty whole] at failed
    have started := starts nonempty whole
    obtain ⟨b, q, rfl, eight, -⟩ := whole_blocks_cons nonempty whole
    rw [List.map_append, List.append_assoc] at inq
    rw [List.length_append] at len
    rw [unpad_decBlocks eight] at failed
    split at failed
    next bad =>
      have run := engineRun_takesBlock (p := s.params) (op := .decBuf)
        (e := (s.engine.accepted 0x21).start .decBuf (decCtx (some s.engine.len))) (ctx := decCtx (some s.engine.len))
        rfl b (by simp [decCtx, eight]) (.of_rem rfl (by omega)) rfl inq
      have finished := exec_engineRun_codec idle started run fun e seq key rounds =>
        (engineStep_decrypts s.params rfl seq).trans (decryptStep_badFill eight rfl (by rw [key, rounds]; exact bad))
      simpa [eight, ErrCode.bits] using finished
    next => cases failed

end Sys2Proof.Machine

/-! ## The host string codec family

The byte wrappers undo each other because ENC_BUF's and DEC_BUF's functions do (44 R199), where the empty plaintext is
treated apart. The string codec stands on the wrappers: what comes back is the payload, and its first 8 bytes are the
checksum of the rest, since the serialisation of the checksum is undone by the same halves and byte views as a block's. -/

namespace Sys2Proof.Machine

open Sys2Proof

/-! ### The serialised checksum (45 R213) -/

@[simp] theorem bytesBE64_length (h : Quad) : (bytesBE64 h).length = 8 := rfl

theorem lenOf_lenHi_lenLo (n : Quad) : lenOf (lenHi n) (lenLo n) = n := by
  rw [lenOf_lenHi]
  ext i hi
  by_cases low : i < 32
  · simp [low, hi, lenLo]
  · have fromUpper : 32 + (i - 32) = i := by omega
    simp [low, fromUpper, lenLo, BitVec.getLsbD_eq_getElem hi]

theorem be64_bytesBE64 (h : Quad) : be64 (bytesBE64 h) = h :=
  calc be64 (bytesBE64 h)
      = lenOf (blockY (blockBytes (lenHi h) (lenLo h))) (blockZ (blockBytes (lenHi h) (lenLo h))) := rfl
    _ = lenOf (lenHi h) (lenLo h) := by rw [blockY_blockBytes, blockZ_blockBytes]
    _ = h := lenOf_lenHi_lenLo h

/-! ### The byte wrappers (45 R211) -/

theorem decryptBytes_encryptBytes (p : List Byte) (k : Key) (r : Word) : decryptBytes (encryptBytes p k r) k r = p := by
  cases p with
  | nil => rfl
  | cons x xs => rw [encryptBytes, encBuf_eq_encStream (List.cons_ne_nil x xs), decryptBytes, decBuf_encStream]

theorem encryptBytes_length {p : List Byte} (nonempty : p ≠ []) (k : Key) (r : Word) :
    (encryptBytes p k r).length = p.length + (8 - p.length % 8) := by
  rw [encryptBytes, encBuf_eq_encStream nonempty, encStream_length]

/-! ### The payload of a string (45 R214, R215) -/

/-- A payload that carries its own text's checksum is accepted. -/
theorem checkString_payload (t : List Byte) : checkString (bytesBE64 (checksum t) ++ t) = (t, true) := by
  have header : (bytesBE64 (checksum t) ++ t).take 8 = bytesBE64 (checksum t) := List.take_left' (bytesBE64_length _)
  have text : (bytesBE64 (checksum t) ++ t).drop 8 = t := List.drop_left' (bytesBE64_length _)
  have long : ¬(bytesBE64 (checksum t) ++ t).length < 8 := by simp
  rw [checkString, if_neg long, header, text, be64_bytesBE64, if_neg (not_not.2 rfl)]

theorem decryptString_encryptString (t : List Byte) (k : Key) (r : Word) :
    decryptString (encryptString t k r) k r = (t, true) := by
  rw [decryptString, encryptString, decryptBytes_encryptBytes, checkString_payload]

/-- The payload is never empty, so the length law holds of every text. -/
theorem encryptString_length (t : List Byte) (k : Key) (r : Word) :
    (encryptString t k r).length = t.length + 8 + (8 - (t.length + 8) % 8) := by
  have payload : (bytesBE64 (checksum t) ++ t).length = t.length + 8 := by simp [Nat.add_comm]
  have nonempty : bytesBE64 (checksum t) ++ t ≠ [] := List.ne_nil_of_length_pos (by omega)
  rw [encryptString, encryptBytes_length nonempty, payload]

/-- Settles O60: the wrappers undo each other, and the recovered payload passes its own checksum. -/
theorem hostStringCodecRoundTrips : Obligations.HostStringCodecRoundTrips := fun text k r =>
  ⟨decryptString_encryptString text k r, decryptBytes_encryptBytes text k r, encryptString_length text k r⟩

end Sys2Proof.Machine

/-! ## The stream codec family

A byte list is whole blocks and a short tail. A DEC_STREAM run pushes the content of the blocks and takes the tail into its
pending bytes, so what End finds there decides on the status. Over any schedule one quantity is conserved: the bytes popped,
those in the output FIFO, and those still to come from the entries in the input FIFO and all entries yet to be pushed. -/

namespace Sys2Proof.Machine

open Sys2Proof

/-! ### The stream function on whole blocks and a tail (46 R225) -/

theorem exists_whole_append_short (c : List Byte) : ∃ w t, c = w ++ t ∧ w.length % 8 = 0 ∧ t.length < 8 := by
  refine ⟨c.take (c.length / 8 * 8), c.drop (c.length / 8 * 8), (List.take_append_drop _ c).symm, ?_, ?_⟩
  · rw [List.length_take]; omega
  · rw [List.length_drop]; omega

theorem decBlocks_append_short {w t : List Byte} (whole : w.length % 8 = 0) (short : t.length < 8) (k : Key) (r : Word) :
    decBlocks (w ++ t) k r = decBlocks w k r := by
  induction w using blocks_induction with
  | short w less =>
    obtain rfl : w = [] := List.eq_nil_of_length_eq_zero (by omega)
    exact decBlocks_short short k r
  | block b rest eight ih =>
    have restWhole : rest.length % 8 = 0 := by rw [List.length_append] at whole; omega
    rw [List.append_assoc, decBlocks_block eight, decBlocks_block eight, ih restWhole]

/-- Whole blocks whose marker is good have the content after it. -/
theorem decContent_whole_good {w : List Byte} {k : Key} {r : Word} (nonempty : w ≠ []) (whole : w.length % 8 = 0)
    (good : fillMarker (decBlocks w k r) ≤ 8) :
    decContent true (decBlocks w k r) = (decBlocks w k r).drop (fillMarker (decBlocks w k r)) := by
  have pos := List.length_pos_of_ne_nil nonempty
  have content : decBlocks w k r ≠ [] := List.ne_nil_of_length_pos (by rw [decBlocks_length]; omega)
  simp [decContent, content, good.not_gt]

/-- The status End gives a DEC_STREAM run with the pending bytes `pending` (44 R195). -/
def streamEndCode (pending : List Byte) : ErrCode := if pending = [] then .none else .partialBlock

/-- A bad marker of the first block decides; else the blocks give the output and the tail gives the status. -/
theorem decStream_append_short {w t : List Byte} (whole : w.length % 8 = 0) (short : t.length < 8) (k : Key) (r : Word) :
    decStream (w ++ t) k r =
      if w ≠ [] ∧ 8 < fillMarker (decBlocks w k r) then (.badFill, [])
      else (streamEndCode t, decContent true (decBlocks w k r)) := by
  have full : 8 ≤ (w ++ t).length ↔ w ≠ [] := by
    rw [Ne, ← List.length_eq_zero_iff, List.length_append]; omega
  have inside : (w ++ t).length % 8 ≠ 0 ↔ t ≠ [] := by
    rw [Ne, Ne, ← List.length_eq_zero_iff, List.length_append]; omega
  simp only [decStream, decBlocks_append_short whole short, full, inside]
  by_cases noBlock : w = []
  · subst noBlock
    by_cases noTail : t = [] <;> simp [noTail, streamEndCode, decBlocks_short, decContent_nil]
  · by_cases bad : 8 < fillMarker (decBlocks w k r)
    · simp [noBlock, bad]
    · by_cases noTail : t = [] <;>
        simp [noBlock, bad, noTail, streamEndCode, decContent_whole_good noBlock whole (not_lt.1 bad)]

/-! ### DEC_STREAM's run (46 R226; 70 R282) -/

section StreamRun

variable {p : Params} {e : Engine} {ctx : Ctx} {rest : List InEntry} {w t : List Byte}

/-- A run that does not count its bytes takes any number of them. -/
theorem Ctx.Wants.of_uncounted (rem : ctx.rem = none) (k : Nat) : ctx.Wants .decStream k :=
  ⟨nofun, fun n counted => by rw [rem] at counted; cases counted⟩

/-- The whole blocks are taken, and their content is pushed. -/
theorem engineRun_streamBlocks (whole : w.length % 8 = 0)
    (good : ¬(w ≠ [] ∧ 8 < fillMarker (decBlocks w e.key e.rounds)))
    (seq : e.seq = .run .decStream (decCtx none)) (inq : e.inq = w.map .byte ++ rest)
    (fits : e.outq.length + w.length ≤ p.outDepth) :
    ∃ ctx : Ctx, ctx.rem = none ∧ ctx.acc = [] ∧ engineRun p (w.length + w.length / 8) e =
      some (e.moved .decStream ctx w.length rest (decContent true (decBlocks w e.key e.rounds))) := by
  by_cases noBlock : w = []
  · subst noBlock
    have nothing := Engine.moved_nothing seq
    rw [show e.inq = rest from inq] at nothing
    exact ⟨decCtx none, rfl, rfl, congrArg some nothing.symm⟩
  · have marker : fillMarker (decBlocks w e.key e.rounds) ≤ 8 := not_lt.1 fun bad => good ⟨noBlock, bad⟩
    rw [decContent_whole_good noBlock whole marker]
    exact ⟨{ ((decCtx none).took w).emptied with first := false }, rfl, rfl,
      engineRun_decrypt rfl rfl rfl noBlock whole (.of_uncounted rfl _) seq inq fits (unpad_good marker)⟩

/-- The tail is taken after the blocks and stays pending. -/
theorem engineRun_streamBytes (whole : w.length % 8 = 0) (short : t.length < 8)
    (good : ¬(w ≠ [] ∧ 8 < fillMarker (decBlocks w e.key e.rounds))) (seq : e.seq = .run .decStream (decCtx none))
    (inq : e.inq = (w ++ t).map .byte ++ rest) (fits : e.outq.length + (w ++ t).length ≤ p.outDepth) :
    ∃ ctx : Ctx, ctx.rem = none ∧ ctx.acc = t ∧ engineRun p ((w ++ t).length + (w ++ t).length / 8) e =
      some (e.moved .decStream ctx (w ++ t).length rest (decContent true (decBlocks w e.key e.rounds))) := by
  rw [List.length_append] at fits
  rw [List.map_append, List.append_assoc] at inq
  obtain ⟨ctx, rem, acc, blocks⟩ := engineRun_streamBlocks (p := p) whole good seq inq (by omega)
  have tail := engineRun_takesBlock (p := p) (op := .decStream) (ctx := ctx) (rest := rest)
    (e := e.moved .decStream ctx w.length (t.map .byte ++ rest) (decContent true (decBlocks w e.key e.rounds)))
    rfl t (by rw [acc, List.length_nil]; omega) (.of_uncounted rem _) rfl rfl
  have steps : (w ++ t).length + (w ++ t).length / 8 = w.length + w.length / 8 + t.length := by
    rw [List.length_append]; omega
  refine ⟨ctx.took t, by rw [Ctx.took_rem, rem]; rfl, by rw [Ctx.took_acc, acc, List.nil_append], ?_⟩
  rw [steps, engineRun_add _ _ blocks, tail, Engine.moved_moved, List.append_nil, List.length_append]

theorem engineStep_streamEnd (seq : e.seq = .run .decStream ctx) (rem : ctx.rem = none) (short : ctx.acc.length < 8)
    (inq : e.inq = .endMark :: rest) :
    engineStep p e =
      some ({ e with inq := rest }.finish (decide (streamEndCode ctx.acc = ErrCode.none)) (streamEndCode ctx.acc)) := by
  rw [engineStep_decrypts p rfl seq, decryptStep_end short.ne (by simp [rem]) inq, if_neg (by decide), streamEndCode]
  split <;> rfl

end StreamRun

/-- The run over a stream that passes the fill check finishes at its End, with the status and the output of `decStream`. -/
theorem exec_engineRun_decStream {s : State} {c : List Byte} {rest : List InEntry} {code : ErrCode} {out : List Byte}
    (idle : s.engine.seq = .idle) (inq : s.engine.inq = c.map .byte ++ .endMark :: rest)
    (fits : s.engine.outq.length + c.length ≤ s.params.outDepth)
    (result : decStream c s.engine.key s.engine.rounds = (code, out)) (passes : code ≠ .badFill) :
    ∃ t, exec .decStream s = .next t ∧ engineRun t.params (c.length + c.length / 8 + 1) t.engine = some { s.engine with
      inq := rest, outq := s.engine.outq ++ out
      inCnt := BitVec.ofNat 32 c.length, outCnt := BitVec.ofNat 32 out.length
      lastOp := 0x23, done := true, ok := decide (code = .none), err := if code = .none then 0 else code.bits } := by
  obtain ⟨w, t, rfl, whole, short⟩ := exists_whole_append_short c
  rw [decStream_append_short whole short] at result
  split at result
  next => cases result; exact absurd rfl passes
  next good =>
    cases result
    obtain ⟨ctx, rem, acc, run⟩ := engineRun_streamBytes (p := s.params)
      (e := (s.engine.accepted 0x23).start .decStream (decCtx none)) whole short good rfl inq fits
    have ends := engineStep_streamEnd (p := s.params) (rest := rest)
      (e := ((s.engine.accepted 0x23).start .decStream (decCtx none)).moved .decStream ctx (w ++ t).length
        (.endMark :: rest) (decContent true (decBlocks w s.engine.key s.engine.rounds)))
      (ctx := ctx) rfl rem (by rw [acc]; exact short) rfl
    refine ⟨_, presentCommand_start idle 0x23 .decStream _ rfl,
      ((engineRun_add _ 1 run).trans (engineRun_one ends)).trans ?_⟩
    simp [Engine.finish, Engine.moved, Engine.start, Engine.accepted, idle, acc]

/-- The run over a stream whose first block fails the fill check ends right after that block. -/
theorem exec_engineRun_decStream_badFill {s : State} {c : List Byte} {rest : List InEntry} {out : List Byte}
    (idle : s.engine.seq = .idle) (inq : s.engine.inq = c.map .byte ++ rest)
    (result : decStream c s.engine.key s.engine.rounds = (.badFill, out)) :
    ∃ t, exec .decStream s = .next t ∧ engineRun t.params 9 t.engine = some { s.engine with
      inq := (c.drop 8).map .byte ++ rest, inCnt := 8, outCnt := 0
      lastOp := 0x23, done := true, ok := false, err := 3 } := by
  obtain ⟨w, t, rfl, whole, short⟩ := exists_whole_append_short c
  rw [decStream_append_short whole short] at result
  split at result
  next bad =>
    obtain ⟨nonempty, marker⟩ := bad
    obtain ⟨b, q, rfl, eight, -⟩ := whole_blocks_cons nonempty whole
    rw [decBlocks_block eight, fillMarker_append _ (List.ne_nil_of_length_pos (by simp))] at marker
    rw [List.append_assoc, List.map_append, List.append_assoc] at inq
    have run := engineRun_takesBlock (p := s.params) (op := .decStream)
      (e := (s.engine.accepted 0x23).start .decStream (decCtx none)) (ctx := decCtx none) rfl b
      (by simp [decCtx, eight]) (.of_uncounted rfl _) rfl inq
    have starts : exec .decStream s = .next (s.setEngine ((s.engine.accepted 0x23).start .decStream (decCtx none))) :=
      presentCommand_start idle 0x23 .decStream _ rfl
    have finished := exec_engineRun_codec idle starts run fun e seq key rounds =>
      (engineStep_decrypts s.params rfl seq).trans (decryptStep_badFill eight rfl
        (by rw [key, rounds]; exact marker))
    simpa [eight, ErrCode.bits] using finished
  next =>
    rw [streamEndCode] at result
    split at result <;> cases result

/-- Settles O58: a stream fails the fill check at its first block, or runs to its End. -/
theorem decryptStreamRunFollowsDecStream : Obligations.DecryptStreamRunFollowsDecStream :=
  fun _ _ _ idle inq fits _ =>
    ⟨fun ok => exec_engineRun_decStream idle inq fits ok nofun,
      fun inside => exec_engineRun_decStream idle inq fits inside nofun,
      fun bad => exec_engineRun_decStream_badFill idle inq bad⟩

/-! ### The output still to come (46 R229) -/

section FutureOutput

variable {e : Engine} {op : Op} {ctx : Ctx}

theorem pendingInput_byte {rem : Option Quad} (pos : rem ≠ some 0) (x : Byte) (rest : List InEntry) :
    pendingInput rem (.byte x :: rest) = x :: pendingInput (rem.map (· - 1)) rest := by
  cases rem with
  | none => rfl
  | some n =>
    have left : n.toNat = (n - 1).toNat + 1 := (rem_pred_add (by simpa using pos) 0).symm
    simp only [pendingInput, bytesBeforeEnd, Option.map_some, left, List.take_succ_cons]

theorem pendingInput_end (rem : Option Quad) (rest : List InEntry) : pendingInput rem (.endMark :: rest) = [] := by
  cases rem <;> simp [pendingInput, bytesBeforeEnd]

theorem pendingInput_zero (inq : List InEntry) : pendingInput (some 0) inq = [] := rfl

theorem Op.blocks_short (op : Op) {q : List Byte} (short : q.length < 8) (k : Key) (r : Word) : op.blocks q k r = [] :=
  List.eq_nil_of_length_eq_zero (by rw [Op.blocks_length]; omega)

theorem Op.decrypts_of_encrypts {op : Op} (enc : op.encrypts = true) : op.decrypts = false := by
  cases op <;> first | rfl | cases enc

/-- In a codec run the output to come is that of the pending bytes and the pending input, in whole blocks; of a decrypt
run's first block it is the content. -/
theorem futureOutput_codec (codec : (op.encrypts || op.decrypts) = true) (seq : e.seq = .run op ctx) :
    futureOutput e =
      decContent (ctx.first && op.decrypts) (op.blocks (ctx.acc ++ pendingInput ctx.rem e.inq) e.key e.rounds) := by
  cases op <;> cases codec <;> simp [futureOutput, seq, Op.blocks, Op.encrypts, Op.decrypts, decContent_later]

theorem futureOutput_other (other : (op.encrypts || op.decrypts) = false) (seq : e.seq = .run op ctx) :
    futureOutput e = [] := by
  cases op <;> cases other <;> simp only [futureOutput, seq]

theorem futureOutput_idle (idle : e.seq = .idle) : futureOutput e = [] := by simp only [futureOutput, idle]

/-- A run that is to take no more bytes and holds no full block has no output to come. -/
theorem futureOutput_short (seq : e.seq = .run op ctx) (short : (op.encrypts || op.decrypts) = true → ctx.acc.length < 8)
    (nothing : pendingInput ctx.rem e.inq = []) : futureOutput e = [] := by
  cases codec : op.encrypts || op.decrypts with
  | false => exact futureOutput_other codec seq
  | true =>
    rw [futureOutput_codec codec seq, nothing, List.append_nil, Op.blocks_short op (short codec), decContent_nil]

end FutureOutput

/-! #### An engine step moves the output to come to the output FIFO -/

/-- The pending bytes of a codec run are at most a block (10 R47). -/
def Engine.BlockPending (e : Engine) : Prop :=
  ∀ op ctx, e.seq = .run op ctx → (op.encrypts || op.decrypts) = true → ctx.acc.length ≤ 8

theorem Engine.Inv.blockPending {p : Params} {e : Engine} (inv : e.Inv p) : e.BlockPending := inv.acc_codec

theorem EngineStep.keeps_output {p : Params} {e e' : Engine} (st : EngineStep p e e') (pending : e.BlockPending) :
    e'.outq ++ futureOutput e' = e.outq ++ futureOutput e := by
  have below {op : Op} {ctx : Ctx} (seq : e.seq = .run op ctx)
      (more : (op.encrypts || op.decrypts) = true → ctx.acc.length ≠ 8) :
      (op.encrypts || op.decrypts) = true → ctx.acc.length < 8 :=
    fun codec => (pending op ctx seq codec).lt_of_ne (more codec)
  have pushes {l : List Byte} {op : Op} {ctx : Ctx}
      (moves : futureOutput e = l ++ futureOutput ((e.pushOut l).start op ctx)) :
      ((e.pushOut l).start op ctx).outq ++ futureOutput ((e.pushOut l).start op ctx) = e.outq ++ futureOutput e := by
    rw [moves, ← List.append_assoc]
    rfl
  cases st with
  | keyFold ctx n x rest seq => rw [futureOutput_other rfl seq, futureOutput_other rfl rfl]
  | take op ctx x rest seq inq full _ pos =>
    obtain ⟨rfl, -⟩ | ⟨codec, -⟩ := full
    · rw [futureOutput_other rfl seq, futureOutput_other rfl rfl]
    · have notRaw : op ≠ .keyRaw := by rintro rfl; cases codec
      rw [futureOutput_codec codec seq, futureOutput_codec codec rfl, inq, pendingInput_byte (pos notRaw)]
      simp [notRaw]
  | short op ctx rest seq inq _ more =>
    rw [futureOutput_idle rfl, futureOutput_short seq (below seq more) (by rw [inq, pendingInput_end])]
    rfl
  | streamEnd ctx rest seq inq more =>
    rw [futureOutput_short seq (below seq fun _ => more) (by rw [inq, pendingInput_end])]
    split <;> rfl
  | commit op ctx key y z seq other => rw [futureOutput_other other seq, futureOutput_idle rfl]; rfl
  | codecDone op ctx seq _ rem more | partialEnc op ctx seq _ rem more =>
    rw [futureOutput_idle rfl, futureOutput_short seq (below seq fun _ => more) (by rw [rem, pendingInput_zero])]
    rfl
  | pushEnc op ctx n seq enc rem full =>
    have codec : (op.encrypts || op.decrypts) = true := by simp [enc]
    refine pushes ?_
    rw [futureOutput_codec codec seq, futureOutput_codec codec rfl, Op.blocks_append op full, Op.blocks_one op full,
      Op.decrypts_of_encrypts enc, Bool.and_false]
    simp [enc, decContent_later]
  | badFill op ctx seq dec full first bad =>
    rw [futureOutput_idle rfl, futureOutput_codec (by simp [dec]) seq, first, dec, Op.blocks_of_decrypts dec,
      decBlocks_block full, Bool.and_self, decContent_bad _ (decryptBlock_length _ _ _) bad]
    rfl
  | pushFirst op ctx seq dec full first good =>
    have codec : (op.encrypts || op.decrypts) = true := by simp [dec]
    refine pushes ?_
    rw [futureOutput_codec codec seq, futureOutput_codec codec rfl, first, dec, Op.blocks_of_decrypts dec,
      decBlocks_block full, Bool.and_self, decContent_good _ (decryptBlock_length _ _ _) good]
    rfl
  | pushLater op ctx seq dec full later =>
    have codec : (op.encrypts || op.decrypts) = true := by simp [dec]
    refine pushes ?_
    rw [futureOutput_codec codec seq, futureOutput_codec codec rfl, later, Op.blocks_of_decrypts dec,
      decBlocks_block full]
    rfl

/-! #### More input only adds to the output to come -/

theorem bytesBeforeEnd_prefix (inq more : List InEntry) : bytesBeforeEnd inq <+: bytesBeforeEnd (inq ++ more) := by
  induction inq with
  | nil => exact List.nil_prefix
  | cons entry rest ih =>
    cases entry with
    | byte x => exact (List.prefix_cons_inj x).2 ih
    | endMark => exact List.nil_prefix

theorem pendingInput_prefix (rem : Option Quad) (inq more : List InEntry) :
    pendingInput rem inq <+: pendingInput rem (inq ++ more) := by
  cases rem with
  | none => exact bytesBeforeEnd_prefix inq more
  | some n => exact (bytesBeforeEnd_prefix inq more).take n.toNat

theorem Op.blocks_prefix (op : Op) (q more : List Byte) (k : Key) (r : Word) :
    op.blocks q k r <+: op.blocks (q ++ more) k r := by
  induction q using blocks_induction with
  | short q short => rw [Op.blocks_short op short]; exact List.nil_prefix
  | block b rest eight ih =>
    rw [List.append_assoc, Op.blocks_append op eight, Op.blocks_append op eight]
    exact (List.prefix_append_right_inj _).2 ih

theorem decContent_prefix (first : Bool) (q more : List Byte) : decContent first q <+: decContent first (q ++ more) := by
  cases first with
  | false => exact List.prefix_append q more
  | true =>
    by_cases empty : q = []
    · subst empty; exact List.nil_prefix
    · simp only [decContent, if_true, List.isEmpty_iff, List.append_eq_nil_iff, empty, false_and, if_false,
        fillMarker_append more empty]
      split
      next => exact List.nil_prefix
      next => exact (List.prefix_append q more).drop _

theorem futureOutput_behind_prefix (e : Engine) (more : List InEntry) : futureOutput e <+: futureOutput (e.behind more) := by
  cases seq : e.seq with
  | idle => rw [futureOutput_idle seq]; exact List.nil_prefix
  | run op ctx =>
    cases codec : op.encrypts || op.decrypts with
    | false => rw [futureOutput_other codec seq]; exact List.nil_prefix
    | true =>
      obtain ⟨bytes, hbytes⟩ := pendingInput_prefix ctx.rem e.inq more
      have added : futureOutput (e.behind more) = decContent (ctx.first && op.decrypts)
          (op.blocks (ctx.acc ++ pendingInput ctx.rem e.inq ++ bytes) e.key e.rounds) := by
        rw [futureOutput_codec codec (show (e.behind more).seq = .run op ctx from seq), List.append_assoc, hbytes]
        rfl
      obtain ⟨blocks, hblocks⟩ := Op.blocks_prefix op (ctx.acc ++ pendingInput ctx.rem e.inq) bytes e.key e.rounds
      rw [added, futureOutput_codec codec seq, ← hblocks]
      exact decContent_prefix _ _ _

/-! #### Over transfers the output is conserved -/

/-- A DIN write that leaves OVF clear has put its entry into the FIFO (40 R104). -/
theorem Engine.pushIn_kept {p : Params} {x : InEntry} {e : Engine} (kept : (e.pushIn p x).ovf = false) :
    e.pushIn p x = e.behind [x] := by
  by_cases lt : e.inq.length < p.inDepth
  · exact Engine.pushIn_of_lt x lt
  · rw [Engine.pushIn_of_full x lt] at kept
    cases kept

theorem Engine.behind_behind (e : Engine) (a b : List InEntry) : (e.behind a).behind b = e.behind (a ++ b) := by
  simp only [Engine.behind, List.append_assoc]

/-- A turn of the engine keeps the output, whatever entries are yet to be pushed: the step does not look at them. -/
theorem engineTurn_keeps_output (s : State) (pending : s.engine.BlockPending) (more : List InEntry) :
    (engineTurn s).engine.outq ++ futureOutput ((engineTurn s).engine.behind more) =
      s.engine.outq ++ futureOutput (s.engine.behind more) := by
  cases h : engineStep s.params s.engine with
  | none => rw [engineTurn_none h]
  | some e =>
    rw [engineTurn_some h]
    exact (engineStep_some (engineStep_behind more h)).keeps_output pending

/-- What a DOUT read does to the engine, and the value it returns (40 R105). -/
theorem popDout_cases {s t : State} (h : popDout s = .next t) :
    t.engine = s.engine ∧ t.v = 0 ∨
      ∃ b rest, s.engine.outq = b :: rest ∧ t.engine = { s.engine with outq := rest } ∧
        t.v = 0x100#32 ||| b.setWidth 32 := by
  cases hq : s.engine.outq with
  | nil => rw [popDout_nil hq] at h; cases h; exact .inl ⟨rfl, rfl⟩
  | cons b rest => rw [popDout_cons hq] at h; cases h; exact .inr ⟨b, rest, rfl, rfl, rfl⟩

/-- An engine step leaves OVF alone. -/
theorem EngineStep.ovf {p : Params} {e e' : Engine} (st : EngineStep p e e') : e'.ovf = e.ovf := by
  cases st with
  | streamEnd => split <;> rfl
  | _ => rfl

/-- OVF, once set, stays set: no transfer clears it (40 R103). -/
theorem Transfer.ovf {s t : State} {ev : PortEvent} (tr : Transfer s ev t) (kept : t.engine.ovf = false) :
    s.engine.ovf = false := by
  cases tr with
  | turn =>
    cases h : engineStep s.params s.engine with
    | none => rwa [engineTurn_none h] at kept
    | some e =>
      rw [engineTurn_some h] at kept
      exact (engineStep_some h).ovf.symm.trans kept
  | push x =>
    rw [State.setEngine_engine] at kept
    rw [Engine.pushIn_kept kept] at kept
    exact kept
  | pop w _ h =>
    obtain ⟨same, -⟩ | ⟨b, rest, -, popped, -⟩ := popDout_cases h
    · rwa [same] at kept
    · rwa [popped] at kept
  | poll d w _ _ _ engine => rwa [engine] at kept

theorem Transfer.keeps_output {s t : State} {ev : PortEvent} (tr : Transfer s ev t) (pending : s.engine.BlockPending)
    (kept : t.engine.ovf = false) (more : List InEntry) :
    poppedAt ev t ++ t.engine.outq ++ futureOutput (t.engine.behind more) =
      s.engine.outq ++ futureOutput (s.engine.behind (pushedEntries [ev] ++ more)) := by
  cases tr with
  | turn => exact engineTurn_keeps_output s pending more
  | push x =>
    rw [State.setEngine_engine] at kept ⊢
    rw [pushedEntries_din, ← Engine.behind_behind, Engine.pushIn_kept kept]
    rfl
  | pop w _ h =>
    rw [pushedEntries_other w (by decide)]
    obtain ⟨same, v⟩ | ⟨b, rest, outq, popped, v⟩ := popDout_cases h
    · have nothing : poppedAt (.host (.bus (readDescriptor 0x048) w)) t = [] := by
        rw [poppedAt, if_pos rfl, v, poppedBy_zero]
      rw [nothing, same]
      rfl
    · have byte : poppedAt (.host (.bus (readDescriptor 0x048) w)) t = [b] := by
        rw [poppedAt, if_pos rfl, v]
        exact poppedBy_valid b
      rw [byte, popped, outq]
      rfl
  | poll d w _ din dout engine =>
    rw [pushedEntries_other w din, poppedAt_other w t dout, engine]
    rfl

theorem takeEvent_keeps_inv {ev : PortEvent} {s t : State} (inv : s.Inv) (h : takeEvent ev s = .next t) : t.Inv :=
  step_keeps_inv (s := { s with port := ev :: s.port }) inv h

theorem runEvents_ovf {evs : List PortEvent} {s t : State} {popped : List Byte} (trs : ∀ ev ∈ evs, isTransfer ev = true)
    (h : runEvents evs s = .next (t, popped)) (kept : t.engine.ovf = false) : s.engine.ovf = false := by
  induction evs generalizing s popped with
  | nil => cases h; exact kept
  | cons ev evs ih =>
    obtain ⟨tr, trs⟩ := List.forall_mem_cons.1 trs
    obtain ⟨u, later, first, others, rfl⟩ := runEvents_cons h
    exact (transfer_next tr first).ovf (ih trs others)

/-- Induction over the events: each one keeps the output, with the entries of the later ones yet to be pushed. -/
theorem runEvents_keeps_output {evs : List PortEvent} {s t : State} {popped : List Byte} (inv : s.Inv)
    (trs : ∀ ev ∈ evs, isTransfer ev = true) (h : runEvents evs s = .next (t, popped)) (kept : t.engine.ovf = false) :
    popped ++ t.engine.outq ++ futureOutput t.engine =
      s.engine.outq ++ futureOutput (s.engine.behind (pushedEntries evs)) := by
  induction evs generalizing s popped with
  | nil => cases h; simp [Engine.behind]
  | cons ev evs ih =>
    obtain ⟨tr, trs⟩ := List.forall_mem_cons.1 trs
    obtain ⟨u, later, first, others, rfl⟩ := runEvents_cons h
    calc poppedAt ev u ++ later ++ t.engine.outq ++ futureOutput t.engine
        = poppedAt ev u ++ (later ++ t.engine.outq ++ futureOutput t.engine) := by simp only [List.append_assoc]
      _ = poppedAt ev u ++ (u.engine.outq ++ futureOutput (u.engine.behind (pushedEntries evs))) := by
        rw [ih (takeEvent_keeps_inv inv first) trs others]
      _ = s.engine.outq ++ futureOutput (s.engine.behind (pushedEntries (ev :: evs))) := by
        rw [pushedEntries_cons, ← List.append_assoc]
        exact (transfer_next tr first).keeps_output inv.blockPending (runEvents_ovf trs others kept) _

/-- When the engine is idle no output is to come, so what is popped or in the FIFO is the output of the input pushed. -/
theorem runEvents_output_of_idle {evs : List PortEvent} {s t : State} {popped : List Byte} (inv : s.Inv)
    (trs : ∀ ev ∈ evs, isTransfer ev = true) (h : runEvents evs s = .next (t, popped)) (kept : t.engine.ovf = false)
    (idle : t.engine.seq = .idle) :
    popped ++ t.engine.outq = s.engine.outq ++ futureOutput (s.engine.behind (pushedEntries evs)) := by
  rw [← runEvents_keeps_output inv trs h kept, futureOutput_idle idle, List.append_nil]

/-- Settles O59: the output is conserved by each kind of transfer, so it is a function of the start and the input pushed. -/
theorem outputDoesNotDependOnTheSchedule : Obligations.OutputDoesNotDependOnTheSchedule := by
  refine ⟨fun p e e' inv h => (engineStep_some h).keeps_output inv.blockPending, fun s t d _ h kept => ?din,
    fun s t h => ?dout, fun s t evs popped inv trs h kept => runEvents_keeps_output inv trs h kept,
    fun s t u evs evs' popped popped' inv trs trs' same h h' kept kept' idle idle' => ?schedules⟩
  case din =>
    cases h
    have pushed := Engine.pushIn_kept kept
    rw [dinEntry_eq] at pushed
    exact ⟨pushed, pushed ▸ futureOutput_behind_prefix s.engine _⟩
  case dout =>
    obtain ⟨same, v⟩ | ⟨b, rest, outq, popped, v⟩ := popDout_cases h
    · rw [same]
      exact ⟨rfl, .inl ⟨rfl, v⟩⟩
    · rw [popped]
      exact ⟨rfl, .inr ⟨b, outq, v⟩⟩
  case schedules =>
    rw [runEvents_output_of_idle inv trs h kept idle, runEvents_output_of_idle inv trs' h' kept' idle', same]

end Sys2Proof.Machine

/-! ## The exceptions family

The result table is kept because every finish names a code that its opcode can give, and a run has a clean status. The
step stops only at a bus transaction that is malformed or is none of the engine's; everything else answers a next state. -/

namespace Sys2Proof.Machine

open Sys2Proof

/-! ### The codes of the result table (60 R241, R242) -/

theorem Op.code_mem_opcodes (op : Op) : op.code ∈ opcodes := by cases op <;> decide

theorem errAllowed_zero (op : Byte) : errAllowed op 0 = true := rfl

theorem errAllowed_illegalCmd (op : Byte) : errAllowed op ErrCode.illegalCmd.bits = true := rfl

theorem errAllowed_aborted (op : Op) : errAllowed op.code ErrCode.aborted.bits = true := by cases op <;> decide

theorem errAllowed_badFill {op : Op} (dec : op.decrypts = true) : errAllowed op.code ErrCode.badFill.bits = true := by
  revert dec; cases op <;> decide

theorem ErrCode.bits_ne_zero {code : ErrCode} (failure : code ≠ .none) : code.bits ≠ 0 := by
  revert failure; cases code <;> decide

/-! ### The states that agree with the result table -/

/-- A finish with OK, by a command of any opcode. -/
theorem Engine.ResultTable.finish_ok {e : Engine} (op : e.lastOp ∈ opcodes) : (e.finish true .none).ResultTable :=
  ⟨nofun, errAllowed_zero _, fun _ => op, fun _ => ⟨fun _ => rfl, fun _ => rfl⟩⟩

/-- A finish with a code that the command can give. -/
theorem Engine.ResultTable.finish_failure {e : Engine} {code : ErrCode} (failure : code ≠ .none)
    (allowed : errAllowed e.lastOp code.bits = true) : (e.finish false code).ResultTable :=
  ⟨nofun, allowed, nofun, fun _ => ⟨nofun, fun zero => absurd zero (ErrCode.bits_ne_zero failure)⟩⟩

/-- A run whose status is as acceptance has left it (40 R107). -/
theorem Engine.ResultTable.of_run {e : Engine} {op : Op} {ctx : Ctx} (run : e.seq = .run op ctx)
    (lastOp : e.lastOp = op.code) (done : e.done = false) (ok : e.ok = false) (err : e.err = 0) : e.ResultTable := by
  refine ⟨fun op' ctx' run' => ?_, by rw [err, errAllowed_zero], by simp [ok], by simp [done]⟩
  cases run.symm.trans run'
  exact ⟨lastOp, ok, err⟩

/-- The table speaks of OP, OK, ERR, the sequencer and DONE only, and clearing DONE keeps it. -/
theorem Engine.ResultTable.congr {e e' : Engine} (t : e.ResultTable) (seq : e'.seq = e.seq) (lastOp : e'.lastOp = e.lastOp)
    (ok : e'.ok = e.ok) (err : e'.err = e.err) (done : e'.done = true → e.done = true) : e'.ResultTable :=
  ⟨by rw [seq, lastOp, ok, err]; exact t.running, by rw [lastOp, err]; exact t.allowed,
    by rw [ok, lastOp]; exact t.ok_opcode, by rw [ok, err]; exact fun isDone => t.ok_iff (done isDone)⟩

/-- A run has DONE = 0: with DONE = 1, ERR = 0 would say OK = 1. -/
theorem Engine.ResultTable.not_done {e : Engine} (t : e.ResultTable) {op : Op} {ctx : Ctx} (run : e.seq = .run op ctx) :
    e.done = false := by
  obtain ⟨_, ok, err⟩ := t.running op ctx run
  by_contra done
  have same := t.ok_iff (by simpa using done)
  simp [ok, err] at same

/-- A step inside a run that leaves OP, DONE, OK and ERR as they are. -/
theorem Engine.ResultTable.advance {e e' : Engine} (t : e.ResultTable) {op : Op} {ctx ctx' : Ctx}
    (run : e.seq = .run op ctx) (run' : e'.seq = .run op ctx') (lastOp : e'.lastOp = e.lastOp) (done : e'.done = e.done)
    (ok : e'.ok = e.ok) (err : e'.err = e.err) : e'.ResultTable := by
  obtain ⟨wasOp, wasOk, wasErr⟩ := t.running op ctx run
  exact .of_run run' (lastOp.trans wasOp) (done.trans (t.not_done run)) (ok.trans wasOk) (err.trans wasErr)

/-! ### Instructions keep the result table -/

/-- ABORT finishes a run of any opcode ABORTED (40 R117). -/
theorem Engine.ResultTable.abort {e : Engine} (t : e.ResultTable) (busy : e.busy = true) :
    (e.finish false .aborted).ResultTable := by
  cases run : e.seq with
  | idle => exact absurd run (e.busy_iff_not_idle.1 busy)
  | run op ctx =>
    obtain ⟨lastOp, _⟩ := t.running op ctx run
    exact .finish_failure nofun (lastOp ▸ errAllowed_aborted op)

theorem Engine.control_resultTable (d : Word) {e : Engine} (t : e.ResultTable) : (Engine.control d e).ResultTable := by
  obtain h | ⟨e', inq', outq', he', _, _, h⟩ := Engine.control_cases d e <;> rw [h]
  · exact resetStateSatisfiesTheInvariants.2.2
  · have t' : e'.ResultTable := by
      obtain rfl | ⟨busy, rfl⟩ := he'
      · exact t
      · exact t.abort busy
    exact t'.congr rfl rfl rfl rfl id

/-- Acceptance starts a run of the word's opcode, or finishes with a code that its row has (40 R107, R108). -/
theorem Accepts.resultTable {e t : Engine} (acc : Accepts e t) (done : e.done = false) (ok : e.ok = false)
    (err : e.err = 0) : t.ResultTable := by
  cases acc with
  | illegal => exact .finish_failure nofun (errAllowed_illegalCmd _)
  | done key op => exact .finish_ok op
  | badLen op => exact .finish_failure nofun (by rw [op]; decide)
  | keyPass op | keyRaw op | encBlock op | decBlock op | encrypt _ _ op | decBuf op | decStream op =>
    exact .of_run rfl op done ok err

theorem Effect.resultTable {p : Params} {i : Instr} {e e' : Engine} (eff : Effect p i e e') (t : e.ResultTable) :
    e'.ResultTable := by
  cases eff with
  | same => exact t
  | pop | rejected | config => exact t.congr rfl rfl rfl rfl id
  | control d => exact Engine.control_resultTable d t
  | clear d =>
    refine t.congr rfl rfl rfl rfl fun done => ?_
    obtain ⟨_, wasDone⟩ : d.getLsbD 1 = false ∧ e.done = true := by simpa using done
    exact wasDone
  | push => exact t.congr (by simp) (by simp) (by simp) (by simp) (by simp)
  | command _ w _ _ acc => exact acc.resultTable rfl rfl rfl

/-! ### Engine steps keep the result table (44 R192, R193, R195, R196) -/

/-- When an encrypt run has taken everything, no byte is pending but those of a whole block (44 R193). -/
theorem Ctx.Bounds.acc_nil_of_encrypts {ctx : Ctx} {op : Op} (b : ctx.Bounds op) (enc : op.encrypts = true)
    (rem : ctx.rem = some 0) (more : ctx.acc.length ≠ 8) : ctx.acc = [] := by
  have le := b.acc_codec (by simp [enc])
  obtain ⟨n, rem', sum⟩ := b.rem_encrypt enc
  cases rem.symm.trans rem'
  have whole : ctx.acc.length % 8 = 0 := sum
  exact List.length_eq_zero_iff.1 (by omega)

theorem EngineStep.resultTable {p : Params} {e e' : Engine} (st : EngineStep p e e') (bounds : e.RunsIn Ctx.Bounds)
    (t : e.ResultTable) : e'.ResultTable := by
  obtain ⟨op, ctx, run⟩ := st.run
  obtain ⟨lastOp, _⟩ := t.running op ctx run
  have opcode : e.lastOp ∈ opcodes := lastOp ▸ op.code_mem_opcodes
  cases st with
  | keyFold _ _ _ _ seq | take _ _ _ _ seq | pushEnc _ _ _ seq | pushFirst _ _ seq | pushLater _ _ seq =>
    exact t.advance seq rfl rfl rfl rfl rfl
  | commit | codecDone => exact .finish_ok opcode
  | short op' _ _ seq _ code =>
    cases run.symm.trans seq
    exact .finish_failure nofun (lastOp ▸ code)
  | streamEnd _ _ seq =>
    cases run.symm.trans seq
    split
    · exact .finish_ok opcode
    · exact .finish_failure nofun (lastOp ▸ rfl)
  | partialEnc _ ctx' seq enc rem acc pending =>
    exact absurd ((bounds _ ctx' seq).acc_nil_of_encrypts enc rem acc) pending
  | badFill _ _ seq dec =>
    cases run.symm.trans seq
    exact .finish_failure nofun (lastOp ▸ errAllowed_badFill dec)

/-- Settles O42: an instruction keeps the table from any state; an engine step needs R47, which shuts out PARTIAL_BLOCK in
an encrypt run. -/
theorem everyStepKeepsTheResultTable : Obligations.EveryStepKeepsTheResultTable := by
  intro s t inv table h
  obtain ⟨_, _, _, bounds⟩ := (Engine.inv_iff _ _).1 inv
  obtain ⟨_, ⟨_, _, _, _, _, eff⟩ | ⟨_, st | same⟩⟩ := step_effect h
  · exact eff.resultTable table
  · exact st.resultTable bounds table
  · rw [same]; exact table

/-! ### What stops the machine (30 R85, R86; 40 R119; 60 R244, R245) -/

/-- Every read of the window answers, a DOUT read of an empty FIFO too. -/
theorem exec_decodeRead_answers (off : BitVec 12) (s : State) : ∃ t, exec (decodeRead off) s = .next t := by
  unfold decodeRead
  split
  case h_19 => show ∃ t, popDout s = .next t; unfold popDout; split <;> exact ⟨_, rfl⟩
  case h_21 => split_ifs <;> exact ⟨_, rfl⟩
  all_goals exact ⟨_, rfl⟩

/-- Every write of the window answers, to a busy engine too. -/
theorem exec_decodeWrite_answers (off : BitVec 12) (data : Word) (s : State) :
    ∃ t, exec (decodeWrite off data) s = .next t := by
  unfold decodeWrite
  split
  case h_21 => split_ifs <;> exact ⟨_, rfl⟩
  all_goals exact ⟨_, rfl⟩

/-- A command word is run, as its row or as an illegal word (40 R106, R108). -/
theorem step_command_answers {s : State} {w : Word} {rest : List PortEvent} (port : s.port = .host (.command w) :: rest) :
    ∃ t, step s = .next t := by
  obtain ⟨runsRow, answers⟩ := commandWriteRunsTheCommandOfItsWord
  obtain ⟨t, next, _⟩ := answers { s with port := rest } w
  refine ⟨t, ?_⟩
  obtain ⟨i, decoded, fetched⟩ | ⟨_, fetched⟩ := fetchInstr_command w <;> rw [step_host port fetched]
  · rw [← runsRow _ w i decoded, next]
  · exact next

/-- An aligned 4-byte transaction is refused, or it reaches a register (30 R86). -/
theorem decode_aligned {d : BitVec 16} (size : descSize d = 2#2) (aligned : (descOff d).toNat % 4 = 0) (data : Word) :
    decode (.bus d data) = decodeRegister d data := by
  simp [decode, decodeBus, decodeFourByte, size, aligned]

theorem step_fetch_error {s : State} {a : Access} {rest : List PortEvent} {r : Refusal}
    (port : s.port = .host a :: rest) (fetched : fetchInstr a = .error r) : step s = .refused r := by
  simp [step, port, fetched]

/-- Bit 12 is set, or the offset is outside the window: a 4-byte aligned transaction that the model refuses (logs 9, 10). -/
def NamesNoRegister (d : BitVec 16) : Prop := descBit12 d = true ∨ 0x100 ≤ (descOff d).toNat

theorem step_aligned {s : State} {d : BitVec 16} {data : Word} {rest : List PortEvent}
    (port : s.port = .host (.bus d data) :: rest) (size : descSize d = 2#2) (aligned : (descOff d).toNat % 4 = 0) :
    (∃ t, step s = .next t) ∨ NamesNoRegister d ∧ ∃ r, step s = .refused r := by
  have decoded := decode_aligned size aligned data
  unfold decodeRegister at decoded
  split_ifs at decoded with bit12 outside write
  · have fetched : fetchInstr (.bus d data) = .error (.reservedDescriptorBit d) := by simp only [fetchInstr, decoded]
    exact .inr ⟨.inl bit12, _, step_fetch_error port fetched⟩
  · have fetched : fetchInstr (.bus d data) = .error (.outsideWindow (descOff d)) := by simp only [fetchInstr, decoded]
    exact .inr ⟨.inr outside, _, step_fetch_error port fetched⟩
  · rw [step_host port (fetchInstr_of_decode decoded)]
    exact .inl (exec_decodeWrite_answers _ _ _)
  · rw [step_host port (fetchInstr_of_decode decoded)]
    exact .inl (exec_decodeRead_answers _ _)

/-- What a step answers: a next state, but for a malformed transaction, which faults, and for an aligned one that names no
register, which is refused. -/
theorem step_answers_or_stops (s : State) :
    (∃ t, step s = .next t) ∨ ∃ d data rest, s.port = .host (.bus d data) :: rest ∧
      ((descSize d ≠ 2#2 ∨ (descOff d).toNat % 4 ≠ 0) ∧ (∃ r, step s = .fault r) ∨
        (descSize d = 2#2 ∧ (descOff d).toNat % 4 = 0 ∧ NamesNoRegister d) ∧ ∃ r, step s = .refused r) := by
  obtain ⟨turn, _⟩ := engineTurnTakesTheEnabledStep
  match port : s.port with
  | [] => exact .inl ⟨_, (turn s []).2 port⟩
  | .engine :: rest => exact .inl ⟨_, (turn s rest).1 port⟩
  | .host (.command w) :: rest => exact .inl (step_command_answers port)
  | .host (.bus d data) :: rest =>
    by_cases malformed : descSize d ≠ 2#2 ∨ (descOff d).toNat % 4 ≠ 0
    · obtain ⟨i, row, decoded⟩ := decode_malformed_row malformed data
      have ran := step_host port (fetchInstr_of_decode decoded)
      exact .inr ⟨d, data, rest, rfl, .inl ⟨malformed, _, ran.trans (exec_busErrorRow row _)⟩⟩
    · obtain ⟨size, aligned⟩ : descSize d = 2#2 ∧ (descOff d).toNat % 4 = 0 := by simpa using malformed
      refine (step_aligned port size aligned).imp_right fun ⟨noRegister, refused⟩ => ?_
      exact ⟨d, data, rest, rfl, .inr ⟨⟨size, aligned, noRegister⟩, refused⟩⟩

/-- Settles O17: of the three answers of a step, only a malformed transaction's is a fault, and only one
that names no register is refused. -/
theorem onlyMalformedTransactionsStopTheMachine : Obligations.OnlyMalformedTransactionsStopTheMachine := by
  refine ⟨fun s r stopped => ?fault, fun s r stopped => ?refusal⟩
  case fault =>
    obtain ⟨t, next⟩ | ⟨d, data, rest, port, ⟨malformed, _⟩ | ⟨_, _, refused⟩⟩ := step_answers_or_stops s
    · cases next.symm.trans stopped
    · exact ⟨d, data, rest, port, descOff_eq_setWidth d ▸ malformed⟩
    · cases refused.symm.trans stopped
  case refusal =>
    obtain ⟨t, next⟩ | ⟨d, data, rest, port, ⟨_, _, fault⟩ | ⟨⟨size, aligned, noRegister⟩, _⟩⟩ := step_answers_or_stops s
    · cases next.symm.trans stopped
    · cases fault.symm.trans stopped
    · exact ⟨d, data, rest, port, size, descOff_eq_setWidth d ▸ aligned, descOff_eq_setWidth d ▸ noRegister⟩

end Sys2Proof.Machine

/-! ## The reset and hazards family

The soft reset (70 R271): a CTRL write whose other bits, and whose engine, do not matter. -/

namespace Sys2Proof.Machine

open Sys2Proof

/-- Settles O13: SRST is looked at first and alone, and gives the engine of power-on reset, whose values O14 states. -/
theorem softResetPutsEveryRegisterAtItsResetValue : Obligations.SoftResetPutsEveryRegisterAtItsResetValue := by
  intro s d srst
  obtain ⟨resetValues, _⟩ := resetStateHoldsTheSpecsResetValues
  have control := (Engine.control_srst srst s.engine).trans resetValues
  exact congrArg (fun e => Host.Outcome.next (s.setEngine e)) control

end Sys2Proof.Machine
